-- ==== Sys2Proof/Word.lean ====
section
/-! DEFINITION. The units of transfer of the IOE: 64-bit words, bytes, and frames of words (R8, R60). -/

namespace Sys2Proof

/-- A 64-bit word of a frame (R60). -/
abbrev Word := BitVec 64

/-- An 8-bit character code (R8, R218). -/
abbrev Byte := BitVec 8

/-- A request frame: a finite sequence of words whose start and end the transport marks (R60). -/
abbrev Frame := List Word

end Sys2Proof
end

