-- ==== Sys2Proof/Config.lean ====
section
/-! DEFINITION. The configuration parameters of R7 (00_scope.md): fixed when the engine is built, read and written by no
request. Every claim of the package is made for every configuration. -/

namespace Sys2Proof

/-- The legal values of `PTRW`, the width of the pointer-sized types (R7, D10). A width outside {16, 32, 64} is no value of
this type, which is how V11's "refuse" reads for this parameter (log 4). -/
inductive PtrWidth where
  | w16
  | w32
  | w64
  deriving DecidableEq, Repr

/-- `PTRW` in bits (R7). -/
def PtrWidth.bits : PtrWidth → Nat
  | .w16 => 16
  | .w32 => 32
  | .w64 => 64

/-- The legal values of `NATIVE_ORDER` (R7, R43). -/
inductive ByteOrder where
  /-- the first byte of the serialised form is byte 0 -/
  | le
  /-- the first byte of the serialised form is byte W/8 − 1 -/
  | be
  deriving DecidableEq, Repr

/-- The three parameters of R7. -/
structure Config where
  /-- `PTRW` -/
  ptrw : PtrWidth
  /-- `NATIVE_ORDER` -/
  nativeOrder : ByteOrder
  /-- `STRMAX`, the largest string length in bytes a parse request may carry -/
  strmax : Nat
  deriving DecidableEq, Repr

/-- The configuration lies in the ranges of R7: 65 <= STRMAX <= 2^32 − 1. -/
def Config.legal (cfg : Config) : Bool :=
  decide (65 ≤ cfg.strmax) && decide (cfg.strmax ≤ 4294967295)

/-- The reference values of R7, which the test vectors of 95_test_vectors.md use. DESIGN CHOICE (log 1): `State.reset` stands
at this configuration; the spec leaves all three parameters open. -/
def Config.reference : Config where
  ptrw := .w64
  nativeOrder := .le
  strmax := 255

end Sys2Proof
end

