-- ==== Sys2Proof/Syntax.lean ====
section
/-! DEFINITION. The commands of the IOE (R79): the ten types (R64), the six operand formats (R63), the 34 opcodes (R76), and
one constructor of `Instr` per row of spec/opcode_table.json. -/

namespace Sys2Proof

/-- The width select of a type (R64): the four fixed widths and the pointer width. -/
inductive WidthSel where
  | w8
  | w16
  | w32
  | w64
  | ptr
  deriving DecidableEq, Repr

/-- A type (S, W) of R6: signedness and width select. `usize` and `isize` are types of their own (R64). -/
structure Ty where
  signed : Bool
  wsel : WidthSel
  deriving DecidableEq, Repr

/-- The operand formats of R63. -/
inductive Format where
  /-- no operand -/
  | N
  /-- one value -/
  | U
  /-- two values -/
  | VV
  /-- a value and a count -/
  | VC
  /-- a character and a radix -/
  | D
  /-- a string and a radix -/
  | S
  deriving DecidableEq, Repr

/-- The 34 assigned opcodes of R76, in the table's order. -/
inductive Opcode where
  | min
  | max
  | bits
  | abs
  | signum
  | isPositive
  | isNegative
  | or
  | and
  | xor
  | not
  | shl
  | shr
  | countOnes
  | countZeros
  | leadingZeros
  | trailingZeros
  | rotateLeft
  | rotateRight
  | swapBytes
  | reverseBits
  | toLe
  | fromLe
  | toBe
  | fromBe
  | add
  | sub
  | neg
  | mul
  | checkedDiv
  | pow
  | checkedPow
  | digit
  | fromStrRadix
  deriving DecidableEq, Repr

/-- A command of R79, one constructor per opcode. A value operand stands as the whole 64-bit operand word (R62); the count is
the 32-bit immediate (R67), the character an 8-bit code (R68), the string a byte sequence (R69), the radix the 6-bit field
(R65). Which operand words a command may hold is `Instr.wellFormed`. -/
inductive Instr where
  /-- MIN (R100) -/
  | min (ty : Ty)
  /-- MAX (R101) -/
  | max (ty : Ty)
  /-- BITS (R102) -/
  | bits (ty : Ty)
  /-- ABS (R103) -/
  | abs (ty : Ty) (a : Word)
  /-- SIGNUM (R104) -/
  | signum (ty : Ty) (a : Word)
  /-- IS_POSITIVE (R105) -/
  | isPositive (ty : Ty) (a : Word)
  /-- IS_NEGATIVE (R106) -/
  | isNegative (ty : Ty) (a : Word)
  /-- OR (R120) -/
  | or (ty : Ty) (a b : Word)
  /-- AND (R121) -/
  | and (ty : Ty) (a b : Word)
  /-- XOR (R122) -/
  | xor (ty : Ty) (a b : Word)
  /-- NOT (R123) -/
  | not (ty : Ty) (a : Word)
  /-- SHL (R124) -/
  | shl (ty : Ty) (a : Word) (n : BitVec 32)
  /-- SHR (R125) -/
  | shr (ty : Ty) (a : Word) (n : BitVec 32)
  /-- COUNT_ONES (R140) -/
  | countOnes (ty : Ty) (a : Word)
  /-- COUNT_ZEROS (R141) -/
  | countZeros (ty : Ty) (a : Word)
  /-- LEADING_ZEROS (R142) -/
  | leadingZeros (ty : Ty) (a : Word)
  /-- TRAILING_ZEROS (R143) -/
  | trailingZeros (ty : Ty) (a : Word)
  /-- ROTATE_LEFT (R160) -/
  | rotateLeft (ty : Ty) (a : Word) (n : BitVec 32)
  /-- ROTATE_RIGHT (R161) -/
  | rotateRight (ty : Ty) (a : Word) (n : BitVec 32)
  /-- SWAP_BYTES (R164) -/
  | swapBytes (ty : Ty) (a : Word)
  /-- REVERSE_BITS (R166) -/
  | reverseBits (ty : Ty) (a : Word)
  /-- TO_LE (R168) -/
  | toLe (ty : Ty) (a : Word)
  /-- FROM_LE (R169) -/
  | fromLe (ty : Ty) (a : Word)
  /-- TO_BE (R170) -/
  | toBe (ty : Ty) (a : Word)
  /-- FROM_BE (R171) -/
  | fromBe (ty : Ty) (a : Word)
  /-- ADD (R190) -/
  | add (ty : Ty) (a b : Word)
  /-- SUB (R191) -/
  | sub (ty : Ty) (a b : Word)
  /-- NEG (R192) -/
  | neg (ty : Ty) (a : Word)
  /-- MUL (R193) -/
  | mul (ty : Ty) (a b : Word)
  /-- CHECKED_DIV (R194) -/
  | checkedDiv (ty : Ty) (a b : Word)
  /-- POW (R231) -/
  | pow (ty : Ty) (a : Word) (n : BitVec 32)
  /-- CHECKED_POW (R232) -/
  | checkedPow (ty : Ty) (a : Word) (n : BitVec 32)
  /-- DIGIT (R211) -/
  | digit (ty : Ty) (c : Byte) (radix : BitVec 6)
  /-- FROM_STR_RADIX (R213) -/
  | fromStrRadix (ty : Ty) (str : List Byte) (radix : BitVec 6)
  deriving DecidableEq, Repr

end Sys2Proof
end

