-- ==== Sys2Proof/Machine/Operands.lean ====
section
/-! DEFINITION. Values, patterns and operand forms: the readings and conversions of R9, R10, R11 (00_scope.md), the type table
of R64, the canonical form of R66, and the character and string operands of R68, R69, R210 and R212. -/

namespace Sys2Proof.Machine

/-- The width W of a type: the table of R64, with `PTRW` for the pointer-sized types. -/
def width (cfg : Config) (ty : Ty) : Nat :=
  match ty.wsel with
  | .w8 => 8
  | .w16 => 16
  | .w32 => 32
  | .w64 => 64
  | .ptr => cfg.ptrw.bits

/-- The W-bit pattern of an operand word, `A[W−1:0]` (R66). -/
def pattern (w : Nat) (a : Word) : BitVec w := a.setWidth w

/-- A word is canonical for width W: bits 63 down to W are zero (R66, R15). -/
def canonical (w : Nat) (a : Word) : Bool := decide (a.toNat < 2 ^ w)

/-- `zext_64(p)`, the form in which every pattern travels, for signed types as well (R11, R66). -/
def zext64 {w : Nat} (p : BitVec w) : Word := p.setWidth 64

/-- `val(x)` of R10: the two's-complement reading for a signed type, the unsigned reading otherwise. -/
def val (signed : Bool) {w : Nat} (x : BitVec w) : Int :=
  if signed then x.toInt else (x.toNat : Int)

/-- `wrap(z)` of R10: the W-bit pattern p with u(p) ≡ z (mod 2^W). -/
def wrap (w : Nat) (z : Int) : BitVec w := BitVec.ofInt w z

/-- `MINV` of R10. -/
def minv (signed : Bool) (w : Nat) : Int := if signed then -(2 ^ (w - 1)) else 0

/-- `MAXV` of R10. -/
def maxv (signed : Bool) (w : Nat) : Int := if signed then 2 ^ (w - 1) - 1 else 2 ^ w - 1

/-- `inrange(z)` of R10. -/
def inRange (signed : Bool) (w : Nat) (z : Int) : Bool :=
  decide (minv signed w ≤ z) && decide (z ≤ maxv signed w)

/-- A boolean result (R13): `wrap(1)` for true, `wrap(0)` for false. -/
def ofBool (w : Nat) (c : Bool) : BitVec w := wrap w (if c then 1 else 0)

/-- The number whose bit i is `f i` for i below k and 0 above. -/
def natOfBits (f : Nat → Bool) : Nat → Nat
  | 0 => 0
  | k + 1 => natOfBits f k + (if f k then 2 ^ k else 0)

/-- The W-bit pattern r with `r[i] = f i` for each i in 0..W−1: what "for each i in 0..W−1: res[i] = …" of the spec's
pseudocode builds. -/
def ofBits (w : Nat) (f : Nat → Bool) : BitVec w := BitVec.ofNat w (natOfBits f w)

/-- The largest i below k with `x[i] = 1` (R142). -/
def highestSet {w : Nat} (x : BitVec w) : Nat → Option Nat
  | 0 => none
  | k + 1 => if x.getLsbD k then some k else highestSet x k

/-- The smallest i below W with `x[i] = 1` (R143). -/
def lowestSet {w : Nat} (x : BitVec w) : Option Nat := (List.range w).find? (fun i => x.getLsbD i)

/-- The radix field is in its legal range (R65, K8). -/
def radixLegal (radix : BitVec 6) : Bool := decide (2 ≤ radix.toNat) && decide (radix.toNat ≤ 36)

/-- The digit function `dig` of R210 on character codes: `0`–`9`, `a`–`z` and `A`–`Z` by their ASCII codes, `none` elsewhere. -/
def dig (c : Byte) : Option Nat :=
  let k := c.toNat
  if 0x30 ≤ k ∧ k ≤ 0x39 then some (k - 0x30)
  else if 0x61 ≤ k ∧ k ≤ 0x7A then some (k - 0x61 + 10)
  else if 0x41 ≤ k ∧ k ≤ 0x5A then some (k - 0x41 + 10)
  else none

/-- A character read as a digit below the radix: the test of R211 and of the loop of R213. -/
def digitBelow (radix : Nat) (c : Byte) : Option Nat :=
  match dig c with
  | some d => if d < radix then some d else none
  | none => none

/-- The digit values of a digit sequence, or `none` when some character is not a digit below the radix (R213). -/
def digitValues (radix : Nat) : List Byte → Option (List Nat)
  | [] => some []
  | c :: cs =>
    match digitBelow radix c, digitValues radix cs with
    | some d, some ds => some (d :: ds)
    | _, _ => none

/-- The sum over k of `d[k] · radix^(M−1−k)`, an unbounded number (R213), evaluated from the left. -/
def magnitude (radix : Nat) (ds : List Nat) : Nat := ds.foldl (fun m d => m * radix + d) 0

/-- R212: whether the string has a sign, and its digit sequence. A leading `-` (0x2D) is a sign for signed types only. -/
def splitSign (signed : Bool) (str : List Byte) : Bool × List Byte :=
  match str with
  | [] => (false, [])
  | c :: rest => if signed && c == 0x2D#8 then (true, rest) else (false, c :: rest)

end Sys2Proof.Machine
end

