-- ==== Sys2Proof/WellFormed.lean ====
section
/-! DEFINITION. Which commands a legal frame can encode (R79): value operands canonical (R66), radix in 2..36 (R65), string
length at most `STRMAX` (R69). The other checks of R78 concern frames that are no command's encoding, not commands. -/

namespace Sys2Proof

/-- The command is one that some legal frame encodes under this configuration (R79, R81). -/
def Instr.wellFormed (cfg : Config) (i : Instr) : Bool :=
  match i with
  | .min _ => true
  | .max _ => true
  | .bits _ => true
  | .abs ty a => Machine.canonical (Machine.width cfg ty) a
  | .signum ty a => Machine.canonical (Machine.width cfg ty) a
  | .isPositive ty a => Machine.canonical (Machine.width cfg ty) a
  | .isNegative ty a => Machine.canonical (Machine.width cfg ty) a
  | .or ty a b => Machine.canonical (Machine.width cfg ty) a && Machine.canonical (Machine.width cfg ty) b
  | .and ty a b => Machine.canonical (Machine.width cfg ty) a && Machine.canonical (Machine.width cfg ty) b
  | .xor ty a b => Machine.canonical (Machine.width cfg ty) a && Machine.canonical (Machine.width cfg ty) b
  | .not ty a => Machine.canonical (Machine.width cfg ty) a
  | .shl ty a _ => Machine.canonical (Machine.width cfg ty) a
  | .shr ty a _ => Machine.canonical (Machine.width cfg ty) a
  | .countOnes ty a => Machine.canonical (Machine.width cfg ty) a
  | .countZeros ty a => Machine.canonical (Machine.width cfg ty) a
  | .leadingZeros ty a => Machine.canonical (Machine.width cfg ty) a
  | .trailingZeros ty a => Machine.canonical (Machine.width cfg ty) a
  | .rotateLeft ty a _ => Machine.canonical (Machine.width cfg ty) a
  | .rotateRight ty a _ => Machine.canonical (Machine.width cfg ty) a
  | .swapBytes ty a => Machine.canonical (Machine.width cfg ty) a
  | .reverseBits ty a => Machine.canonical (Machine.width cfg ty) a
  | .toLe ty a => Machine.canonical (Machine.width cfg ty) a
  | .fromLe ty a => Machine.canonical (Machine.width cfg ty) a
  | .toBe ty a => Machine.canonical (Machine.width cfg ty) a
  | .fromBe ty a => Machine.canonical (Machine.width cfg ty) a
  | .add ty a b => Machine.canonical (Machine.width cfg ty) a && Machine.canonical (Machine.width cfg ty) b
  | .sub ty a b => Machine.canonical (Machine.width cfg ty) a && Machine.canonical (Machine.width cfg ty) b
  | .neg ty a => Machine.canonical (Machine.width cfg ty) a
  | .mul ty a b => Machine.canonical (Machine.width cfg ty) a && Machine.canonical (Machine.width cfg ty) b
  | .checkedDiv ty a b => Machine.canonical (Machine.width cfg ty) a && Machine.canonical (Machine.width cfg ty) b
  | .pow ty a _ => Machine.canonical (Machine.width cfg ty) a
  | .checkedPow ty a _ => Machine.canonical (Machine.width cfg ty) a
  | .digit _ _ radix => Machine.radixLegal radix
  | .fromStrRadix _ str radix => decide (str.length ≤ cfg.strmax) && Machine.radixLegal radix

end Sys2Proof
end

