-- ==== Sys2Proof/Decode.lean ====
section
/-! DEFINITION. The decoder and, after it, the encoder: the opcode map (R76), the header layout (R61), the checks K1 to K11
(R78), decode as a function on frames (R79), the header match and mask (R80), and encode (R81). -/

namespace Sys2Proof

/-- The opcode byte of each opcode (R76). -/
def Opcode.code : Opcode → BitVec 8
  | .min => 0x00#8
  | .max => 0x01#8
  | .bits => 0x02#8
  | .abs => 0x10#8
  | .signum => 0x11#8
  | .isPositive => 0x12#8
  | .isNegative => 0x13#8
  | .or => 0x20#8
  | .and => 0x21#8
  | .xor => 0x22#8
  | .not => 0x23#8
  | .shl => 0x24#8
  | .shr => 0x25#8
  | .countOnes => 0x30#8
  | .countZeros => 0x31#8
  | .leadingZeros => 0x32#8
  | .trailingZeros => 0x33#8
  | .rotateLeft => 0x40#8
  | .rotateRight => 0x41#8
  | .swapBytes => 0x42#8
  | .reverseBits => 0x43#8
  | .toLe => 0x50#8
  | .fromLe => 0x51#8
  | .toBe => 0x52#8
  | .fromBe => 0x53#8
  | .add => 0x60#8
  | .sub => 0x61#8
  | .neg => 0x62#8
  | .mul => 0x63#8
  | .checkedDiv => 0x64#8
  | .pow => 0x65#8
  | .checkedPow => 0x66#8
  | .digit => 0x70#8
  | .fromStrRadix => 0x71#8

/-- The operand format of each opcode (R76). -/
def Opcode.format : Opcode → Format
  | .min => .N
  | .max => .N
  | .bits => .N
  | .abs => .U
  | .signum => .U
  | .isPositive => .U
  | .isNegative => .U
  | .or => .VV
  | .and => .VV
  | .xor => .VV
  | .not => .U
  | .shl => .VC
  | .shr => .VC
  | .countOnes => .U
  | .countZeros => .U
  | .leadingZeros => .U
  | .trailingZeros => .U
  | .rotateLeft => .VC
  | .rotateRight => .VC
  | .swapBytes => .U
  | .reverseBits => .U
  | .toLe => .U
  | .fromLe => .U
  | .toBe => .U
  | .fromBe => .U
  | .add => .VV
  | .sub => .VV
  | .neg => .U
  | .mul => .VV
  | .checkedDiv => .VV
  | .pow => .VC
  | .checkedPow => .VC
  | .digit => .D
  | .fromStrRadix => .S

/-- The opcodes in the order of the table of R76. -/
def Opcode.all : List Opcode :=
  [.min, .max, .bits, .abs, .signum, .isPositive, .isNegative, .or, .and, .xor, .not, .shl, .shr, .countOnes,
   .countZeros, .leadingZeros, .trailingZeros, .rotateLeft, .rotateRight, .swapBytes, .reverseBits, .toLe,
   .fromLe, .toBe, .fromBe, .add, .sub, .neg, .mul, .checkedDiv, .pow, .checkedPow, .digit, .fromStrRadix]

/-- The opcode an opcode byte stands for; `none` for the 222 reserved values (R77). -/
def Opcode.ofCode (code : BitVec 8) : Option Opcode := Opcode.all.find? (fun o => o.code == code)

/-- The opcode of a command. -/
def Instr.opcode : Instr → Opcode
  | .min _ => .min
  | .max _ => .max
  | .bits _ => .bits
  | .abs _ _ => .abs
  | .signum _ _ => .signum
  | .isPositive _ _ => .isPositive
  | .isNegative _ _ => .isNegative
  | .or _ _ _ => .or
  | .and _ _ _ => .and
  | .xor _ _ _ => .xor
  | .not _ _ => .not
  | .shl _ _ _ => .shl
  | .shr _ _ _ => .shr
  | .countOnes _ _ => .countOnes
  | .countZeros _ _ => .countZeros
  | .leadingZeros _ _ => .leadingZeros
  | .trailingZeros _ _ => .trailingZeros
  | .rotateLeft _ _ _ => .rotateLeft
  | .rotateRight _ _ _ => .rotateRight
  | .swapBytes _ _ => .swapBytes
  | .reverseBits _ _ => .reverseBits
  | .toLe _ _ => .toLe
  | .fromLe _ _ => .fromLe
  | .toBe _ _ => .toBe
  | .fromBe _ _ => .fromBe
  | .add _ _ _ => .add
  | .sub _ _ _ => .sub
  | .neg _ _ => .neg
  | .mul _ _ _ => .mul
  | .checkedDiv _ _ _ => .checkedDiv
  | .pow _ _ _ => .pow
  | .checkedPow _ _ _ => .checkedPow
  | .digit _ _ _ => .digit
  | .fromStrRadix _ _ _ => .fromStrRadix

/-- The type of a command. -/
def Instr.ty : Instr → Ty
  | .min ty => ty
  | .max ty => ty
  | .bits ty => ty
  | .abs ty _ => ty
  | .signum ty _ => ty
  | .isPositive ty _ => ty
  | .isNegative ty _ => ty
  | .or ty _ _ => ty
  | .and ty _ _ => ty
  | .xor ty _ _ => ty
  | .not ty _ => ty
  | .shl ty _ _ => ty
  | .shr ty _ _ => ty
  | .countOnes ty _ => ty
  | .countZeros ty _ => ty
  | .leadingZeros ty _ => ty
  | .trailingZeros ty _ => ty
  | .rotateLeft ty _ _ => ty
  | .rotateRight ty _ _ => ty
  | .swapBytes ty _ => ty
  | .reverseBits ty _ => ty
  | .toLe ty _ => ty
  | .fromLe ty _ => ty
  | .toBe ty _ => ty
  | .fromBe ty _ => ty
  | .add ty _ _ => ty
  | .sub ty _ _ => ty
  | .neg ty _ => ty
  | .mul ty _ _ => ty
  | .checkedDiv ty _ _ => ty
  | .pow ty _ _ => ty
  | .checkedPow ty _ _ => ty
  | .digit ty _ _ => ty
  | .fromStrRadix ty _ _ => ty

/-- The width select code (R64). -/
def WidthSel.code : WidthSel → BitVec 3
  | .w8 => 0#3
  | .w16 => 1#3
  | .w32 => 2#3
  | .w64 => 3#3
  | .ptr => 4#3

/-- The width select a code stands for; `none` for the reserved values 5, 6, 7 (R64). -/
def WidthSel.ofCode (code : BitVec 3) : Option WidthSel :=
  match code.toNat with
  | 0 => some .w8
  | 1 => some .w16
  | 2 => some .w32
  | 3 => some .w64
  | 4 => some .ptr
  | _ => none

/-- The 4-bit type code `sgn ++ wsel` (R64). -/
def Ty.code (ty : Ty) : BitVec 4 := BitVec.ofBool ty.signed ++ ty.wsel.code

/-! ## The header fields of R61 -/

/-- The header of a frame, `word0`; the zero word for a frame with no words, whose echo fields are zero (R71). -/
def headerOf (f : Frame) : Word := f.headD 0#64

/-- `op`, bits 7:0. -/
def opField (h : Word) : BitVec 8 := h.extractLsb' 0 8

/-- `wsel`, bits 10:8. -/
def wselField (h : Word) : BitVec 3 := h.extractLsb' 8 3

/-- `sgn`, bit 11. -/
def sgnField (h : Word) : Bool := h.getLsbD 11

/-- The type code `sgn ++ wsel`, bits 11:8 (R64). -/
def tyField (h : Word) : BitVec 4 := h.extractLsb' 8 4

/-- `radix`, bits 17:12. -/
def radixField (h : Word) : BitVec 6 := h.extractLsb' 12 6

/-- `rsv`, bits 31:18. -/
def rsvField (h : Word) : BitVec 14 := h.extractLsb' 18 14

/-- `n`, bits 63:32. -/
def nField (h : Word) : BitVec 32 := h.extractLsb' 32 32

/-- Operand word A, `word1` (R62). -/
def aWord (f : Frame) : Word := f.getD 1 0#64

/-- Operand word B, `word2` (R62). -/
def bWord (f : Frame) : Word := f.getD 2 0#64

/-- The type a header selects; `none` when `wsel` is reserved (R64). -/
def tyOf (h : Word) : Option Ty :=
  match WidthSel.ofCode (wselField h) with
  | some k => some { signed := sgnField h, wsel := k }
  | none => none

/-- The payload length P of R70: ceil(n/8) when `op` = 0x71, and 0 for every other opcode, legal or reserved. -/
def payloadWords (h : Word) : Nat :=
  if opField h == 0x71#8 then ((nField h).toNat + 7) / 8 else 0

/-- Byte `str[i]` of the payload: bits 8(i mod 8)+7 : 8(i mod 8) of `word(3 + i div 8)` (R69, R44). -/
def payloadByte (f : Frame) (i : Nat) : Byte := (f.getD (3 + i / 8) 0#64).extractLsb' (8 * (i % 8)) 8

/-- The string of a frame: the bytes `str[0] .. str[L−1]`, L = n (R69). -/
def payloadString (f : Frame) : List Byte :=
  (List.range (nField (headerOf f)).toNat).map (payloadByte f)

/-! ## The checks of R78 -/

/-- The checks of R78, by which the decoder names what it refuses. All of them give the one cause IllegalRequest. -/
inductive Check where
  /-- the frame has fewer than 3 words -/
  | k1
  /-- `rsv` is not zero -/
  | k2
  /-- `op` is reserved -/
  | k3
  /-- `wsel` is reserved -/
  | k4
  /-- a field the format does not use is not zero -/
  | k5
  /-- a value operand is not canonical -/
  | k6
  /-- format D and `n[31:8]` is not zero -/
  | k7
  /-- format D or S and the radix is outside 2..36 -/
  | k8
  /-- format S and `n` > `STRMAX` -/
  | k9
  /-- the word count is not 3 + P -/
  | k10
  /-- format S and a padding byte of the last payload word is not zero -/
  | k11
  deriving DecidableEq, Repr

/-- K1 to K11 in the order of the table of R78. The order is not observable (log 15). -/
def Check.all : List Check := [.k1, .k2, .k3, .k4, .k5, .k6, .k7, .k8, .k9, .k10, .k11]

/-- K5 of R78 for one format: a field the format does not use (R63) is not zero. -/
def unusedFieldSet (fmt : Format) (f : Frame) : Bool :=
  let a := aWord f != 0#64
  let b := bWord f != 0#64
  let n := nField (headerOf f) != 0#32
  let radix := radixField (headerOf f) != 0#6
  match fmt with
  | .N => a || b || n || radix
  | .U => b || n || radix
  | .VV => n || radix
  | .VC => b || radix
  | .D => a || b
  | .S => a || b

/-- K6 of R78 for one format and width: a value operand of the format is not canonical (R66). -/
def operandNotCanonical (fmt : Format) (w : Nat) (f : Frame) : Bool :=
  match fmt with
  | .U => !Machine.canonical w (aWord f)
  | .VC => !Machine.canonical w (aWord f)
  | .VV => !Machine.canonical w (aWord f) || !Machine.canonical w (bWord f)
  | .N => false
  | .D => false
  | .S => false

/-- K11 of R78: the bytes of the last payload word at positions L mod 8 and above, when L mod 8 is not 0, are not all zero. -/
def paddingSet (f : Frame) : Bool :=
  let l := (nField (headerOf f)).toNat
  l % 8 != 0 && (f.getD (2 + payloadWords (headerOf f)) 0#64) >>> (8 * (l % 8)) != 0#64

/-- When each check of R78 fails. With a reserved opcode K5 to K9 and K11 have no format to check against and pass, and with
a reserved width K6 passes. -/
def Check.fails (cfg : Config) (f : Frame) (k : Check) : Bool :=
  let h := headerOf f
  let fmt := (Opcode.ofCode (opField h)).map Opcode.format
  match k with
  | .k1 => decide (f.length < 3)
  | .k2 => rsvField h != 0#14
  | .k3 => (Opcode.ofCode (opField h)).isNone
  | .k4 => (WidthSel.ofCode (wselField h)).isNone
  | .k5 =>
    match fmt with
    | some fm => unusedFieldSet fm f
    | none => false
  | .k6 =>
    match fmt, tyOf h with
    | some fm, some ty => operandNotCanonical fm (Machine.width cfg ty) f
    | _, _ => false
  | .k7 => fmt == some .D && (nField h).extractLsb' 8 24 != 0#24
  | .k8 => (fmt == some .D || fmt == some .S) && !Machine.radixLegal (radixField h)
  | .k9 => fmt == some .S && decide (cfg.strmax < (nField h).toNat)
  | .k10 => decide (3 ≤ f.length) && f.length != 3 + payloadWords h
  | .k11 => fmt == some .S && paddingSet f

/-- The first check that fails, if any (R78). -/
def failedCheck (cfg : Config) (f : Frame) : Option Check := Check.all.find? (fun k => k.fails cfg f)

/-! ## Decode -/

/-- The command a frame that passes every check encodes (R79): the operands stand where the format puts them (R63). -/
def commandOf (op : Opcode) (ty : Ty) (f : Frame) : Instr :=
  let a := aWord f
  let b := bWord f
  let n := nField (headerOf f)
  let c := n.extractLsb' 0 8
  let radix := radixField (headerOf f)
  let str := payloadString f
  match op with
  | .min => .min ty
  | .max => .max ty
  | .bits => .bits ty
  | .abs => .abs ty a
  | .signum => .signum ty a
  | .isPositive => .isPositive ty a
  | .isNegative => .isNegative ty a
  | .or => .or ty a b
  | .and => .and ty a b
  | .xor => .xor ty a b
  | .not => .not ty a
  | .shl => .shl ty a n
  | .shr => .shr ty a n
  | .countOnes => .countOnes ty a
  | .countZeros => .countZeros ty a
  | .leadingZeros => .leadingZeros ty a
  | .trailingZeros => .trailingZeros ty a
  | .rotateLeft => .rotateLeft ty a n
  | .rotateRight => .rotateRight ty a n
  | .swapBytes => .swapBytes ty a
  | .reverseBits => .reverseBits ty a
  | .toLe => .toLe ty a
  | .fromLe => .fromLe ty a
  | .toBe => .toBe ty a
  | .fromBe => .fromBe ty a
  | .add => .add ty a b
  | .sub => .sub ty a b
  | .neg => .neg ty a
  | .mul => .mul ty a b
  | .checkedDiv => .checkedDiv ty a b
  | .pow => .pow ty a n
  | .checkedPow => .checkedPow ty a n
  | .digit => .digit ty c radix
  | .fromStrRadix => .fromStrRadix ty str radix

/-- `decode(config, frame)` of R79, total on every frame: the command, or the check that refuses the frame (R75, R78). -/
def decode (cfg : Config) (f : Frame) : Except Check Instr :=
  match failedCheck cfg f with
  | some k => .error k
  | none =>
    match Opcode.ofCode (opField (headerOf f)), tyOf (headerOf f) with
    | some op, some ty => .ok (commandOf op ty f)
    | none, _ => .error .k3
    | some _, none => .error .k4

/-! ## Match and mask of opcode_table.json (R80) -/

/-- The header mask of each format (R80). -/
def Format.mask : Format → Word
  | .N => 0xFFFFFFFFFFFFF0FF#64
  | .U => 0xFFFFFFFFFFFFF0FF#64
  | .VV => 0xFFFFFFFFFFFFF0FF#64
  | .VC => 0x00000000FFFFF0FF#64
  | .D => 0xFFFFFF00FFFC00FF#64
  | .S => 0x00000000FFFC00FF#64

/-- A header selects the table row of an opcode when `word0 & mask = match`; the match is the opcode value (R80). -/
def Opcode.selects (op : Opcode) (h : Word) : Bool := h &&& op.format.mask == op.code.setWidth 64

/-! ## Encode -/

/-- The header word of R61: `n`, `rsv` = 0, `radix`, `sgn`, `wsel`, `op` from the top. -/
def headerWord (op : BitVec 8) (ty : Ty) (radix : BitVec 6) (n : BitVec 32) : Word :=
  n ++ 0#14 ++ radix ++ ty.code ++ op

/-- The number of payload words of a string of length L: ceil(L/8) (R69). -/
def stringWords (l : Nat) : Nat := (l + 7) / 8

/-- Payload word j of a string: bit k of it is bit k mod 8 of byte 8j + k div 8, and padding bytes are zero (R69). -/
def packedWord (str : List Byte) (j : Nat) : Word :=
  Machine.ofBits 64 (fun k => (str.getD (8 * j + k / 8) 0#8).getLsbD (k % 8))

/-- The payload of a string (R69). -/
def packString (str : List Byte) : List Word := (List.range (stringWords str.length)).map (packedWord str)

/-- The frame of an opcode, a type and a radix and string as they stand (R63, R69; log 17). -/
def stringFrame (op : Opcode) (ty : Ty) (str : List Byte) (radix : BitVec 6) : Frame :=
  headerWord op.code ty radix (BitVec.ofNat 32 str.length) :: 0#64 :: 0#64 :: packString str

/-- `encode` of R81: the header of R61 with the unused fields zero, A and B of R66, the payload of R69. -/
def encode (i : Instr) : Frame :=
  match i with
  | .min ty => [headerWord Opcode.min.code ty 0#6 0#32, 0#64, 0#64]
  | .max ty => [headerWord Opcode.max.code ty 0#6 0#32, 0#64, 0#64]
  | .bits ty => [headerWord Opcode.bits.code ty 0#6 0#32, 0#64, 0#64]
  | .abs ty a => [headerWord Opcode.abs.code ty 0#6 0#32, a, 0#64]
  | .signum ty a => [headerWord Opcode.signum.code ty 0#6 0#32, a, 0#64]
  | .isPositive ty a => [headerWord Opcode.isPositive.code ty 0#6 0#32, a, 0#64]
  | .isNegative ty a => [headerWord Opcode.isNegative.code ty 0#6 0#32, a, 0#64]
  | .or ty a b => [headerWord Opcode.or.code ty 0#6 0#32, a, b]
  | .and ty a b => [headerWord Opcode.and.code ty 0#6 0#32, a, b]
  | .xor ty a b => [headerWord Opcode.xor.code ty 0#6 0#32, a, b]
  | .not ty a => [headerWord Opcode.not.code ty 0#6 0#32, a, 0#64]
  | .shl ty a n => [headerWord Opcode.shl.code ty 0#6 n, a, 0#64]
  | .shr ty a n => [headerWord Opcode.shr.code ty 0#6 n, a, 0#64]
  | .countOnes ty a => [headerWord Opcode.countOnes.code ty 0#6 0#32, a, 0#64]
  | .countZeros ty a => [headerWord Opcode.countZeros.code ty 0#6 0#32, a, 0#64]
  | .leadingZeros ty a => [headerWord Opcode.leadingZeros.code ty 0#6 0#32, a, 0#64]
  | .trailingZeros ty a => [headerWord Opcode.trailingZeros.code ty 0#6 0#32, a, 0#64]
  | .rotateLeft ty a n => [headerWord Opcode.rotateLeft.code ty 0#6 n, a, 0#64]
  | .rotateRight ty a n => [headerWord Opcode.rotateRight.code ty 0#6 n, a, 0#64]
  | .swapBytes ty a => [headerWord Opcode.swapBytes.code ty 0#6 0#32, a, 0#64]
  | .reverseBits ty a => [headerWord Opcode.reverseBits.code ty 0#6 0#32, a, 0#64]
  | .toLe ty a => [headerWord Opcode.toLe.code ty 0#6 0#32, a, 0#64]
  | .fromLe ty a => [headerWord Opcode.fromLe.code ty 0#6 0#32, a, 0#64]
  | .toBe ty a => [headerWord Opcode.toBe.code ty 0#6 0#32, a, 0#64]
  | .fromBe ty a => [headerWord Opcode.fromBe.code ty 0#6 0#32, a, 0#64]
  | .add ty a b => [headerWord Opcode.add.code ty 0#6 0#32, a, b]
  | .sub ty a b => [headerWord Opcode.sub.code ty 0#6 0#32, a, b]
  | .neg ty a => [headerWord Opcode.neg.code ty 0#6 0#32, a, 0#64]
  | .mul ty a b => [headerWord Opcode.mul.code ty 0#6 0#32, a, b]
  | .checkedDiv ty a b => [headerWord Opcode.checkedDiv.code ty 0#6 0#32, a, b]
  | .pow ty a n => [headerWord Opcode.pow.code ty 0#6 n, a, 0#64]
  | .checkedPow ty a n => [headerWord Opcode.checkedPow.code ty 0#6 n, a, 0#64]
  | .digit ty c radix => [headerWord Opcode.digit.code ty radix (c.setWidth 32), 0#64, 0#64]
  | .fromStrRadix ty str radix => stringFrame .fromStrRadix ty str radix

/-! ## A table word as a frame -/

/-- The frame whose words are the bits of w, bit 0 the least significant bit of `word0`, every bit from nbits on zero, and as
long as its header says (R70), up to the longest legal frame of the configuration (log 8). -/
def frameOfBits (cfg : Config) (nbits w : Nat) : Frame :=
  let v := w % 2 ^ nbits
  (List.range (3 + min (payloadWords (BitVec.ofNat 64 v)) (stringWords cfg.strmax))).map
    (fun k => BitVec.ofNat 64 (v >>> (64 * k)))

/-- The command the decoder reads from the frame of a table word, under the reference configuration. -/
def decodeTableWord (nbits w : Nat) : Option Instr :=
  match decode Config.reference (frameOfBits Config.reference nbits w) with
  | .ok i => some i
  | .error _ => none

end Sys2Proof
end

