-- ==== Sys2Proof/Machine/State.lean ====
section
/-! DEFINITION. The causes (R250), the answers and response frames (R71, R72), the reasons a step can stop, and the state of
the IOE: its pending queue (R26), with the configuration it was built with and the responses it has emitted. -/

namespace Sys2Proof.Machine

/-- The failure causes of R250, in the order of their codes 1 to 6. OK (code 0) is no failure and is the other constructor of
`Answer`; codes 7 to 15 are never produced (V7). -/
inductive Cause where
  /-- code 1: divisor zero, or MIN / −1 for a signed type (R252) -/
  | divisionUndefined
  /-- code 2: a string or character that is no number in the radix (R253) -/
  | parseFormatError
  /-- code 3: a valid string that denotes a value out of range (R254) -/
  | parseRangeError
  /-- code 4: a checked power out of range (R255) -/
  | arithmeticOverflow
  /-- code 5: a shift amount of W or more (R256) -/
  | shiftRange
  /-- code 6: a frame that fails a check of R78 (R257) -/
  | illegalRequest
  deriving DecidableEq, Repr

/-- The outcome of one operation, `Ok pattern | Err cause` (R72): a failure has no value. -/
inductive Answer (w : Nat) where
  | ok (p : BitVec w)
  | err (c : Cause)
  deriving DecidableEq, Repr

/-- A response frame: exactly two words (R71). -/
structure Response where
  word0 : Word
  word1 : Word
  deriving DecidableEq, Repr

/-- The IOE never faults: no condition traps, saves state or transfers control (R260), and every frame has a defined response
(R75). Nobody raises a fault, so the type has no constructor. -/
inductive Fault where
  deriving DecidableEq, Repr

/-- Why a step is refused. -/
inductive Refusal where
  /-- Raised by `exec` alone, for an instruction that has no meaning yet; no arm of this model raises it. Safe: the machine
  stops where the hardware goes on. -/
  | notModelled (mnemonic : String)
  /-- Raised by `step` alone, for a configuration outside the ranges of R7 (V11: "refuse"). Safe: no behaviour is defined for
  such a configuration (log 4). -/
  | configOutOfRange
  deriving DecidableEq, Repr

/-- The state of the machine. The engine's own state is the pending queue and nothing else (R17, R20 to R27). -/
structure State where
  /-- the build-time parameters of R7, changed by nothing (R29); carried here because `step` has no other argument (log 1) -/
  config : Config
  /-- the request frames accepted and not yet answered, oldest first (R26) -/
  pending : List Frame
  /-- the MODEL's own field: the response frames emitted so far, oldest first, which are the observation of R18; no operation
  reads it (log 2) -/
  emitted : List Response
  deriving DecidableEq, Repr

/-- The machine right after reset: idle, with an empty pending queue (R29, R280). The parameters are build-time constants that
reset leaves as they are; this state stands at their reference values (DESIGN CHOICE, log 1). -/
def State.reset : State where
  config := Config.reference
  pending := []
  emitted := []

end Sys2Proof.Machine
end

