-- ==== Sys2Proof/Machine/Flags.lean ====
section
/-! DEFINITION. The detectors behind the failure causes. The IOE has no flags, no condition codes and no sticky error bit
(R22); what a flag would signal is the cause of one response, computed here from the operands of that one request. -/

namespace Sys2Proof.Machine

/-- ShiftRange: the count n is W or more (R124, R125, R256). The check does not look at the operand. -/
def shiftOutOfRange (w n : Nat) : Bool := decide (w ≤ n)

/-- DivisionUndefined: the divisor is zero, or the type is signed, the dividend is MINV and the divisor −1 (R194, R252). -/
def divisionUndefined (signed : Bool) {w : Nat} (x y : BitVec w) : Bool :=
  val signed y == 0 || (signed && val signed x == minv signed w && val signed y == -1)

/-- The power `v^n` where it can be in range of a W-bit type, and `none` where |v| >= 2 and n >= W, which always overflows
(R232). For |v| <= 1 the power is `v^n` by the parity of n (R230), so no large exponent is ever multiplied out (log 10). -/
def boundedPower (w : Nat) (v : Int) (n : Nat) : Option Int :=
  if v.natAbs ≤ 1 then some (if n = 0 then 1 else if n % 2 = 1 then v else v * v)
  else if w ≤ n then none
  else some (v ^ n)

/-- ArithmeticOverflow: the power of CHECKED_POW as a number in range, or `none` when it overflows (R232, R233). -/
def powerInRange (signed : Bool) (w : Nat) (v : Int) (n : Nat) : Option Int :=
  match boundedPower w v n with
  | some z => if inRange signed w z then some z else none
  | none => none

/-- The running state of the parser's left-to-right overflow detector (R217), local to one request. -/
structure Scan where
  acc : Int
  bad : Bool
  ovf : Bool
  deriving DecidableEq, Repr

/-- One character of the detector's loop (R217): a bad character, or the next accumulator, in range or not. -/
def scanStep (signed neg : Bool) (w radix : Nat) (sc : Scan) (c : Byte) : Scan :=
  match digitBelow radix c with
  | none => { sc with bad := true }
  | some d =>
    if sc.ovf then sc
    else
      let t := if neg then sc.acc * radix - d else sc.acc * radix + d
      if inRange signed w t then { sc with acc := t } else { sc with ovf := true }

/-- The parser as the left-to-right circuit of R217. FROM_STR_RADIX itself is `parseAnswer`, after R213; that the two agree is
one of the statements. -/
def parseCircuit (signed : Bool) (w radix : Nat) (str : List Byte) : Answer w :=
  let (neg, digits) := splitSign signed str
  let sc := digits.foldl (scanStep signed neg w radix) { acc := 0, bad := false, ovf := false }
  if digits.isEmpty || sc.bad then .err .parseFormatError
  else if sc.ovf then .err .parseRangeError
  else .ok (wrap w sc.acc)

end Sys2Proof.Machine
end

