-- ==== Sys2Proof/Machine/Ops.lean ====
section
/-! DEFINITION. The shared operations: the response frame (R71, R72), `respond` and `raise` (R12, R251), taking the oldest
request, accepting one (R60) and reset (R280, R281), and the bit permutations, the parser and the power that several
instructions share. Raising a cause is the whole of the IOE's failure handling: nothing is saved, no control is transferred
and there is nothing to return from (R251, R260, R261). -/

namespace Sys2Proof.Machine

/-! ## Responses -/

/-- The numeric code of a failure cause (R250). -/
def Cause.code : Cause → BitVec 4
  | .divisionUndefined => 1#4
  | .parseFormatError => 2#4
  | .parseRangeError => 3#4
  | .arithmeticOverflow => 4#4
  | .shiftRange => 5#4
  | .illegalRequest => 6#4

/-- The failure cause a code stands for; `none` for OK (0) and for the reserved codes 7 to 15 (R250). -/
def Cause.ofCode (code : BitVec 4) : Option Cause :=
  match code.toNat with
  | 1 => some .divisionUndefined
  | 2 => some .parseFormatError
  | 3 => some .parseRangeError
  | 4 => some .arithmeticOverflow
  | 5 => some .shiftRange
  | 6 => some .illegalRequest
  | _ => none

/-- The `cause` field of an answer: 0 for OK (R250). -/
def Answer.causeCode {w : Nat} : Answer w → BitVec 4
  | .ok _ => 0#4
  | .err c => c.code

/-- The value word of an answer: `zext_64(p)` for OK, driven to zero for a failure, where it carries no meaning (R72). -/
def Answer.valueWord {w : Nat} : Answer w → Word
  | .ok p => zext64 p
  | .err _ => 0#64

/-- Word 0 of a response (R71): zeros, `ty_echo`, `op_echo`, zeros, `cause` from the top. -/
def responseHeader (opEcho : BitVec 8) (tyEcho cause : BitVec 4) : Word :=
  0#44 ++ tyEcho ++ opEcho ++ 0#4 ++ cause

/-- `encode_response` of R71 and R72. -/
def encodeResponse {w : Nat} (opEcho : BitVec 8) (tyEcho : BitVec 4) (ans : Answer w) : Response where
  word0 := responseHeader opEcho tyEcho ans.causeCode
  word1 := ans.valueWord

/-- The cause field of a response, as the requester reads it (R71). -/
def Response.cause (r : Response) : BitVec 4 := r.word0.extractLsb' 0 4

/-- The opcode echo of a response (R71). -/
def Response.opEcho (r : Response) : BitVec 8 := r.word0.extractLsb' 8 8

/-- The type echo of a response (R71). -/
def Response.tyEcho (r : Response) : BitVec 4 := r.word0.extractLsb' 16 4

/-- The response to a frame the decoder refuses: IllegalRequest, with the echo fields as received (R71, R75, R257). -/
def illegalResponse (f : Frame) : Response :=
  encodeResponse (w := 0) (opField (headerOf f)) (tyField (headerOf f)) (.err .illegalRequest)

/-! ## The state's operations -/

/-- Emit one response frame (R74). -/
def State.emit (s : State) (r : Response) : State := { s with emitted := s.emitted ++ [r] }

/-- Remove the oldest pending request (R26). -/
def State.takeRequest (s : State) : State := { s with pending := s.pending.tail }

/-- The request port accepts a frame, whatever its content, behind those already pending (R60, R26; log 5). -/
def State.accept (f : Frame) (s : State) : State := { s with pending := s.pending ++ [f] }

/-- The reset input (R280, R281): every request accepted and not yet answered is discarded without a response; the parameters
and the responses already delivered stay as they are (log 6). -/
def State.applyReset (s : State) : State := { s with pending := [] }

/-- The engine is idle: no response is owed (R280, R290). -/
def State.idle (s : State) : Bool := s.pending.isEmpty

/-- Finish a request of opcode `op` and type `ty` with an answer: emit its response and change nothing else (R12, R251). -/
def finish {w : Nat} (op : Opcode) (ty : Ty) (ans : Answer w) (s : State) : Host.Outcome State Fault Refusal :=
  .next (s.emit (encodeResponse op.code ty.code ans))

/-- `respond Ok(p)` of R12. -/
def respond {w : Nat} (op : Opcode) (ty : Ty) (p : BitVec w) (s : State) : Host.Outcome State Fault Refusal :=
  finish op ty (.ok p) s

/-- `raise <Cause>` of R12 and R251: the response has the cause and no value, and nothing else happens. -/
def raise (op : Opcode) (ty : Ty) (c : Cause) (s : State) : Host.Outcome State Fault Refusal :=
  finish (w := 0) op ty (.err c) s

/-- The pattern of an operand word at a type's width under the state's configuration (R66; log 9). -/
def operand (s : State) (ty : Ty) (a : Word) : BitVec (width s.config ty) := pattern (width s.config ty) a

/-! ## Bit permutations shared by several instructions -/

/-- R164: byte j of the result is byte B−1−j of the operand, B = W/8. -/
def swapBytes {w : Nat} (x : BitVec w) : BitVec w :=
  ofBits w (fun i => x.getLsbD (8 * (w / 8 - 1 - i / 8) + i % 8))

/-- `le(a)` of R167. -/
def leOrder (order : ByteOrder) {w : Nat} (x : BitVec w) : BitVec w :=
  match order with
  | .le => x
  | .be => swapBytes x

/-- `be(a)` of R167. -/
def beOrder (order : ByteOrder) {w : Nat} (x : BitVec w) : BitVec w :=
  match order with
  | .le => swapBytes x
  | .be => x

/-! ## The power and the parser -/

/-- Square and multiply over the low `fuel` bits of n: `acc · base^n` on W-bit patterns (R231, R235; log 10). -/
def powLoop {w : Nat} : (fuel : Nat) → (base acc : BitVec w) → (n : Nat) → BitVec w
  | 0, _, acc, _ => acc
  | fuel + 1, base, acc, n => powLoop fuel (base * base) (if n % 2 = 1 then acc * base else acc) (n / 2)

/-- The pattern `wrap(val(a)^n)` of R231 for a 32-bit exponent, by square and multiply (log 10). -/
def powWrap {w : Nat} (x : BitVec w) (n : BitVec 32) : BitVec w := powLoop 32 x 1#w n.toNat

/-- FROM_STR_RADIX's pseudocode (R213): the format of the whole string first (R215), then the range. -/
def parseAnswer (signed : Bool) (w radix : Nat) (str : List Byte) : Answer w :=
  let (neg, digits) := splitSign signed str
  if digits.isEmpty then .err .parseFormatError
  else
    match digitValues radix digits with
    | none => .err .parseFormatError
    | some ds =>
      let m : Int := magnitude radix ds
      let z := if neg then -m else m
      if inRange signed w z then .ok (wrap w z) else .err .parseRangeError

end Sys2Proof.Machine
end

