-- ==== Sys2Proof/Machine/Arithmetic.lean ====
section
/-! DEFINITION. Wrapping arithmetic and checked division: ADD, SUB, NEG, MUL, CHECKED_DIV (44_arithmetic_and_division.md). -/

namespace Sys2Proof.Machine

/-- ADD (R190): `wrap(val(a) + val(b))`. -/
def execAdd (ty : Ty) (a b : Word) (s : State) : Host.Outcome State Fault Refusal :=
  respond .add ty
    (wrap (width s.config ty) (val ty.signed (operand s ty a) + val ty.signed (operand s ty b))) s

/-- SUB (R191): `wrap(val(a) − val(b))`. -/
def execSub (ty : Ty) (a b : Word) (s : State) : Host.Outcome State Fault Refusal :=
  respond .sub ty
    (wrap (width s.config ty) (val ty.signed (operand s ty a) - val ty.signed (operand s ty b))) s

/-- NEG (R192): `wrap(−val(a))`. -/
def execNeg (ty : Ty) (a : Word) (s : State) : Host.Outcome State Fault Refusal :=
  respond .neg ty (wrap (width s.config ty) (-val ty.signed (operand s ty a))) s

/-- MUL (R193): `wrap(val(a) · val(b))`. -/
def execMul (ty : Ty) (a b : Word) (s : State) : Host.Outcome State Fault Refusal :=
  respond .mul ty
    (wrap (width s.config ty) (val ty.signed (operand s ty a) * val ty.signed (operand s ty b))) s

/-- CHECKED_DIV (R194): DivisionUndefined for a zero divisor and for MINV / −1, otherwise `wrap(trunc(x / y))`. -/
def execCheckedDiv (ty : Ty) (a b : Word) (s : State) : Host.Outcome State Fault Refusal :=
  let x := operand s ty a
  let y := operand s ty b
  if divisionUndefined ty.signed x y then raise .checkedDiv ty .divisionUndefined s
  else respond .checkedDiv ty (wrap (width s.config ty) ((val ty.signed x).tdiv (val ty.signed y))) s

end Sys2Proof.Machine
end

