-- ==== Sys2Proof/Machine/Bitwise.lean ====
section
/-! DEFINITION. Bitwise operators and shifts: OR, AND, XOR, NOT, SHL, SHR (41_bitwise_and_shift.md). -/

namespace Sys2Proof.Machine

/-- OR (R120): `r[i] = a[i] or b[i]`. -/
def execOr (ty : Ty) (a b : Word) (s : State) : Host.Outcome State Fault Refusal :=
  respond .or ty (operand s ty a ||| operand s ty b) s

/-- AND (R121): `r[i] = a[i] and b[i]`. -/
def execAnd (ty : Ty) (a b : Word) (s : State) : Host.Outcome State Fault Refusal :=
  respond .and ty (operand s ty a &&& operand s ty b) s

/-- XOR (R122): `r[i] = a[i] xor b[i]`. -/
def execXor (ty : Ty) (a b : Word) (s : State) : Host.Outcome State Fault Refusal :=
  respond .xor ty (operand s ty a ^^^ operand s ty b) s

/-- NOT (R123): `r[i] = 1 − a[i]` over the W bits of the type. -/
def execNot (ty : Ty) (a : Word) (s : State) : Host.Outcome State Fault Refusal :=
  respond .not ty (~~~ operand s ty a) s

/-- SHL (R124): ShiftRange when n >= W, otherwise `wrap(u(a) · 2^n)`. -/
def execShl (ty : Ty) (a : Word) (n : BitVec 32) (s : State) : Host.Outcome State Fault Refusal :=
  let w := width s.config ty
  if shiftOutOfRange w n.toNat then raise .shl ty .shiftRange s
  else respond .shl ty (wrap w ((operand s ty a).toNat * 2 ^ n.toNat)) s

/-- SHR (R125): ShiftRange when n >= W, otherwise `wrap(val(a) div 2^n)` with floor division, so arithmetic for signed types
and logical for unsigned ones (D14). -/
def execShr (ty : Ty) (a : Word) (n : BitVec 32) (s : State) : Host.Outcome State Fault Refusal :=
  let w := width s.config ty
  if shiftOutOfRange w n.toNat then raise .shr ty .shiftRange s
  else respond .shr ty (wrap w ((val ty.signed (operand s ty a)).fdiv (2 ^ n.toNat))) s

end Sys2Proof.Machine
end

