-- ==== Sys2Proof/Machine/Constants.lean ====
section
/-! DEFINITION. Constants and sign classification: MIN, MAX, BITS, ABS, SIGNUM, IS_POSITIVE, IS_NEGATIVE
(40_constants_and_sign.md). -/

namespace Sys2Proof.Machine

/-- MIN (R100): `respond Ok(wrap(MINV))`. -/
def execMin (ty : Ty) (s : State) : Host.Outcome State Fault Refusal :=
  let w := width s.config ty
  respond .min ty (wrap w (minv ty.signed w)) s

/-- MAX (R101): `respond Ok(wrap(MAXV))`. -/
def execMax (ty : Ty) (s : State) : Host.Outcome State Fault Refusal :=
  let w := width s.config ty
  respond .max ty (wrap w (maxv ty.signed w)) s

/-- BITS (R102): `respond Ok(wrap(W))`. -/
def execBits (ty : Ty) (s : State) : Host.Outcome State Fault Refusal :=
  let w := width s.config ty
  respond .bits ty (wrap w w) s

/-- ABS (R103): `wrap(|v|)`; the MIN pattern of a signed type gives itself (D15). -/
def execAbs (ty : Ty) (a : Word) (s : State) : Host.Outcome State Fault Refusal :=
  let v := val ty.signed (operand s ty a)
  respond .abs ty (wrap (width s.config ty) v.natAbs) s

/-- SIGNUM (R104): `wrap(1)`, `wrap(0)` or `wrap(−1)` by the sign of the value. -/
def execSignum (ty : Ty) (a : Word) (s : State) : Host.Outcome State Fault Refusal :=
  let v := val ty.signed (operand s ty a)
  respond .signum ty (wrap (width s.config ty) (if 0 < v then 1 else if v = 0 then 0 else -1)) s

/-- IS_POSITIVE (R105): the boolean result of `val(a) > 0`. -/
def execIsPositive (ty : Ty) (a : Word) (s : State) : Host.Outcome State Fault Refusal :=
  respond .isPositive ty (ofBool (width s.config ty) (decide (0 < val ty.signed (operand s ty a)))) s

/-- IS_NEGATIVE (R106): the boolean result of `val(a) < 0`. -/
def execIsNegative (ty : Ty) (a : Word) (s : State) : Host.Outcome State Fault Refusal :=
  respond .isNegative ty (ofBool (width s.config ty) (decide (val ty.signed (operand s ty a) < 0))) s

end Sys2Proof.Machine
end

