-- ==== Sys2Proof/Machine/Counts.lean ====
section
/-! DEFINITION. Population and zero counts: COUNT_ONES, COUNT_ZEROS, LEADING_ZEROS, TRAILING_ZEROS (42_counts.md). Every
result is a count result of R13, in the request's own type. -/

namespace Sys2Proof.Machine

/-- COUNT_ONES (R140): the number of i in 0..W−1 with `a[i] = 1`. -/
def execCountOnes (ty : Ty) (a : Word) (s : State) : Host.Outcome State Fault Refusal :=
  let w := width s.config ty
  respond .countOnes ty (wrap w ((List.range w).countP (fun i => (operand s ty a).getLsbD i))) s

/-- COUNT_ZEROS (R141): the number of i in 0..W−1 with `a[i] = 0`. -/
def execCountZeros (ty : Ty) (a : Word) (s : State) : Host.Outcome State Fault Refusal :=
  let w := width s.config ty
  respond .countZeros ty (wrap w ((List.range w).countP (fun i => !(operand s ty a).getLsbD i))) s

/-- LEADING_ZEROS (R142): W for `zero`, otherwise W − 1 − (the largest i with `a[i] = 1`). -/
def execLeadingZeros (ty : Ty) (a : Word) (s : State) : Host.Outcome State Fault Refusal :=
  let w := width s.config ty
  let k := match highestSet (operand s ty a) w with
    | none => w
    | some i => w - 1 - i
  respond .leadingZeros ty (wrap w k) s

/-- TRAILING_ZEROS (R143): W for `zero`, otherwise the smallest i with `a[i] = 1`. -/
def execTrailingZeros (ty : Ty) (a : Word) (s : State) : Host.Outcome State Fault Refusal :=
  let w := width s.config ty
  let k := match lowestSet (operand s ty a) with
    | none => w
    | some i => i
  respond .trailingZeros ty (wrap w k) s

end Sys2Proof.Machine
end

