-- ==== Sys2Proof/Machine/Power.lean ====
section
/-! DEFINITION. Exponentiation and its overflow detector: POW, CHECKED_POW (46_power.md). -/

namespace Sys2Proof.Machine

/-- POW (R231): `wrap(val(a)^n)`, for every n; overflow wraps and is not reported. -/
def execPow (ty : Ty) (a : Word) (n : BitVec 32) (s : State) : Host.Outcome State Fault Refusal :=
  respond .pow ty (powWrap (operand s ty a) n) s

/-- CHECKED_POW (R232): `wrap(z)` when the mathematical power z is in range, ArithmeticOverflow otherwise (R233). -/
def execCheckedPow (ty : Ty) (a : Word) (n : BitVec 32) (s : State) : Host.Outcome State Fault Refusal :=
  let w := width s.config ty
  match powerInRange ty.signed w (val ty.signed (operand s ty a)) n.toNat with
  | some z => respond .checkedPow ty (wrap w z) s
  | none => raise .checkedPow ty .arithmeticOverflow s

end Sys2Proof.Machine
end

