-- ==== Sys2Proof/Machine/Radix.lean ====
section
/-! DEFINITION. The radix digit mapper and string parsing: DIGIT, FROM_STR_RADIX (45_radix.md). -/

namespace Sys2Proof.Machine

/-- DIGIT (R211): `wrap(dig(c))`, or ParseFormatError when the character is not a digit below the radix. -/
def execDigit (ty : Ty) (c : Byte) (radix : BitVec 6) (s : State) : Host.Outcome State Fault Refusal :=
  match digitBelow radix.toNat c with
  | some d => respond .digit ty (wrap (width s.config ty) d) s
  | none => raise .digit ty .parseFormatError s

/-- FROM_STR_RADIX (R213). -/
def execFromStrRadix (ty : Ty) (str : List Byte) (radix : BitVec 6) (s : State) :
    Host.Outcome State Fault Refusal :=
  finish .fromStrRadix ty (parseAnswer ty.signed (width s.config ty) radix.toNat str) s

end Sys2Proof.Machine
end

