-- ==== Sys2Proof/Machine/Rotate.lean ====
section
/-! DEFINITION. Rotation, byte swap, bit reversal and byte-order conversion: ROTATE_LEFT, ROTATE_RIGHT, SWAP_BYTES,
REVERSE_BITS, TO_LE, FROM_LE, TO_BE, FROM_BE (43_rotate_swap_endian.md). None has a failure cause (R163) and none depends on
signedness. -/

namespace Sys2Proof.Machine

/-- ROTATE_LEFT (R160): `res[i] = a[(i − r) mod W]`, r = n mod W. -/
def execRotateLeft (ty : Ty) (a : Word) (n : BitVec 32) (s : State) : Host.Outcome State Fault Refusal :=
  let w := width s.config ty
  let r := n.toNat % w
  respond .rotateLeft ty (ofBits w (fun i => (operand s ty a).getLsbD ((i + (w - r)) % w))) s

/-- ROTATE_RIGHT (R161): `res[i] = a[(i + r) mod W]`, r = n mod W. -/
def execRotateRight (ty : Ty) (a : Word) (n : BitVec 32) (s : State) : Host.Outcome State Fault Refusal :=
  let w := width s.config ty
  let r := n.toNat % w
  respond .rotateRight ty (ofBits w (fun i => (operand s ty a).getLsbD ((i + r) % w))) s

/-- SWAP_BYTES (R164). -/
def execSwapBytes (ty : Ty) (a : Word) (s : State) : Host.Outcome State Fault Refusal :=
  respond .swapBytes ty (swapBytes (operand s ty a)) s

/-- REVERSE_BITS (R166): `res[i] = a[W−1−i]`. -/
def execReverseBits (ty : Ty) (a : Word) (s : State) : Host.Outcome State Fault Refusal :=
  let w := width s.config ty
  respond .reverseBits ty (ofBits w (fun i => (operand s ty a).getLsbD (w - 1 - i))) s

/-- TO_LE (R168): `le(a)` of R167. -/
def execToLe (ty : Ty) (a : Word) (s : State) : Host.Outcome State Fault Refusal :=
  respond .toLe ty (leOrder s.config.nativeOrder (operand s ty a)) s

/-- FROM_LE (R169): `le(a)` of R167. -/
def execFromLe (ty : Ty) (a : Word) (s : State) : Host.Outcome State Fault Refusal :=
  respond .fromLe ty (leOrder s.config.nativeOrder (operand s ty a)) s

/-- TO_BE (R170): `be(a)` of R167. -/
def execToBe (ty : Ty) (a : Word) (s : State) : Host.Outcome State Fault Refusal :=
  respond .toBe ty (beOrder s.config.nativeOrder (operand s ty a)) s

/-- FROM_BE (R171): `be(a)` of R167. -/
def execFromBe (ty : Ty) (a : Word) (s : State) : Host.Outcome State Fault Refusal :=
  respond .fromBe ty (beOrder s.config.nativeOrder (operand s ty a)) s

end Sys2Proof.Machine
end

