-- ==== Sys2Proof/Machine/Dispatch.lean ====
section
/-! DEFINITION. The dispatch: one arm per row of spec/opcode_table.json, each one call of that instruction's meaning. -/

namespace Sys2Proof.Machine

def exec (i : Instr) (s : State) : Host.Outcome State Fault Refusal :=
  match i with
  | .min ty => Sys2Proof.Machine.execMin ty s
  | .max ty => Sys2Proof.Machine.execMax ty s
  | .bits ty => Sys2Proof.Machine.execBits ty s
  | .abs ty a => Sys2Proof.Machine.execAbs ty a s
  | .signum ty a => Sys2Proof.Machine.execSignum ty a s
  | .isPositive ty a => Sys2Proof.Machine.execIsPositive ty a s
  | .isNegative ty a => Sys2Proof.Machine.execIsNegative ty a s
  | .or ty a b => Sys2Proof.Machine.execOr ty a b s
  | .and ty a b => Sys2Proof.Machine.execAnd ty a b s
  | .xor ty a b => Sys2Proof.Machine.execXor ty a b s
  | .not ty a => Sys2Proof.Machine.execNot ty a s
  | .shl ty a n => Sys2Proof.Machine.execShl ty a n s
  | .shr ty a n => Sys2Proof.Machine.execShr ty a n s
  | .countOnes ty a => Sys2Proof.Machine.execCountOnes ty a s
  | .countZeros ty a => Sys2Proof.Machine.execCountZeros ty a s
  | .leadingZeros ty a => Sys2Proof.Machine.execLeadingZeros ty a s
  | .trailingZeros ty a => Sys2Proof.Machine.execTrailingZeros ty a s
  | .rotateLeft ty a n => Sys2Proof.Machine.execRotateLeft ty a n s
  | .rotateRight ty a n => Sys2Proof.Machine.execRotateRight ty a n s
  | .swapBytes ty a => Sys2Proof.Machine.execSwapBytes ty a s
  | .reverseBits ty a => Sys2Proof.Machine.execReverseBits ty a s
  | .toLe ty a => Sys2Proof.Machine.execToLe ty a s
  | .fromLe ty a => Sys2Proof.Machine.execFromLe ty a s
  | .toBe ty a => Sys2Proof.Machine.execToBe ty a s
  | .fromBe ty a => Sys2Proof.Machine.execFromBe ty a s
  | .add ty a b => Sys2Proof.Machine.execAdd ty a b s
  | .sub ty a b => Sys2Proof.Machine.execSub ty a b s
  | .neg ty a => Sys2Proof.Machine.execNeg ty a s
  | .mul ty a b => Sys2Proof.Machine.execMul ty a b s
  | .checkedDiv ty a b => Sys2Proof.Machine.execCheckedDiv ty a b s
  | .pow ty a n => Sys2Proof.Machine.execPow ty a n s
  | .checkedPow ty a n => Sys2Proof.Machine.execCheckedPow ty a n s
  | .digit ty c radix => Sys2Proof.Machine.execDigit ty c radix s
  | .fromStrRadix ty str radix => Sys2Proof.Machine.execFromStrRadix ty str radix s

end Sys2Proof.Machine
end

