-- ==== Sys2Proof/Machine/Service.lean ====
section
/-! DEFINITION. How the engine serves one request: which request it takes, and the answer to it (R16, R26, R75, R79). -/

namespace Sys2Proof.Machine

/-- The request the engine answers next: the oldest one not yet answered (R16, R26). -/
def State.nextRequest (s : State) : Option Frame := s.pending.head?

/-- Answer the request f, already taken from the queue: the response of the operation it legally encodes, or IllegalRequest
(R75, R79). -/
def answerFrame (f : Frame) (s : State) : Host.Outcome State Fault Refusal :=
  match decode s.config f with
  | .ok i => exec i s
  | .error _ => .next (s.emit (illegalResponse f))

end Sys2Proof.Machine
end

