-- ==== Sys2Proof/Machine/Step.lean ====
section
/-! DEFINITION. The engine's step (R16, R26): take the oldest request not yet answered, compute its outcome, emit the
response. -/

namespace Sys2Proof.Machine

/-- One step of the engine. A configuration outside R7 is refused (V11, log 4); an idle engine stays as it is (R268, log 3);
otherwise the oldest request is taken and answered (R16, R26). -/
def step (s : State) : Host.Outcome State Fault Refusal :=
  if s.config.legal then
    match s.nextRequest with
    | none => .next s
    | some f => answerFrame f s.takeRequest
  else .refused .configOutOfRange

/-- The state with the frame of a table word as its oldest pending request, so that the next step answers exactly it; nothing
else changes. It stands for the requester presenting the frame (log 7, log 8). -/
def State.withFetchWord (s : State) (nbits w : Nat) : State :=
  { s with pending := frameOfBits s.config nbits w :: s.pending }

end Sys2Proof.Machine
end

