-- ==== Sys2Proof/Machine/Assembler.lean ====
section
/-! DEFINITION. The requester's assembler (R85 to R87, R89 of 30_encoding.md): the syntax of one request line, its literals,
the pseudo-instruction `from_str`, the frame a line stands for, and the response notation. The engine never sees any of it
(D33); what the syntax leaves open is in log 13. -/

namespace Sys2Proof.Machine

/-! ## Lines -/

/-- A value operand of a line (R86). -/
inductive ValueLit where
  /-- a decimal integer -/
  | dec (z : Int)
  /-- a raw pattern `0x…` -/
  | hex (k : Nat)
  /-- `MIN` -/
  | minLit
  /-- `MAX` -/
  | maxLit
  /-- a binding `%k` (R88) -/
  | bind (k : Nat)
  deriving DecidableEq, Repr

/-- A count operand of a line (R86). -/
inductive CountLit where
  | num (k : Nat)
  | bind (k : Nat)
  deriving DecidableEq, Repr

/-- The operands of a line, by format (R85). Radix and character are numbers as written, so that an illegal radix can be
written (R86). -/
inductive LineOperands where
  | nothing
  | one (a : ValueLit)
  | two (a b : ValueLit)
  | counted (a : ValueLit) (n : CountLit)
  | character (c radix : Nat)
  | string (str : List Byte) (radix : Nat)
  deriving DecidableEq, Repr

/-- A request line: mnemonic, type, operands (R85). -/
structure Line where
  op : Opcode
  ty : Ty
  operands : LineOperands
  deriving DecidableEq, Repr

/-- Why a line gives no frame. -/
inductive AsmError where
  /-- no mnemonic of R76 and not `from_str` -/
  | unknownMnemonic
  /-- none of the ten types of R85 -/
  | unknownType
  /-- the line does not have the form of R85 -/
  | malformed
  /-- a literal that does not fit (R86) -/
  | literalOutOfRange
  /-- `%k` with k not below the line's number (R88) -/
  | bindingAhead
  /-- `%k` as a value operand and request k had another type (R88) -/
  | bindingType
  /-- `%k` and response k was a failure: the script stops at that response (R88) -/
  | bindingFailed
  /-- `%k` as a count and the value is 2^32 or more (R88) -/
  | bindingTooLarge
  /-- the engine did not answer: its configuration is outside R7 -/
  | noResponse
  deriving DecidableEq, Repr

/-! ## Bindings -/

/-- The request numbers a value operand names (R88). -/
def ValueLit.bindings : ValueLit → List Nat
  | .dec _ => []
  | .hex _ => []
  | .minLit => []
  | .maxLit => []
  | .bind k => [k]

/-- The request numbers a count operand names (R88). -/
def CountLit.bindings : CountLit → List Nat
  | .num _ => []
  | .bind k => [k]

/-- The request numbers a line names (R88). -/
def Line.bindings (l : Line) : List Nat :=
  match l.operands with
  | .nothing => []
  | .one a => a.bindings
  | .two a b => a.bindings ++ b.bindings
  | .counted a n => a.bindings ++ n.bindings
  | .character _ _ => []
  | .string _ _ => []

/-- Response k is needed by one of these lines: some line names `%k` (R88; log 19). -/
def neededBy (ls : List Line) (k : Nat) : Bool := ls.any (fun l => l.bindings.contains k)

/-! ## Names -/

/-- The mnemonic of R76 in lower case (R85). -/
def opcodeName : Opcode → String
  | .min => "min"
  | .max => "max"
  | .bits => "bits"
  | .abs => "abs"
  | .signum => "signum"
  | .isPositive => "is_positive"
  | .isNegative => "is_negative"
  | .or => "or"
  | .and => "and"
  | .xor => "xor"
  | .not => "not"
  | .shl => "shl"
  | .shr => "shr"
  | .countOnes => "count_ones"
  | .countZeros => "count_zeros"
  | .leadingZeros => "leading_zeros"
  | .trailingZeros => "trailing_zeros"
  | .rotateLeft => "rotate_left"
  | .rotateRight => "rotate_right"
  | .swapBytes => "swap_bytes"
  | .reverseBits => "reverse_bits"
  | .toLe => "to_le"
  | .fromLe => "from_le"
  | .toBe => "to_be"
  | .fromBe => "from_be"
  | .add => "add"
  | .sub => "sub"
  | .neg => "neg"
  | .mul => "mul"
  | .checkedDiv => "checked_div"
  | .pow => "pow"
  | .checkedPow => "checked_pow"
  | .digit => "digit"
  | .fromStrRadix => "from_str_radix"

/-- The name of a type (R64, R85). -/
def tyName (ty : Ty) : String :=
  match ty.signed, ty.wsel with
  | false, .w8 => "u8"
  | false, .w16 => "u16"
  | false, .w32 => "u32"
  | false, .w64 => "u64"
  | false, .ptr => "usize"
  | true, .w8 => "i8"
  | true, .w16 => "i16"
  | true, .w32 => "i32"
  | true, .w64 => "i64"
  | true, .ptr => "isize"

/-- The ten types (R6). -/
def allTypes : List Ty :=
  [⟨true, .w8⟩, ⟨true, .w16⟩, ⟨true, .w32⟩, ⟨true, .w64⟩, ⟨true, .ptr⟩,
   ⟨false, .w8⟩, ⟨false, .w16⟩, ⟨false, .w32⟩, ⟨false, .w64⟩, ⟨false, .ptr⟩]

/-! ## From a line to a frame -/

/-- What the requester remembers of a request it has sent: its type and its response (R88). -/
structure Sent where
  ty : Ty
  response : Response
  deriving DecidableEq, Repr

/-- A response the script may use: `%k` names an earlier request, and its response was OK (R88). -/
def boundValue (sent : List Sent) (k : Nat) : Except AsmError Sent :=
  match sent[k]? with
  | none => .error .bindingAhead
  | some p => if p.response.cause == 0#4 then .ok p else .error .bindingFailed

/-- The canonical word a value operand denotes (R86, R88). -/
def resolveValue (cfg : Config) (ty : Ty) (sent : List Sent) (v : ValueLit) : Except AsmError Word :=
  let w := width cfg ty
  match v with
  | .dec z => if inRange ty.signed w z then .ok (zext64 (wrap w z)) else .error .literalOutOfRange
  | .hex k => if k < 2 ^ w then .ok (BitVec.ofNat 64 k) else .error .literalOutOfRange
  | .minLit => .ok (zext64 (wrap w (minv ty.signed w)))
  | .maxLit => .ok (zext64 (wrap w (maxv ty.signed w)))
  | .bind k =>
    match boundValue sent k with
    | .ok p => if p.ty = ty then .ok p.response.word1 else .error .bindingType
    | .error e => .error e

/-- The count a count operand denotes (R86, R88). -/
def resolveCount (sent : List Sent) (n : CountLit) : Except AsmError (BitVec 32) :=
  match n with
  | .num k => if k < 2 ^ 32 then .ok (BitVec.ofNat 32 k) else .error .literalOutOfRange
  | .bind k =>
    match boundValue sent k with
    | .ok p =>
      if p.response.word1.toNat < 2 ^ 32 then .ok (BitVec.ofNat 32 p.response.word1.toNat)
      else .error .bindingTooLarge
    | .error e => .error e

/-- The frame a line stands for, its bindings resolved against the requests already sent (R85, R86, R88). DESIGN CHOICE
(log 18): R86 gives a string literal no bound, so a string longer than `STRMAX` is assembled, for the engine to answer with
IllegalRequest (K9), and only one whose length does not fit the 32 bits of `n` is refused. -/
def assemble (cfg : Config) (sent : List Sent) (l : Line) : Except AsmError Frame :=
  match l.op.format, l.operands with
  | .N, .nothing => .ok [headerWord l.op.code l.ty 0#6 0#32, 0#64, 0#64]
  | .U, .one a =>
    match resolveValue cfg l.ty sent a with
    | .ok x => .ok [headerWord l.op.code l.ty 0#6 0#32, x, 0#64]
    | .error e => .error e
  | .VV, .two a b =>
    match resolveValue cfg l.ty sent a, resolveValue cfg l.ty sent b with
    | .ok x, .ok y => .ok [headerWord l.op.code l.ty 0#6 0#32, x, y]
    | .error e, _ => .error e
    | .ok _, .error e => .error e
  | .VC, .counted a n =>
    match resolveValue cfg l.ty sent a, resolveCount sent n with
    | .ok x, .ok k => .ok [headerWord l.op.code l.ty 0#6 k, x, 0#64]
    | .error e, _ => .error e
    | .ok _, .error e => .error e
  | .D, .character c radix =>
    if c ≤ 255 ∧ radix ≤ 63 then
      .ok [headerWord l.op.code l.ty (BitVec.ofNat 6 radix) (BitVec.ofNat 32 c), 0#64, 0#64]
    else .error .literalOutOfRange
  | .S, .string str radix =>
    if str.length < 2 ^ 32 ∧ radix ≤ 63 then .ok (stringFrame l.op l.ty str (BitVec.ofNat 6 radix))
    else .error .literalOutOfRange
  | _, _ => .error .malformed

/-- The pseudo-instruction `from_str.<type> str` (R87, R214): FROM_STR_RADIX with radix 10. -/
def fromStrLine (ty : Ty) (str : List Byte) : Line where
  op := .fromStrRadix
  ty := ty
  operands := .string str 10

/-! ## From text to a line -/

/-- A blank between the parts of a line. -/
def isBlank (c : Char) : Bool := c == ' ' || c == '\t'

/-- The end of a number, name or binding in a line. -/
def isDelimiter (c : Char) : Bool := isBlank c || c == ',' || c == ';'

/-- Drop leading blanks. -/
def skipBlanks (cs : List Char) : List Char := cs.dropWhile isBlank

/-- The value of a decimal digit string. -/
def decimalOf : List Char → Option Nat
  | [] => none
  | c :: cs => (c :: cs).foldl
      (fun acc d => match acc with
        | some m => if '0' ≤ d ∧ d ≤ '9' then some (m * 10 + (d.toNat - 48)) else none
        | none => none) (some 0)

/-- The value of a hexadecimal digit character, either case. -/
def hexDigitOf (d : Char) : Option Nat :=
  if d.toNat < 256 then digitBelow 16 (BitVec.ofNat 8 d.toNat) else none

/-- The value of a hexadecimal digit string. -/
def hexOf : List Char → Option Nat
  | [] => none
  | c :: cs => (c :: cs).foldl
      (fun acc d => match acc, hexDigitOf d with
        | some m, some k => some (m * 16 + k)
        | _, _ => none) (some 0)

/-- A decimal or `0x` number (R86). -/
def numberOf : List Char → Option Nat
  | '0' :: 'x' :: hs => hexOf hs
  | cs => decimalOf cs

/-- A value operand's text (R86, R88). -/
def valueOf : List Char → Option ValueLit
  | ['M', 'I', 'N'] => some .minLit
  | ['M', 'A', 'X'] => some .maxLit
  | '%' :: cs => (decimalOf cs).map .bind
  | '0' :: 'x' :: hs => (hexOf hs).map .hex
  | '-' :: cs => (decimalOf cs).map (fun k => .dec (-(k : Int)))
  | cs => (decimalOf cs).map (fun k => .dec (k : Int))

/-- A count operand's text (R86, R88). -/
def countOf : List Char → Option CountLit
  | '%' :: cs => (decimalOf cs).map .bind
  | cs => (numberOf cs).map .num

/-- Read a delimited word with a reader of its text, and leave the rest of the line. -/
def readWord {α : Type} (read : List Char → Option α) (cs : List Char) : Option (α × List Char) :=
  let cs := skipBlanks cs
  match read (cs.takeWhile (fun c => !isDelimiter c)) with
  | some v => some (v, cs.dropWhile (fun c => !isDelimiter c))
  | none => none

/-- The comma between two operands. -/
def readComma (cs : List Char) : Option (List Char) :=
  match skipBlanks cs with
  | ',' :: rest => some rest
  | _ => none

/-- Nothing but blanks and a comment is left (R85). -/
def atEnd (cs : List Char) : Bool :=
  match skipBlanks cs with
  | [] => true
  | c :: _ => c == ';'

/-- A character operand: a printable character between single quotes, or a number (R86). -/
def readCharacter (cs : List Char) : Option (Nat × List Char) :=
  match skipBlanks cs with
  | '\'' :: c :: '\'' :: rest => if 32 ≤ c.toNat ∧ c.toNat ≤ 126 then some (c.toNat, rest) else none
  | cs => readWord numberOf cs

/-- The bytes of a string literal from behind its opening quote, and the text behind its closing quote (R86). -/
def scanString : List Char → Option (List Byte × List Char)
  | [] => none
  | '"' :: rest => some ([], rest)
  | '\\' :: '\\' :: rest => (scanString rest).map (fun p => (0x5C#8 :: p.1, p.2))
  | '\\' :: '"' :: rest => (scanString rest).map (fun p => (0x22#8 :: p.1, p.2))
  | '\\' :: 'x' :: h :: l :: rest =>
    match hexOf [h, l] with
    | some k => (scanString rest).map (fun p => (BitVec.ofNat 8 k :: p.1, p.2))
    | none => none
  | c :: rest =>
    if c == '\\' then none
    else if c.toNat < 128 then (scanString rest).map (fun p => (BitVec.ofNat 8 c.toNat :: p.1, p.2)) else none

/-- A string operand (R86). -/
def readString (cs : List Char) : Option (List Byte × List Char) :=
  match skipBlanks cs with
  | '"' :: rest => scanString rest
  | _ => none

/-- The operands of a format, and the rest of the line (R85). -/
def readOperands (fmt : Format) (cs : List Char) : Option (LineOperands × List Char) :=
  match fmt with
  | .N => some (.nothing, cs)
  | .U => (readWord valueOf cs).map (fun p => (.one p.1, p.2))
  | .VV => do
    let (a, cs) ← readWord valueOf cs
    let cs ← readComma cs
    let (b, cs) ← readWord valueOf cs
    return (.two a b, cs)
  | .VC => do
    let (a, cs) ← readWord valueOf cs
    let cs ← readComma cs
    let (n, cs) ← readWord countOf cs
    return (.counted a n, cs)
  | .D => do
    let (c, cs) ← readCharacter cs
    let cs ← readComma cs
    let (radix, cs) ← readWord decimalOf cs
    return (.character c radix, cs)
  | .S => do
    let (str, cs) ← readString cs
    let cs ← readComma cs
    let (radix, cs) ← readWord decimalOf cs
    return (.string str radix, cs)

/-- A line from the operands read for it. -/
def finishLine (op : Opcode) (ty : Ty) (read : Option (LineOperands × List Char)) : Except AsmError Line :=
  match read with
  | some (ops, rest) => if atEnd rest then .ok { op := op, ty := ty, operands := ops } else .error .malformed
  | none => .error .malformed

/-- One line of text (R85): a request, or `none` for a blank or comment line. -/
def parseLine (text : List Char) : Except AsmError (Option Line) :=
  if atEnd text then .ok none
  else
    let cs := skipBlanks text
    let mnemonic := cs.takeWhile (fun c => c != '.' && !isDelimiter c)
    match cs.dropWhile (fun c => c != '.' && !isDelimiter c) with
    | '.' :: rest =>
      let tyText := rest.takeWhile (fun c => !isDelimiter c)
      let operandText := rest.dropWhile (fun c => !isDelimiter c)
      match allTypes.find? (fun t => (tyName t).toList == tyText) with
      | none => .error .unknownType
      | some ty =>
        if mnemonic == "from_str".toList then
          match readString operandText with
          | some (str, rest) => if atEnd rest then .ok (some (fromStrLine ty str)) else .error .malformed
          | none => .error .malformed
        else
          match Opcode.all.find? (fun o => (opcodeName o).toList == mnemonic) with
          | none => .error .unknownMnemonic
          | some op => (finishLine op ty (readOperands op.format operandText)).map some
    | _ => .error .malformed

/-! ## The response notation of R89 -/

/-- The name of a failure cause (R250). -/
def Cause.name : Cause → String
  | .divisionUndefined => "DivisionUndefined"
  | .parseFormatError => "ParseFormatError"
  | .parseRangeError => "ParseRangeError"
  | .arithmeticOverflow => "ArithmeticOverflow"
  | .shiftRange => "ShiftRange"
  | .illegalRequest => "IllegalRequest"

/-- The W/4 upper-case hexadecimal digits of a pattern, the most significant first. -/
def hexText (digits k : Nat) : List Char :=
  (List.range digits).reverse.map (fun i => (Nat.digitChar (k / 16 ^ i % 16)).toUpper)

/-- A number in decimal, a negative one behind a minus sign. -/
def decimalText (z : Int) : List Char :=
  match z with
  | .ofNat k => Nat.toDigits 10 k
  | .negSucc k => '−' :: Nat.toDigits 10 (k + 1)

/-- The answer a requester reads from a response to a request of type ty; `none` for a cause code that is never produced
(R71, R72, R250). -/
def readResponse (cfg : Config) (ty : Ty) (r : Response) : Option (Answer (width cfg ty)) :=
  if r.cause == 0#4 then some (.ok (pattern (width cfg ty) r.word1))
  else (Cause.ofCode r.cause).map .err

/-- `Ok(0xPATTERN = decimal)` or `Err(Cause)` (R89). -/
def answerText (cfg : Config) (ty : Ty) (ans : Answer (width cfg ty)) : List Char :=
  match ans with
  | .ok p =>
    "Ok(0x".toList ++ hexText (width cfg ty / 4) p.toNat ++ " = ".toList ++ decimalText (val ty.signed p) ++ [')']
  | .err c => "Err(".toList ++ c.name.toList ++ [')']

end Sys2Proof.Machine
end

