-- ==== Sys2Proof/Machine/Environment.lean ====
section
/-! DEFINITION. The environment's side (R16, R284): a requester that presents frames and asserts reset at any point between
the engine's steps (R281, V9), and what a run of such events observes (R18, R290). -/

namespace Sys2Proof.Machine

/-- What can happen next: the requester presents a frame (R60), the reset input is asserted (R280), or the engine takes its
step (R16). In which order they happen is the environment's. -/
inductive Event where
  | present (f : Frame)
  | reset
  | work
  deriving DecidableEq, Repr

/-- The effect of one event. -/
def applyEvent (e : Event) (s : State) : Host.Outcome State Fault Refusal :=
  match e with
  | .present f => .next (s.accept f)
  | .reset => .next s.applyReset
  | .work => step s

/-- A sequence of events, stopping at the first outcome that is not a next state. -/
def runEvents : List Event → State → Host.Outcome State Fault Refusal
  | [], s => .next s
  | e :: es, s =>
    match applyEvent e s with
    | .next t => runEvents es t
    | .fault r => .fault r
    | .refused r => .refused r

/-- The frames a sequence of events presents, in order (R290). -/
def presented : List Event → List Frame
  | [] => []
  | .present f :: es => f :: presented es
  | .reset :: es => presented es
  | .work :: es => presented es

/-- The sequence has no reset in it (R290). -/
def noReset : List Event → Bool
  | [] => true
  | .present _ :: es => noReset es
  | .reset :: _ => false
  | .work :: es => noReset es

/-- One request sent to an engine and answered by its next step: the state after it and the response, when the engine was
idle and its configuration legal (R284). -/
def sendRequest (f : Frame) (s : State) : Option (State × Response) :=
  match step (s.accept f) with
  | .next t =>
    match t.emitted.getLast? with
    | some r => some (t, r)
    | none => none
  | .fault _ => none
  | .refused _ => none

end Sys2Proof.Machine
end

