-- ==== Sys2Proof/Machine/Script.lean ====
section
/-! DEFINITION. Scripts with bindings (R88, R286): the requester's ordered list of request lines, each encoded only once the
responses it names have arrived, and stopped at a needed response that was a failure. -/

namespace Sys2Proof.Machine

/-- What a script leaves: the requests sent with their responses, the engine's state, and why it stopped early, if it did. -/
structure ScriptRun where
  sent : List Sent
  final : State
  stopped : Option AsmError
  deriving DecidableEq, Repr

/-- Run a script's lines on an engine, one request at a time, behind the requests already sent (R88). A response that is a
failure and that a later line needs is the script's last: no line behind it is sent (log 19). Other lines that do not assemble
stop the script too (log 14). -/
def runScript : List Line → List Sent → State → ScriptRun
  | [], sent, s => { sent := sent, final := s, stopped := none }
  | l :: ls, sent, s =>
    match assemble s.config sent l with
    | .error e => { sent := sent, final := s, stopped := some e }
    | .ok f =>
      match sendRequest f s with
      | some (t, r) =>
        let sent' := sent ++ [{ ty := l.ty, response := r }]
        if r.cause != 0#4 && neededBy ls sent.length then { sent := sent', final := t, stopped := some .bindingFailed }
        else runScript ls sent' t
      | none => { sent := sent, final := s, stopped := some .noResponse }

end Sys2Proof.Machine
end

