-- ==== Sys2Proof/Safety.lean ====
section
/-! DEFINITION. What counts as a safe state of the IOE, and the terms the statements use: which causes an operation may give
(R258), when a response is well formed (R71, R72, V7), and what it means that an instruction answers OK or with a cause. -/

namespace Sys2Proof.Machine

/-- The failure causes an operation can give beyond IllegalRequest: the table of R258. -/
def failureCauses : Opcode → List Cause
  | .shl => [.shiftRange]
  | .shr => [.shiftRange]
  | .checkedDiv => [.divisionUndefined]
  | .checkedPow => [.arithmeticOverflow]
  | .digit => [.parseFormatError]
  | .fromStrRadix => [.parseFormatError, .parseRangeError]
  | .min => []
  | .max => []
  | .bits => []
  | .abs => []
  | .signum => []
  | .isPositive => []
  | .isNegative => []
  | .or => []
  | .and => []
  | .xor => []
  | .not => []
  | .countOnes => []
  | .countZeros => []
  | .leadingZeros => []
  | .trailingZeros => []
  | .rotateLeft => []
  | .rotateRight => []
  | .swapBytes => []
  | .reverseBits => []
  | .toLe => []
  | .fromLe => []
  | .toBe => []
  | .fromBe => []
  | .add => []
  | .sub => []
  | .neg => []
  | .mul => []
  | .pow => []

/-- The type a 4-bit type code stands for, `none` when its `wsel` is reserved (R64). -/
def typeOfCode (code : BitVec 4) : Option Ty :=
  match WidthSel.ofCode (code.extractLsb' 0 3) with
  | some k => some { signed := code.getLsbD 3, wsel := k }
  | none => none

/-- A response frame the engine may emit under a configuration: bits 7:4 and 63:20 of word 0 are zero (R71); an OK response
echoes an opcode and a type and carries a canonical value of that type (R72, R30); a failure carries a zero value word (R72)
and a cause that its operation can give, or IllegalRequest (R258, V7). -/
def Response.wellFormed (cfg : Config) (r : Response) : Bool :=
  r.word0.extractLsb' 4 4 == 0#4 && r.word0.extractLsb' 20 44 == 0#44 &&
  (if r.cause == 0#4 then
    match Opcode.ofCode r.opEcho, typeOfCode r.tyEcho with
    | some _, some ty => canonical (width cfg ty) r.word1
    | _, _ => false
  else
    r.word1 == 0#64 &&
    match Cause.ofCode r.cause with
    | some .illegalRequest => true
    | some c =>
      match Opcode.ofCode r.opEcho, typeOfCode r.tyEcho with
      | some op, some _ => (failureCauses op).contains c
      | _, _ => false
    | none => false)

/-- A safe state: the configuration is in the ranges of R7, and every response emitted so far is well formed. -/
def State.safe (s : State) : Bool := s.config.legal && s.emitted.all (fun r => r.wellFormed s.config)

/-- The command i is encoded by the frame f, and executing it in s emits one response with cause OK, the echo of i's opcode
byte `op` and type, and the pattern p as its value word (R71, R72); nothing else of the state changes. -/
def AnswersOk (i : Instr) (f : Frame) (s : State) (op : BitVec 8) {w : Nat} (p : BitVec w) : Prop :=
  encode i = f ∧
  exec i s = .next { s with
    emitted := s.emitted ++ [{ word0 := 0#44 ++ i.ty.code ++ op ++ 0#8, word1 := p.setWidth 64 }] }

/-- The command i is encoded by the frame f, and executing it in s emits one response with the failure cause of code `cause`,
the echo of i's opcode byte `op` and type, and a zero value word (R71, R72); nothing else of the state changes. -/
def AnswersErr (i : Instr) (f : Frame) (s : State) (op : BitVec 8) (cause : BitVec 4) : Prop :=
  encode i = f ∧
  exec i s = .next { s with
    emitted := s.emitted ++ [{ word0 := 0#44 ++ i.ty.code ++ op ++ 0#4 ++ cause, word1 := 0#64 }] }

/-- The value word of the response to a command, `none` when the response is a failure (R72). -/
def okValue (s : State) (i : Instr) : Option Word :=
  match exec i s with
  | .next t =>
    match t.emitted.getLast? with
    | some r => if r.cause == 0#4 then some r.word1 else none
    | none => none
  | .fault _ => none
  | .refused _ => none

/-- The frame of a command of format N, U, VV or VC (R61, R63): header with `n` in bits 63:32, then A and B. -/
def plainFrame (n : BitVec 32) (ty : Ty) (op : BitVec 8) (a b : Word) : Frame :=
  [n ++ 0#20 ++ ty.code ++ op, a, b]

end Sys2Proof.Machine
end

