-- ==== Sys2Proof/Certificates/Slice0/Obligations.lean ====
section
/-! DEFINITION. The statements for the provers, one definition per statement. OBLIGATIONS.json says which rule each one
formalises, or on which sections it rests. -/

open Sys2Proof Sys2Proof.Machine

/-! ## Encoding and decoding -/

/-- R81: for every command c that a legal frame can encode, of any of the 34 opcodes, `decode(encode(c)) = c`. -/
def Obligations.DecodeOfEncode : Prop :=
  ∀ (cfg : Config) (i : Instr), cfg.legal = true → i.wellFormed cfg = true → decode cfg (encode i) = .ok i

/-- R81: for every legal frame f, `encode(decode(f)) = f`, and the command it encodes is well formed. -/
def Obligations.EncodeOfDecode : Prop :=
  ∀ (cfg : Config) (f : Frame) (i : Instr), decode cfg f = .ok i → encode i = f ∧ i.wellFormed cfg = true

/-- R78: a frame is legal exactly when none of K1 to K11 fails, each spelled out on the words' numbers; a frame for which one
fails is answered with IllegalRequest and the header's echo bits (R71), the operation not evaluated, and a legal one runs the
command it encodes. -/
def Obligations.LegalExactlyWhenChecksPass : Prop :=
  ∀ (s : State) (f : Frame) (rest : List Frame), s.config.legal = true → s.pending = f :: rest →
    let h := (f.headD 0#64).toNat
    let op := h % 2 ^ 8
    let wsel := h / 2 ^ 8 % 2 ^ 3
    let radix := h / 2 ^ 12 % 2 ^ 6
    let rsv := h / 2 ^ 18 % 2 ^ 14
    let n := h / 2 ^ 32
    let a := (f.getD 1 0#64).toNat
    let b := (f.getD 2 0#64).toNat
    let w := if wsel = 0 then 8 else if wsel = 1 then 16 else if wsel = 2 then 32 else if wsel = 3 then 64
      else s.config.ptrw.bits
    let fmt := (Opcode.ofCode (BitVec.ofNat 8 op)).map Opcode.format
    let k1 := f.length < 3
    let k2 := rsv ≠ 0
    let k3 := fmt = none
    let k4 := 5 ≤ wsel
    let k5 := (fmt ∈ [some .N, some .D, some .S] ∧ a ≠ 0) ∨
      (fmt ∈ [some .N, some .U, some .VC, some .D, some .S] ∧ b ≠ 0) ∨
      (fmt ∈ [some .N, some .U, some .VV] ∧ n ≠ 0) ∨
      (fmt ∈ [some .N, some .U, some .VV, some .VC] ∧ radix ≠ 0)
    let k6 := wsel < 5 ∧ ((fmt ∈ [some .U, some .VV, some .VC] ∧ 2 ^ w ≤ a) ∨ (fmt = some .VV ∧ 2 ^ w ≤ b))
    let k7 := fmt = some .D ∧ 2 ^ 8 ≤ n
    let k8 := fmt ∈ [some .D, some .S] ∧ (radix < 2 ∨ 36 < radix)
    let k9 := fmt = some .S ∧ s.config.strmax < n
    let k10 := 3 ≤ f.length ∧ f.length ≠ 3 + (if op = 0x71 then (n + 7) / 8 else 0)
    let k11 := fmt = some .S ∧ n % 8 ≠ 0 ∧ 2 ^ (8 * (n % 8)) ≤ (f.getD (2 + (n + 7) / 8) 0#64).toNat
    ((k1 ∨ k2 ∨ k3 ∨ k4 ∨ k5 ∨ k6 ∨ k7 ∨ k8 ∨ k9 ∨ k10 ∨ k11) →
      step s = .next { s with
        pending := rest
        emitted := s.emitted ++ [{ word0 := BitVec.ofNat 64 (6 + op * 2 ^ 8 + h / 2 ^ 8 % 2 ^ 4 * 2 ^ 16), word1 := 0#64 }] }) ∧
    (¬ (k1 ∨ k2 ∨ k3 ∨ k4 ∨ k5 ∨ k6 ∨ k7 ∨ k8 ∨ k9 ∨ k10 ∨ k11) →
      ∃ i, decode s.config f = .ok i ∧ step s = exec i { s with pending := rest })

/-- R77: a request with one of the 222 reserved opcodes is answered with IllegalRequest whatever its other fields hold. -/
def Obligations.ReservedOpcodeIsIllegal : Prop :=
  ((List.range 256).filter (fun c => (Opcode.ofCode (BitVec.ofNat 8 c)).isNone)).length = 222 ∧
  ∀ (s : State) (f : Frame) (rest : List Frame), s.config.legal = true → s.pending = f :: rest →
    (∀ o : Opcode, o.code ≠ (f.headD 0#64).extractLsb' 0 8) →
    step s = .next { s with
      pending := rest
      emitted := s.emitted ++ [{
        word0 := 0#44 ++ (f.headD 0#64).extractLsb' 8 4 ++ (f.headD 0#64).extractLsb' 0 8 ++ 0x06#8
        word1 := 0#64 }] }

/-- R76: the opcode map, row by row, with its lower-case mnemonics (R85) and formats, and the reserved codes decode to none. -/
def Obligations.OpcodeMap : Prop :=
  Opcode.all.map (fun o => (o.code.toNat, opcodeName o, o.format)) =
    [(0x00, "min", .N), (0x01, "max", .N), (0x02, "bits", .N),
     (0x10, "abs", .U), (0x11, "signum", .U), (0x12, "is_positive", .U), (0x13, "is_negative", .U),
     (0x20, "or", .VV), (0x21, "and", .VV), (0x22, "xor", .VV), (0x23, "not", .U), (0x24, "shl", .VC), (0x25, "shr", .VC),
     (0x30, "count_ones", .U), (0x31, "count_zeros", .U), (0x32, "leading_zeros", .U), (0x33, "trailing_zeros", .U),
     (0x40, "rotate_left", .VC), (0x41, "rotate_right", .VC), (0x42, "swap_bytes", .U), (0x43, "reverse_bits", .U),
     (0x50, "to_le", .U), (0x51, "from_le", .U), (0x52, "to_be", .U), (0x53, "from_be", .U),
     (0x60, "add", .VV), (0x61, "sub", .VV), (0x62, "neg", .U), (0x63, "mul", .VV), (0x64, "checked_div", .VV),
     (0x65, "pow", .VC), (0x66, "checked_pow", .VC), (0x70, "digit", .D), (0x71, "from_str_radix", .S)] ∧
  (∀ o : Opcode, o ∈ Opcode.all ∧ Opcode.ofCode o.code = some o) ∧
  ∀ (c : BitVec 8) (o : Opcode), Opcode.ofCode c = some o → o.code = c

/-- R80: a header selects a table row when `word0 & mask = match`, with the mask of the row's format and the opcode value as
match; that is exactly when it carries the row's opcode, `rsv` is zero and the `radix` and `n` bits its format requires to be
zero are zero. -/
def Obligations.HeaderMaskSelectsRow : Prop :=
  ∀ (op : Opcode) (h : Word),
    let mask : Word := match op.format with
      | .N => 0xFFFFFFFFFFFFF0FF#64
      | .U => 0xFFFFFFFFFFFFF0FF#64
      | .VV => 0xFFFFFFFFFFFFF0FF#64
      | .VC => 0x00000000FFFFF0FF#64
      | .D => 0xFFFFFF00FFFC00FF#64
      | .S => 0x00000000FFFC00FF#64
    (op.selects h = true ↔ h &&& mask = 0#56 ++ op.code) ∧
    (op.selects h = true ↔
      h.extractLsb' 0 8 = op.code ∧ h.extractLsb' 18 14 = 0#14 ∧
      (op.format ∈ [.N, .U, .VV, .VC] → h.extractLsb' 12 6 = 0#6) ∧
      (op.format ∈ [.N, .U, .VV] → h.extractLsb' 32 32 = 0#32) ∧
      (op.format = .D → h.extractLsb' 40 24 = 0#24))

/-- R64: the width, the codes and the reserved codes of the type field, for the ten types. -/
def Obligations.TypeFieldTable : Prop :=
  ∀ (cfg : Config) (sgn : Bool),
    (width cfg ⟨sgn, .w8⟩ = 8 ∧ width cfg ⟨sgn, .w16⟩ = 16 ∧ width cfg ⟨sgn, .w32⟩ = 32 ∧ width cfg ⟨sgn, .w64⟩ = 64 ∧
      width cfg ⟨sgn, .ptr⟩ = cfg.ptrw.bits) ∧
    (∀ h : Word, tyOf h =
      (let wsel := h.toNat / 2 ^ 8 % 2 ^ 3
       let sgn := decide (h.toNat / 2 ^ 11 % 2 = 1)
       if wsel = 0 then some ⟨sgn, .w8⟩ else if wsel = 1 then some ⟨sgn, .w16⟩ else if wsel = 2 then some ⟨sgn, .w32⟩
       else if wsel = 3 then some ⟨sgn, .w64⟩ else if wsel = 4 then some ⟨sgn, .ptr⟩ else none))

/-- R69, R44: the frame of a string operand has ceil(L/8) payload words behind three; byte i of the string is bits
8(i mod 8)+7 : 8(i mod 8) of word 3 + i div 8, and every padding byte is zero. -/
def Obligations.StringBytesInPayload : Prop :=
  ∀ (ty : Ty) (str : List Byte) (radix : BitVec 6),
    (encode (.fromStrRadix ty str radix)).length = 3 + (str.length + 7) / 8 ∧
    ∀ i, i < 8 * ((str.length + 7) / 8) →
      ((encode (.fromStrRadix ty str radix)).getD (3 + i / 8) 0#64).extractLsb' (8 * (i % 8)) 8 = str.getD i 0#8

/-- Header words written out from R61 and the examples of 40_constants_and_sign.md to 46_power.md decode to the commands they
stand for. -/
def Obligations.SampleFramesDecode : Prop :=
  decode Config.reference [0x0000000000000800#64, 0#64, 0#64] = .ok (.min ⟨true, .w8⟩) ∧
  decode Config.reference [0x0000000000000810#64, 0xFB#64, 0#64] = .ok (.abs ⟨true, .w8⟩ 0xFB#64) ∧
  decode Config.reference [0x0000000000000020#64, 0x0C#64, 0x0A#64] = .ok (.or ⟨false, .w8⟩ 0x0C#64 0x0A#64) ∧
  decode Config.reference [0x0000000100000825#64, 0x80#64, 0#64] = .ok (.shr ⟨true, .w8⟩ 0x80#64 1#32) ∧
  decode Config.reference [0x0000000000000132#64, 0xF0#64, 0#64] = .ok (.leadingZeros ⟨false, .w16⟩ 0xF0#64) ∧
  decode Config.reference [0x0000000900000040#64, 0x81#64, 0#64] = .ok (.rotateLeft ⟨false, .w8⟩ 0x81#64 9#32) ∧
  decode Config.reference [0x0000000000000A64#64, 0x0A#64, 0x02#64] = .ok (.checkedDiv ⟨true, .w32⟩ 0x0A#64 2#64) ∧
  decode Config.reference [0x0000000700000866#64, 0x02#64, 0#64] = .ok (.checkedPow ⟨true, .w8⟩ 2#64 7#32) ∧
  decode Config.reference [0x0000007A00024070#64, 0#64, 0#64] = .ok (.digit ⟨false, .w8⟩ 0x7A#8 36#6) ∧
  decode Config.reference [0x0000000300008871#64, 0#64, 0#64, 0x0000000000333231#64] =
    .ok (.fromStrRadix ⟨true, .w8⟩ [0x31#8, 0x32#8, 0x33#8] 8#6)

/-! ## The step, the queue and the environment -/

/-- R16, R79: where the oldest pending frame decodes to i, the step takes that frame off the queue and is exec of i. -/
def Obligations.StepRunsDecodedCommand : Prop :=
  ∀ (s : State) (f : Frame) (rest : List Frame) (i : Instr),
    s.config.legal = true → s.pending = f :: rest → decode s.config f = .ok i →
    step s = exec i { s with pending := rest }

/-- The model's choice (log 3), resting on R268's "an idle engine is simply waiting for a frame" and R284's "emit an
unsolicited response": a step with nothing pending changes nothing. -/
def Obligations.IdleStepChangesNothing : Prop :=
  ∀ s : State, s.config.legal = true → s.pending = [] → step s = .next s

/-- The model's reading of V11 (log 4): a configuration whose STRMAX is outside 65 .. 2^32 − 1 is refused, whatever is
pending. -/
def Obligations.ConfigOutOfRangeRefused : Prop :=
  ∀ s : State, (s.config.strmax < 65 ∨ 2 ^ 32 - 1 < s.config.strmax) → step s = .refused .configOutOfRange

/-- R75, R46: every frame has exactly one response under a configuration, which no other part of the state enters: the
response of the command it encodes, or IllegalRequest; the step takes the frame off the queue and emits that response. -/
def Obligations.EveryFrameHasOneResponse : Prop :=
  ∃ R : Config → Frame → Response,
    (∀ (cfg : Config) (f : Frame) (i : Instr), decode cfg f = .ok i →
      ∀ s : State, s.config = cfg → exec i s = .next { s with emitted := s.emitted ++ [R cfg f] }) ∧
    (∀ (cfg : Config) (f : Frame), (∀ i, decode cfg f ≠ .ok i) →
      (R cfg f).word0.extractLsb' 0 4 = 6#4 ∧ (R cfg f).word1 = 0#64) ∧
    ∀ (s : State) (f : Frame) (rest : List Frame), s.config.legal = true → s.pending = f :: rest →
      step s = .next { s with pending := rest, emitted := s.emitted ++ [R s.config f] }

/-- Resting on R74, R288, R46, and for one request a step on R16 and R26: as many steps as there are pending requests answer
them all, one response each, in the order of the requests, each response a function of the configuration and its own frame.
That R288's liveness reads "as many steps as pending requests" is the model's inference (log 11, DEDUCED). -/
def Obligations.RunAnswersQueueInOrder : Prop :=
  ∃ R : Config → Frame → Response,
    ∀ s : State, s.config.legal = true →
      Host.Core.run Sys2Proof.core s.pending.length s =
        .next { s with pending := [], emitted := s.emitted ++ s.pending.map (R s.config) }

/-- Resting on R74, R290, R46: over any interleaving of presented frames and engine steps with no reset, every outcome is a
next state, and the responses emitted, followed by those of the frames still pending, are the responses of the frames
presented, in order: none is lost, doubled, reordered or unsolicited, and none depends on another frame. That every outcome is
a next state is the model's: an idle engine's step changes nothing (log 3), the port takes every frame (log 5), and frames
arrive between steps (log 6). That a pending frame is answered at all is EveryFrameHasOneResponse. -/
def Obligations.EventRunsAnswerEachFrameOnce : Prop :=
  ∃ R : Config → Frame → Response,
    ∀ (es : List Event) (s : State), s.config.legal = true → noReset es = true →
      ∃ t, runEvents es s = .next t ∧ t.config = s.config ∧
        t.emitted ++ t.pending.map (R s.config) =
          s.emitted ++ s.pending.map (R s.config) ++ (presented es).map (R s.config)

/-- R280, R281: reset asserted at any time leaves an idle engine; the requests in flight get no response, ever: whatever
happens afterwards is what would happen had they never been accepted, and the responses already delivered stay. -/
def Obligations.ResetDiscardsRequestsInFlight : Prop :=
  ∀ (s : State) (es : List Event),
    (∃ t, applyEvent .reset s = .next t ∧ t.idle = true ∧ t.emitted = s.emitted ∧ t.config = s.config) ∧
    runEvents (.reset :: es) s = runEvents es { s with pending := [] }

/-- R280: after reset the engine is idle, with an empty pending queue and no response owed. -/
def Obligations.ResetStateIsIdle : Prop :=
  State.reset.pending = [] ∧ State.reset.idle = true

/-! ## Invariants -/

/-- The state right after reset is safe; its configuration is the model's choice (log 1). -/
def Obligations.ResetStateIsSafe : Prop := State.reset.safe = true

/-- R71, R72, R258, V7: from any safe state a step keeps every emitted response well formed: reserved bits zero, no cause
above 6, the cause one its operation can give, an OK value canonical for its type, a failure's value word zero; and the
configuration stays in range. -/
def Obligations.StepKeepsResponsesWellFormed : Prop :=
  ∀ s t : State, s.safe = true → step s = .next t → t.safe = true

/-- R23, R29, R31: a step changes no parameter, takes at most the oldest request, alters no request still pending and no
response already emitted, and adds at most one response. -/
def Obligations.StepFrame : Prop :=
  ∀ s t : State, step s = .next t →
    t.config = s.config ∧ t.pending = s.pending.tail ∧
    ∃ rs, t.emitted = s.emitted ++ rs ∧ rs.length = (if s.pending = [] then 0 else 1)

/-- R20 to R23, R27, R46: every command, in every state, completes; it appends one response, which is a function of the
configuration and the command alone, and changes nothing else. -/
def Obligations.ExecAppendsOneResponse : Prop :=
  ∃ R : Config → Instr → Response,
    ∀ (i : Instr) (s : State), exec i s = .next { s with emitted := s.emitted ++ [R s.config i] }

/-- R71: the layout of every response the engine emits: zeros in bits 7:4 and 63:20 of word 0, the header's bits 7:0 and 11:8
echoed as received, for legal and illegal frames alike (zero for a frame with no words). -/
def Obligations.ResponseLayout : Prop :=
  ∀ (s : State) (f : Frame) (rest : List Frame), s.config.legal = true → s.pending = f :: rest →
    ∃ r : Response, step s = .next { s with pending := rest, emitted := s.emitted ++ [r] } ∧
      r.word0.extractLsb' 4 4 = 0#4 ∧ r.word0.extractLsb' 20 44 = 0#44 ∧
      r.word0.extractLsb' 8 8 = (f.headD 0#64).extractLsb' 0 8 ∧
      r.word0.extractLsb' 16 4 = (f.headD 0#64).extractLsb' 8 4 ∧
      (r.word0.extractLsb' 0 4).toNat ≤ 6 ∧
      (r.word0.extractLsb' 0 4 ≠ 0#4 → r.word1 = 0#64)

/-- R258: which operation can give which cause. The causes with which some well-formed command of an opcode is answered are
OK and exactly those of the table; every opcode has a malformed frame; and every malformed frame with that opcode, once it is
the oldest one pending, makes the step emit a response with cause IllegalRequest (6). -/
def Obligations.CausesOfEachOperation : Prop :=
  ∀ (cfg : Config) (op : Opcode), cfg.legal = true →
    (∀ c : BitVec 4,
      (∃ (i : Instr) (s t : State) (r : Response), i.opcode = op ∧ i.wellFormed cfg = true ∧ s.config = cfg ∧
        exec i s = .next t ∧ t.emitted = s.emitted ++ [r] ∧ r.word0.extractLsb' 0 4 = c) ↔
      c ∈ (0#4 :: (match op with
        | .shl => [5#4]
        | .shr => [5#4]
        | .checkedDiv => [1#4]
        | .checkedPow => [4#4]
        | .digit => [2#4]
        | .fromStrRadix => [2#4, 3#4]
        | _ => []))) ∧
    (∃ (f : Frame) (k : Check), (f.headD 0#64).extractLsb' 0 8 = op.code ∧ decode cfg f = .error k) ∧
    ∀ (f : Frame) (k : Check), (f.headD 0#64).extractLsb' 0 8 = op.code → decode cfg f = .error k →
      ∀ (s : State) (rest : List Frame), s.config = cfg → s.pending = f :: rest →
        ∃ r : Response, step s = .next { s with pending := rest, emitted := s.emitted ++ [r] } ∧
          r.word0.extractLsb' 0 4 = 6#4

/-! ## Values -/

/-- R10: `u(x)` is the sum of x[i]·2^i and `s(x)` subtracts 2^W·x[W−1]; `val` is the one by signedness; `wrap(z)` is the
unique pattern p with u(p) ≡ z (mod 2^W); MINV, MAXV and `inrange` are the bounds of the type. -/
def Obligations.ReadingsOfPatterns : Prop :=
  ∀ w : Nat, 0 < w →
    (∀ x : BitVec w,
      val false x = ∑ i ∈ Finset.range w, (if x.getLsbD i then (2 : Int) ^ i else 0) ∧
      val true x = (∑ i ∈ Finset.range w, (if x.getLsbD i then (2 : Int) ^ i else 0)) -
        (if x.getLsbD (w - 1) then 2 ^ w else 0) ∧
      0 ≤ val false x ∧ val false x < 2 ^ w ∧ -(2 ^ (w - 1)) ≤ val true x ∧ val true x < 2 ^ (w - 1)) ∧
    (∀ (z : Int) (p : BitVec w), wrap w z = p ↔ val false p ≡ z [ZMOD 2 ^ w]) ∧
    (∀ z : Int, inRange true w z = true ↔ -(2 ^ (w - 1)) ≤ z ∧ z ≤ 2 ^ (w - 1) - 1) ∧
    (∀ z : Int, inRange false w z = true ↔ 0 ≤ z ∧ z ≤ 2 ^ w - 1)

/-! ## What each command answers -/

/-- R100, R101, R102: MIN answers `wrap(MINV)`, MAX `wrap(MAXV)`, BITS `wrap(W)`. -/
def Obligations.ConstantsAnswer : Prop :=
  ∀ (ty : Ty) (s : State),
    let w := width s.config ty
    AnswersOk (.min ty) (plainFrame 0#32 ty 0x00#8 0#64 0#64) s 0x00#8
      (wrap w (if ty.signed then -(2 ^ (w - 1)) else 0)) ∧
    AnswersOk (.max ty) (plainFrame 0#32 ty 0x01#8 0#64 0#64) s 0x01#8
      (wrap w (if ty.signed then 2 ^ (w - 1) - 1 else 2 ^ w - 1)) ∧
    AnswersOk (.bits ty) (plainFrame 0#32 ty 0x02#8 0#64 0#64) s 0x02#8 (wrap w w)

/-- R103, R104: ABS answers `wrap(|v|)`, with the MIN pattern of a signed type its own absolute value and ABS the identity on
unsigned types; SIGNUM answers `wrap(1)`, `wrap(0)` or `wrap(−1)` by the sign of the value. -/
def Obligations.AbsAndSignumAnswer : Prop :=
  ∀ (ty : Ty) (a : Word) (s : State),
    let w := width s.config ty
    let x : BitVec w := a.setWidth w
    let v := val ty.signed x
    (∃ p : BitVec w, AnswersOk (.abs ty a) (plainFrame 0#32 ty 0x10#8 a 0#64) s 0x10#8 p ∧ p = wrap w |v| ∧
      (ty.signed = false → p = x) ∧
      (ty.signed = true → x = BitVec.intMin w → p = x) ∧
      (ty.signed = true → x ≠ BitVec.intMin w → val true p = |v|)) ∧
    AnswersOk (.signum ty a) (plainFrame 0#32 ty 0x11#8 a 0#64) s 0x11#8
      (wrap w (if v > 0 then 1 else if v = 0 then 0 else -1))

/-- R105, R106: IS_POSITIVE and IS_NEGATIVE answer `wrap(1)` when val(a) > 0, respectively val(a) < 0, and `wrap(0)`
otherwise; for a signed type negative is bit W−1, for an unsigned type positive is not zero and negative never holds. -/
def Obligations.SignTestsAnswer : Prop :=
  ∀ (ty : Ty) (a : Word) (s : State),
    let w := width s.config ty
    let x : BitVec w := a.setWidth w
    let v := val ty.signed x
    AnswersOk (.isPositive ty a) (plainFrame 0#32 ty 0x12#8 a 0#64) s 0x12#8 (wrap w (if v > 0 then 1 else 0)) ∧
    AnswersOk (.isNegative ty a) (plainFrame 0#32 ty 0x13#8 a 0#64) s 0x13#8 (wrap w (if v < 0 then 1 else 0)) ∧
    (ty.signed = true → (v < 0 ↔ x.getLsbD (w - 1) = true)) ∧
    (ty.signed = false → (v > 0 ↔ x ≠ 0#w) ∧ ¬ v < 0)

/-- R120 to R123: OR, AND, XOR and NOT answer the pattern whose bit i, for each i below W, is a[i] or b[i], a[i] and b[i],
a[i] xor b[i], not a[i]; for a signed type s(NOT(a)) = −s(a) − 1 exactly. -/
def Obligations.BitwiseAnswerPerBit : Prop :=
  ∀ (ty : Ty) (a b : Word) (s : State),
    let w := width s.config ty
    ∃ po pa px pn : BitVec w,
      AnswersOk (.or ty a b) (plainFrame 0#32 ty 0x20#8 a b) s 0x20#8 po ∧
      AnswersOk (.and ty a b) (plainFrame 0#32 ty 0x21#8 a b) s 0x21#8 pa ∧
      AnswersOk (.xor ty a b) (plainFrame 0#32 ty 0x22#8 a b) s 0x22#8 px ∧
      AnswersOk (.not ty a) (plainFrame 0#32 ty 0x23#8 a 0#64) s 0x23#8 pn ∧
      (∀ i, i < w →
        po.getLsbD i = (a.getLsbD i || b.getLsbD i) ∧
        pa.getLsbD i = (a.getLsbD i && b.getLsbD i) ∧
        px.getLsbD i = (a.getLsbD i ^^ b.getLsbD i) ∧
        pn.getLsbD i = !a.getLsbD i) ∧
      (ty.signed = true → val true pn = -val true (a.setWidth w) - 1)

/-- R124: SHL answers `wrap(u(a) · 2^n)` for n < W, bit i of it a[i−n] for i >= n and 0 below, and ShiftRange for n >= W. -/
def Obligations.ShiftLeftAnswer : Prop :=
  ∀ (ty : Ty) (a : Word) (n : BitVec 32) (s : State),
    let w := width s.config ty
    let x : BitVec w := a.setWidth w
    (n.toNat < w → ∃ p : BitVec w,
      AnswersOk (.shl ty a n) (plainFrame n ty 0x24#8 a 0#64) s 0x24#8 p ∧ p = wrap w (x.toNat * 2 ^ n.toNat) ∧
      ∀ i, i < w → p.getLsbD i = (decide (n.toNat ≤ i) && x.getLsbD (i - n.toNat))) ∧
    (w ≤ n.toNat → AnswersErr (.shl ty a n) (plainFrame n ty 0x24#8 a 0#64) s 0x24#8 5#4)

/-- R125: SHR answers `wrap(val(a) div 2^n)` for n < W, which is a[i+n] below W and the sign (signed) or 0 (unsigned) above,
with val(result) = floor(val(a) / 2^n); and ShiftRange for n >= W. -/
def Obligations.ShiftRightAnswer : Prop :=
  ∀ (ty : Ty) (a : Word) (n : BitVec 32) (s : State),
    let w := width s.config ty
    let x : BitVec w := a.setWidth w
    (n.toNat < w → ∃ p : BitVec w,
      AnswersOk (.shr ty a n) (plainFrame n ty 0x25#8 a 0#64) s 0x25#8 p ∧
      val ty.signed p = Int.floor ((val ty.signed x : ℚ) / 2 ^ n.toNat) ∧
      ∀ i, i < w → p.getLsbD i =
        (if i + n.toNat ≤ w - 1 then x.getLsbD (i + n.toNat) else ty.signed && x.getLsbD (w - 1))) ∧
    (w ≤ n.toNat → AnswersErr (.shr ty a n) (plainFrame n ty 0x25#8 a 0#64) s 0x25#8 5#4)

/-- R140, R141: COUNT_ONES and COUNT_ZEROS answer `wrap(k)`, k the number of i below W with a[i] = 1, respectively 0; the
count is read back unwrapped. -/
def Obligations.PopulationCountsAnswer : Prop :=
  ∀ (ty : Ty) (a : Word) (s : State),
    let w := width s.config ty
    let k := ((Finset.range w).filter (fun i => a.getLsbD i = true)).card
    let z := ((Finset.range w).filter (fun i => a.getLsbD i = false)).card
    ∃ p q : BitVec w,
      AnswersOk (.countOnes ty a) (plainFrame 0#32 ty 0x30#8 a 0#64) s 0x30#8 p ∧ val ty.signed p = k ∧
      AnswersOk (.countZeros ty a) (plainFrame 0#32 ty 0x31#8 a 0#64) s 0x31#8 q ∧ val ty.signed q = z ∧ k + z = w

/-- R142, R143: LEADING_ZEROS and TRAILING_ZEROS answer `wrap(W)` for `zero`; otherwise `wrap(W − 1 − i)` for the largest i
with a[i] = 1, and `wrap(i)` for the smallest. -/
def Obligations.ZeroCountsAnswer : Prop :=
  ∀ (ty : Ty) (a : Word) (s : State),
    let w := width s.config ty
    let x : BitVec w := a.setWidth w
    (x = 0#w →
      AnswersOk (.leadingZeros ty a) (plainFrame 0#32 ty 0x32#8 a 0#64) s 0x32#8 (wrap w w) ∧
      AnswersOk (.trailingZeros ty a) (plainFrame 0#32 ty 0x33#8 a 0#64) s 0x33#8 (wrap w w)) ∧
    (x ≠ 0#w →
      (∃ i, i < w ∧ x.getLsbD i = true ∧ (∀ j, i < j → x.getLsbD j = false) ∧
        AnswersOk (.leadingZeros ty a) (plainFrame 0#32 ty 0x32#8 a 0#64) s 0x32#8 (wrap w ((w : Int) - 1 - i))) ∧
      (∃ i, i < w ∧ x.getLsbD i = true ∧ (∀ j, j < i → x.getLsbD j = false) ∧
        AnswersOk (.trailingZeros ty a) (plainFrame 0#32 ty 0x33#8 a 0#64) s 0x33#8 (wrap w i)))

/-- R160, R161, R163: ROTATE_LEFT answers the pattern with res[i] = a[(i − r) mod W], ROTATE_RIGHT the one with
res[i] = a[(i + r) mod W], r = n mod W, for every 32-bit n; neither has a failure. -/
def Obligations.RotationsAnswer : Prop :=
  ∀ (ty : Ty) (a : Word) (n : BitVec 32) (s : State),
    let w := width s.config ty
    ∃ p q : BitVec w,
      AnswersOk (.rotateLeft ty a n) (plainFrame n ty 0x40#8 a 0#64) s 0x40#8 p ∧
      AnswersOk (.rotateRight ty a n) (plainFrame n ty 0x41#8 a 0#64) s 0x41#8 q ∧
      ∀ i : Nat, i < w →
        p.getLsbD i = a.getLsbD ((((i : Int) - ((n.toNat % w : Nat) : Int)) % (w : Int)).toNat) ∧
        q.getLsbD i = a.getLsbD ((i + n.toNat % w) % w)

/-- R164, R166: SWAP_BYTES answers the pattern whose byte j is byte B−1−j of the operand, B = W/8; REVERSE_BITS the one whose
bit i is bit W−1−i. -/
def Obligations.SwapAndReverseAnswer : Prop :=
  ∀ (ty : Ty) (a : Word) (s : State),
    let w := width s.config ty
    ∃ p q : BitVec w,
      AnswersOk (.swapBytes ty a) (plainFrame 0#32 ty 0x42#8 a 0#64) s 0x42#8 p ∧
      AnswersOk (.reverseBits ty a) (plainFrame 0#32 ty 0x43#8 a 0#64) s 0x43#8 q ∧
      (∀ j, j < w / 8 → p.extractLsb' (8 * j) 8 = a.extractLsb' (8 * (w / 8 - 1 - j)) 8) ∧
      (∀ i, i < w → q.getLsbD i = a.getLsbD (w - 1 - i))

/-- R168 to R171 over R167: under NATIVE_ORDER LE the little-endian conversions answer the operand and the big-endian ones
its byte swap, and under BE the other way round. -/
def Obligations.ByteOrderAnswer : Prop :=
  ∀ (ty : Ty) (a : Word) (s : State),
    let w := width s.config ty
    ∃ p q : BitVec w,
      AnswersOk (.toLe ty a) (plainFrame 0#32 ty 0x50#8 a 0#64) s 0x50#8 p ∧
      AnswersOk (.fromLe ty a) (plainFrame 0#32 ty 0x51#8 a 0#64) s 0x51#8 p ∧
      AnswersOk (.toBe ty a) (plainFrame 0#32 ty 0x52#8 a 0#64) s 0x52#8 q ∧
      AnswersOk (.fromBe ty a) (plainFrame 0#32 ty 0x53#8 a 0#64) s 0x53#8 q ∧
      ∀ j, j < w / 8 →
        p.extractLsb' (8 * j) 8 =
          a.extractLsb' (8 * (if s.config.nativeOrder = .le then j else w / 8 - 1 - j)) 8 ∧
        q.extractLsb' (8 * j) 8 =
          a.extractLsb' (8 * (if s.config.nativeOrder = .le then w / 8 - 1 - j else j)) 8

/-- R190 to R193: ADD, SUB, NEG and MUL answer the wrapped sum, difference, negation and product of the values, which are the
wrapped ones of the unsigned readings as well. -/
def Obligations.WrappingArithmeticAnswer : Prop :=
  ∀ (ty : Ty) (a b : Word) (s : State),
    let w := width s.config ty
    let x : BitVec w := a.setWidth w
    let y : BitVec w := b.setWidth w
    ∃ pa ps pn pm : BitVec w,
      AnswersOk (.add ty a b) (plainFrame 0#32 ty 0x60#8 a b) s 0x60#8 pa ∧
      AnswersOk (.sub ty a b) (plainFrame 0#32 ty 0x61#8 a b) s 0x61#8 ps ∧
      AnswersOk (.neg ty a) (plainFrame 0#32 ty 0x62#8 a 0#64) s 0x62#8 pn ∧
      AnswersOk (.mul ty a b) (plainFrame 0#32 ty 0x63#8 a b) s 0x63#8 pm ∧
      ∀ sg ∈ [ty.signed, false],
        pa = wrap w (val sg x + val sg y) ∧ ps = wrap w (val sg x - val sg y) ∧ pn = wrap w (-val sg x) ∧
        pm = wrap w (val sg x * val sg y)

/-- R194: CHECKED_DIV answers DivisionUndefined when y = 0, or when the type is signed, x = MINV and y = −1; otherwise the
quotient rounded toward zero, which is in range, so that the wrap does not change it. -/
def Obligations.CheckedDivisionAnswer : Prop :=
  ∀ (ty : Ty) (a b : Word) (s : State),
    let w := width s.config ty
    let x := val ty.signed (a.setWidth w)
    let y := val ty.signed (b.setWidth w)
    ((y = 0 ∨ (ty.signed = true ∧ x = -(2 ^ (w - 1)) ∧ y = -1)) →
      AnswersErr (.checkedDiv ty a b) (plainFrame 0#32 ty 0x64#8 a b) s 0x64#8 1#4) ∧
    (¬ (y = 0 ∨ (ty.signed = true ∧ x = -(2 ^ (w - 1)) ∧ y = -1)) →
      ∃ p : BitVec w, AnswersOk (.checkedDiv ty a b) (plainFrame 0#32 ty 0x64#8 a b) s 0x64#8 p ∧
        val ty.signed p = (if 0 ≤ (x : ℚ) / y then Int.floor ((x : ℚ) / y) else Int.ceil ((x : ℚ) / y)))

/-- R231: POW answers `wrap(val(a)^n)`, the wrapped mathematical power, for every 32-bit exponent. -/
def Obligations.PowAnswer : Prop :=
  ∀ (ty : Ty) (a : Word) (n : BitVec 32) (s : State),
    let w := width s.config ty
    AnswersOk (.pow ty a n) (plainFrame n ty 0x65#8 a 0#64) s 0x65#8 (wrap w (val ty.signed (a.setWidth w) ^ n.toNat))

/-- R232: CHECKED_POW answers `wrap(z)`, z = val(a)^n the mathematical power, when z is in range, and ArithmeticOverflow
otherwise. -/
def Obligations.CheckedPowAnswer : Prop :=
  ∀ (ty : Ty) (a : Word) (n : BitVec 32) (s : State),
    let w := width s.config ty
    let z := val ty.signed (a.setWidth w) ^ n.toNat
    (minv ty.signed w ≤ z ∧ z ≤ maxv ty.signed w →
      AnswersOk (.checkedPow ty a n) (plainFrame n ty 0x66#8 a 0#64) s 0x66#8 (wrap w z)) ∧
    (¬ (minv ty.signed w ≤ z ∧ z ≤ maxv ty.signed w) →
      AnswersErr (.checkedPow ty a n) (plainFrame n ty 0x66#8 a 0#64) s 0x66#8 4#4)

/-- R210, R211: DIGIT answers `wrap(d)` when the character's digit value d, by the table of R210, is below the radix, and
ParseFormatError when the character is no digit or its value is not below the radix. -/
def Obligations.DigitAnswer : Prop :=
  ∀ (ty : Ty) (c : Byte) (radix : BitVec 6) (s : State),
    let k := c.toNat
    let d : Option Nat :=
      if 0x30 ≤ k ∧ k ≤ 0x39 then some (k - 0x30) else if 0x61 ≤ k ∧ k ≤ 0x7A then some (k - 0x61 + 10)
      else if 0x41 ≤ k ∧ k ≤ 0x5A then some (k - 0x41 + 10) else none
    let f : Frame := [0#24 ++ c ++ 0#14 ++ radix ++ ty.code ++ 0x70#8, 0#64, 0#64]
    (∀ v, d = some v → v < radix.toNat →
      AnswersOk (.digit ty c radix) f s 0x70#8 (wrap (width s.config ty) v)) ∧
    ((∀ v, d = some v → radix.toNat ≤ v) → AnswersErr (.digit ty c radix) f s 0x70#8 2#4)

/-- R212, R213, R215: FROM_STR_RADIX takes the sign off (a leading `-` of a signed type), answers ParseFormatError when no
digit is left or some character is not a digit below the radix, and otherwise sums d[k]·radix^(M−1−k): the wrapped value when
it is in range, ParseRangeError when it is not. -/
def Obligations.FromStrRadixAnswer : Prop :=
  ∀ (ty : Ty) (str : List Byte) (radix : BitVec 6) (s : State),
    let w := width s.config ty
    let neg := ty.signed && decide (str.head? = some 0x2D#8)
    let digits := if neg then str.tail else str
    let m := digits.length
    let bad := ∃ c ∈ digits, ∀ d, dig c = some d → radix.toNat ≤ d
    let f : Frame := (BitVec.ofNat 32 str.length ++ 0#14 ++ radix ++ ty.code ++ 0x71#8) :: 0#64 :: 0#64 :: packString str
    (m = 0 ∨ bad → AnswersErr (.fromStrRadix ty str radix) f s 0x71#8 2#4) ∧
    (m ≠ 0 → ¬ bad →
      ∃ d : Nat → Nat, (∀ k, k < m → digits[k]?.bind dig = some (d k)) ∧
        let sum : Int := ∑ k ∈ Finset.range m, (d k : Int) * (radix.toNat : Int) ^ (m - 1 - k)
        let z := if neg then -sum else sum
        (inRange ty.signed w z = true → AnswersOk (.fromStrRadix ty str radix) f s 0x71#8 (wrap w z)) ∧
        (inRange ty.signed w z = false → AnswersErr (.fromStrRadix ty str radix) f s 0x71#8 3#4))

/-! ## Laws over several commands -/

/-- R32: `ADD(ADD(MIN, MAX), wrap(1)) = zero` on the engine, for every type, MAXV > 0 and MINV <= 0. -/
def Obligations.RangeIdentity : Prop :=
  ∀ (ty : Ty) (s : State),
    0 < maxv ty.signed (width s.config ty) ∧ minv ty.signed (width s.config ty) ≤ 0 ∧
    ∃ lo hi sum : Word, okValue s (.min ty) = some lo ∧ okValue s (.max ty) = some hi ∧
      okValue s (.add ty lo hi) = some sum ∧ okValue s (.add ty sum 1#64) = some 0#64

/-- R107: exactly one of IS_POSITIVE(a), IS_NEGATIVE(a), a = zero holds; SIGNUM is `wrap(1)`, `wrap(−1)`, `wrap(0)` in those
cases; and for a signed type other than at MIN, val(ABS(a)) = val(a) · val(SIGNUM(a)). -/
def Obligations.SignTrichotomy : Prop :=
  ∀ (ty : Ty) (a : Word) (s : State),
    let w := width s.config ty
    let x : BitVec w := a.setWidth w
    let pos := okValue s (.isPositive ty a) = some 1#64
    let neg := okValue s (.isNegative ty a) = some 1#64
    ((pos ∧ ¬ neg ∧ x ≠ 0#w) ∨ (¬ pos ∧ neg ∧ x ≠ 0#w) ∨ (¬ pos ∧ ¬ neg ∧ x = 0#w)) ∧
    (pos → okValue s (.signum ty a) = some (zext64 (wrap w 1))) ∧
    (neg → okValue s (.signum ty a) = some (zext64 (wrap w (-1)))) ∧
    (x = 0#w → okValue s (.signum ty a) = some 0#64) ∧
    (ty.signed = true → x ≠ BitVec.intMin w →
      ∃ p q : Word, okValue s (.abs ty a) = some p ∧ okValue s (.signum ty a) = some q ∧
        val true (p.setWidth w) = val true x * val true (q.setWidth w))

/-- R126: OR, AND and XOR are commutative and associative, AND distributes over OR and over XOR, De Morgan, and XOR from OR,
AND and NOT, each as runs of the engine. -/
def Obligations.BooleanAlgebra : Prop :=
  ∀ (ty : Ty) (a b c : Word) (s : State),
    let or x y := okValue s (.or ty x y)
    let and x y := okValue s (.and ty x y)
    let xor x y := okValue s (.xor ty x y)
    let not x := okValue s (.not ty x)
    (or a b = or b a ∧ and a b = and b a ∧ xor a b = xor b a) ∧
    ((or a b).bind (or · c) = (or b c).bind (or a ·) ∧ (and a b).bind (and · c) = (and b c).bind (and a ·) ∧
      (xor a b).bind (xor · c) = (xor b c).bind (xor a ·)) ∧
    ((or b c).bind (and a ·) = (and a b).bind (fun p => (and a c).bind (or p ·)) ∧
      (xor b c).bind (and a ·) = (and a b).bind (fun p => (and a c).bind (xor p ·))) ∧
    (and a b).bind not = (not a).bind (fun p => (not b).bind (or p ·)) ∧
    xor a b = (or a b).bind (fun p => ((and a b).bind not).bind (and p ·)) ∧
    (xor a b).isSome = true

/-- R127: for n < W, SHL(a, n) = MUL(a, wrap(2^n)); for unsigned types SHR(SHL(a, n), n) masks the low W − n bits; and for
n + m < W shifts compose, to the left and to the right. -/
def Obligations.ShiftLaws : Prop :=
  ∀ (ty : Ty) (a : Word) (n m : BitVec 32) (s : State),
    let w := width s.config ty
    (n.toNat < w →
      okValue s (.shl ty a n) = okValue s (.mul ty a (zext64 (wrap w (2 ^ n.toNat)))) ∧
      (ty.signed = false →
        (okValue s (.shl ty a n)).bind (fun p => okValue s (.shr ty p n)) =
          okValue s (.and ty a (zext64 (wrap w (2 ^ (w - n.toNat) - 1)))))) ∧
    (n.toNat + m.toNat < w →
      (okValue s (.shl ty a n)).bind (fun p => okValue s (.shl ty p m)) = okValue s (.shl ty a (n + m)) ∧
      (okValue s (.shr ty a n)).bind (fun p => okValue s (.shr ty p m)) = okValue s (.shr ty a (n + m)))

/-- R144, R145: ADD of COUNT_ONES(a) and COUNT_ZEROS(a) is BITS; COUNT_ZEROS(a) is COUNT_ONES(NOT(a)); LEADING_ZEROS(a) is
TRAILING_ZEROS of REVERSE_BITS(a); and COUNT_ONES is unchanged by rotation, byte swap and bit reversal. -/
def Obligations.CountLaws : Prop :=
  ∀ (ty : Ty) (a : Word) (n : BitVec 32) (s : State),
    let ones x := okValue s (.countOnes ty x)
    (ones a).bind (fun p => (okValue s (.countZeros ty a)).bind (fun q => okValue s (.add ty p q))) =
      okValue s (.bits ty) ∧
    okValue s (.countZeros ty a) = (okValue s (.not ty a)).bind ones ∧
    okValue s (.leadingZeros ty a) = (okValue s (.reverseBits ty a)).bind (fun p => okValue s (.trailingZeros ty p)) ∧
    ones a = (okValue s (.rotateLeft ty a n)).bind ones ∧
    ones a = (okValue s (.rotateRight ty a n)).bind ones ∧
    ones a = (okValue s (.swapBytes ty a)).bind ones ∧
    ones a = (okValue s (.reverseBits ty a)).bind ones ∧
    (ones a).isSome = true

/-- R162: ROTATE_RIGHT undoes ROTATE_LEFT and the reverse, for every 32-bit n; a left rotation is a right rotation by
(W − n mod W) mod W; left rotations add modulo W; and the amount is taken modulo W. -/
def Obligations.RotationLaws : Prop :=
  ∀ (ty : Ty) (a : Word) (n m : BitVec 32) (s : State),
    let w := width s.config ty
    let left x k := okValue s (.rotateLeft ty x k)
    let right x k := okValue s (.rotateRight ty x k)
    let self := some (zext64 (a.setWidth w))
    (left a n).bind (right · n) = self ∧ (right a n).bind (left · n) = self ∧
    left a n = right a (BitVec.ofNat 32 ((w - n.toNat % w) % w)) ∧
    (left a n).bind (left · m) = left a (BitVec.ofNat 32 ((n.toNat + m.toNat) % w)) ∧
    left a n = left a (BitVec.ofNat 32 (n.toNat % w))

/-- R165: for every type and every a, SWAP_BYTES(SWAP_BYTES(a)) = a, and `zero` and `ones` are fixed points. -/
def Obligations.ByteSwapInvolution : Prop :=
  ∀ (ty : Ty) (a : Word) (s : State),
    let w := width s.config ty
    let swap x := okValue s (.swapBytes ty x)
    (swap a).bind swap = some (zext64 (a.setWidth w)) ∧ swap 0#64 = some 0#64 ∧
    swap (zext64 (BitVec.allOnes w)) = some (zext64 (BitVec.allOnes w))

/-- R172: FROM_LE(TO_LE(a)) = a and FROM_BE(TO_BE(a)) = a under either NATIVE_ORDER; TO_BE(a) = SWAP_BYTES(TO_LE(a)); both
are the identity when W = 8; and when W >= 16 exactly one of TO_LE and TO_BE is. -/
def Obligations.ByteOrderRoundTrip : Prop :=
  ∀ (ty : Ty) (a : Word) (s : State),
    let w := width s.config ty
    let self x := some (zext64 (w := w) (BitVec.setWidth w x))
    (okValue s (.toLe ty a)).bind (fun p => okValue s (.fromLe ty p)) = self a ∧
    (okValue s (.toBe ty a)).bind (fun p => okValue s (.fromBe ty p)) = self a ∧
    okValue s (.toBe ty a) = (okValue s (.toLe ty a)).bind (fun p => okValue s (.swapBytes ty p)) ∧
    (w = 8 → okValue s (.toLe ty a) = self a ∧ okValue s (.toBe ty a) = self a) ∧
    (16 ≤ w →
      ((∀ x : Word, okValue s (.toLe ty x) = self x) ↔ ¬ ∀ x : Word, okValue s (.toBe ty x) = self x))

/-- R196, R197: where CHECKED_DIV answers OK with q, |q·y| <= |x| and |x − q·y| < |y| and a non-zero q has the sign of x·y;
dividing by `wrap(1)` gives a; and with y not 0 the quotient is out of range exactly when the type is signed, a is the MIN
pattern and b is `ones`. -/
def Obligations.DivisionLaws : Prop :=
  ∀ (ty : Ty) (a b : Word) (s : State),
    let w := width s.config ty
    let x := val ty.signed (a.setWidth w)
    let y := val ty.signed (b.setWidth w)
    (∀ p, okValue s (.checkedDiv ty a b) = some p →
      let q := val ty.signed (p.setWidth w)
      |q * y| ≤ |x| ∧ |x - q * y| < |y| ∧ (q ≠ 0 → q.sign = x.sign * y.sign)) ∧
    okValue s (.checkedDiv ty a 1#64) = some (zext64 (a.setWidth w)) ∧
    (y ≠ 0 →
      (inRange ty.signed w (x.tdiv y) = false ↔
        ty.signed = true ∧ a.setWidth w = BitVec.intMin w ∧ b.setWidth w = BitVec.allOnes w))

/-- R217: the left-to-right circuit, with its sticky overflow, gives the answer of FROM_STR_RADIX for every string, radix and
type. -/
def Obligations.ParserCircuitIsEquivalent : Prop :=
  ∀ (ty : Ty) (str : List Byte) (radix : BitVec 6) (s : State),
    exec (.fromStrRadix ty str radix) s =
      finish .fromStrRadix ty (parseCircuit ty.signed (width s.config ty) radix.toNat str) s

/-- R216: any number of leading zeros, behind the sign if there is one, changes neither the value nor the cause of a parse
that has a character behind them; and a string of zeros only, of any length, parses to 0. -/
def Obligations.LeadingZerosDoNotMatter : Prop :=
  ∀ (ty : Ty) (neg : Bool) (zeros : Nat) (c : Byte) (digits : List Byte) (radix : BitVec 6) (s : State),
    (neg = true → ty.signed = true) → c ≠ 0x2D#8 → 0 < radix.toNat →
    okValue s (.fromStrRadix ty ((if neg then [0x2D#8] else []) ++ List.replicate (zeros + 1) 0x30#8) radix) = some 0#64 ∧
    exec (.fromStrRadix ty ((if neg then [0x2D#8] else []) ++ (List.replicate zeros 0x30#8 ++ c :: digits)) radix) s =
      exec (.fromStrRadix ty ((if neg then [0x2D#8] else []) ++ c :: digits) radix) s

/-- R222: for an unsigned type, where FROM_STR_RADIX answers OK with v, v is what the requester gets by folding
`acc <- ADD(MUL(acc, wrap(radix)), d[k])` from `zero` over the DIGIT responses of the characters. -/
def Obligations.ParseIsFoldOfDigits : Prop :=
  ∀ (ty : Ty) (str : List Byte) (radix : BitVec 6) (s : State) (v : Word),
    ty.signed = false → okValue s (.fromStrRadix ty str radix) = some v →
    str.foldl (fun acc c => acc.bind (fun x => (okValue s (.digit ty c radix)).bind (fun d =>
        (okValue s (.mul ty x (radix.setWidth 64))).bind (fun p => okValue s (.add ty p d)))))
      (some 0#64) = some v

/-- R214: the decimal text of every value v in range of a type, `-` before the digits when v is negative, parses at radix 10
to `wrap(v)`. -/
def Obligations.DecimalTextParses : Prop :=
  ∀ (ty : Ty) (s : State) (v : Int), inRange ty.signed (width s.config ty) v = true →
    let digits := if v = 0 then [0] else (Nat.digits 10 v.natAbs).reverse
    let text := (if v < 0 then [0x2D#8] else []) ++ digits.map (fun d => BitVec.ofNat 8 (0x30 + d))
    okValue s (.fromStrRadix ty text 10#6) = some (zext64 (wrap (width s.config ty) v))

/-- R231, R233, R234: CHECKED_POW answers OK exactly when every intermediate power val(a)^k, k = 1..n, is in range; where it
does, POW answers the same value; POW answers OK in any case, with the same pattern for the signed and the unsigned type of a
width. -/
def Obligations.CheckedPowIntermediates : Prop :=
  ∀ (ty : Ty) (a : Word) (n : BitVec 32) (s : State),
    let w := width s.config ty
    let x := val ty.signed (a.setWidth w)
    ((okValue s (.checkedPow ty a n)).isSome = true ↔
      ∀ k, 1 ≤ k → k ≤ n.toNat → inRange ty.signed w (x ^ k) = true) ∧
    (∀ v, okValue s (.checkedPow ty a n) = some v → okValue s (.pow ty a n) = some v) ∧
    (okValue s (.pow ty a n)).isSome = true ∧
    okValue s (.pow ⟨true, ty.wsel⟩ a n) = okValue s (.pow ⟨false, ty.wsel⟩ a n)

/-! ## The requester's assembler and scripts -/

/-- Resting on R87, the lines of R85 and the string literals of R86: for each of the ten types, the text `from_str.<type> str` parses
to the line that the text `from_str_radix.<type> str, 10` parses to, with or without a comment behind it, and that line
assembles to the frame of FROM_STR_RADIX with the literal's bytes and radix 10. A literal spells each byte as `\xHH` in either
case, as an escape, or as its ASCII character. Two points are the model's choice: that the hexadecimal digits of an escape may
be of either case (log 13), and that a string longer than STRMAX, of anything below 2^32 bytes, is assembled (log 18). -/
def Obligations.FromStrAssemblesToRadixTen : Prop :=
  ∀ (cfg : Config) (sent : List Sent) (str : List Byte) (parts : List (List Char)) (tail : List Char),
    let hex (k : Nat) : List Char := ["0123456789abcdef".toList.getD k '0', "0123456789ABCDEF".toList.getD k '0']
    let escaped (c : Byte) : List (List Char) :=
      (hex (c.toNat / 16)).flatMap (fun h => (hex (c.toNat % 16)).map (fun l => ['\\', 'x', h, l]))
    let spellings (c : Byte) : List (List Char) :=
      escaped c ++
        (if c = 0x22#8 then [['\\', '"']] else if c = 0x5C#8 then [['\\', '\\']]
         else if c.toNat < 128 then [[Char.ofNat c.toNat]] else [])
    let literal : List Char := ' ' :: '"' :: parts.flatten ++ ['"']
    str.length < 2 ^ 32 → List.Forall₂ (fun c part => part ∈ spellings c) str parts →
    (tail = [] ∨ tail.head? = some ';') →
    ∀ p ∈ ([("i8", ⟨true, .w8⟩), ("i16", ⟨true, .w16⟩), ("i32", ⟨true, .w32⟩), ("i64", ⟨true, .w64⟩), ("isize", ⟨true, .ptr⟩),
        ("u8", ⟨false, .w8⟩), ("u16", ⟨false, .w16⟩), ("u32", ⟨false, .w32⟩), ("u64", ⟨false, .w64⟩),
        ("usize", ⟨false, .ptr⟩)] : List (String × Ty)),
      ∃ l : Line,
        parseLine ("from_str.".toList ++ p.1.toList ++ literal ++ tail) = .ok (some l) ∧
        parseLine ("from_str_radix.".toList ++ p.1.toList ++ literal ++ ", 10".toList ++ tail) = .ok (some l) ∧
        assemble cfg sent l = .ok (encode (.fromStrRadix p.2 str 10#6))

/-- R86: the assembler cannot produce a non-canonical operand: where the responses it binds are canonical, a frame it
assembles fails none of K1 to K7, K10 and K11. That a string longer than STRMAX is written, and fails K9, is the model's choice
(log 18). -/
def Obligations.AssembledFrameChecks : Prop :=
  ∀ (cfg : Config) (sent : List Sent) (l : Line) (f : Frame),
    (∀ p ∈ sent, p.response.cause = 0#4 → canonical (width cfg p.ty) p.response.word1 = true) →
    assemble cfg sent l = .ok f →
    ∀ k : Check, k.fails cfg f = true → k = .k8 ∨ k = .k9

/-- Resting on R88 and R290: a script run on an idle engine leaves it idle, and the engine has emitted exactly the responses of
the requests the script sent, in order. That the script ends early at any line that does not assemble, and takes each response
before it assembles the next line, is the model's choice (log 14), and which failed response ends it is read from R88 (log 19);
the clause on when it ran to its end rests on both. -/
def Obligations.ScriptLeavesEngineIdle : Prop :=
  ∀ (ls : List Line) (sent : List Sent) (s : State), s.config.legal = true → s.pending = [] →
    ∃ more : List Sent, (runScript ls sent s).sent = sent ++ more ∧ more.length ≤ ls.length ∧
      (runScript ls sent s).final = { s with emitted := s.emitted ++ more.map Sent.response } ∧
      ((runScript ls sent s).stopped = none ↔ more.length = ls.length)

/-- Resting on R88: a script that starts with no request sent stops at a failed response that a later line names, that response
being its last and no line behind it being sent; and a stop for a failed binding happens nowhere else. That "needed" means
named by any later line of the script is the model's inference (log 19, DEDUCED). -/
def Obligations.ScriptStopsAtNeededFailure : Prop :=
  ∀ (ls : List Line) (s : State), s.config.legal = true → s.pending = [] →
    let run := runScript ls [] s
    (∀ (k : Nat) (p : Sent), run.sent[k]? = some p → p.response.cause ≠ 0#4 → (∃ l ∈ ls.drop (k + 1), k ∈ l.bindings) →
      run.sent.length = k + 1 ∧ run.stopped = some .bindingFailed ∧ run.final.emitted.getLast? = some p.response) ∧
    (run.stopped = some .bindingFailed →
      ∃ (k : Nat) (p : Sent), run.sent.length = k + 1 ∧ run.sent[k]? = some p ∧ p.response.cause ≠ 0#4 ∧
        ∃ l ∈ ls.drop (k + 1), k ∈ l.bindings)
end

