-- ==== Sys2Proof/Laws/Assembler.lean ====
section
/-! SUPPORT. What the string reader of the assembler takes from the front of a literal, one lemma per spelling of R86. -/

namespace Sys2Proof.Machine

@[simp] theorem scanString_quote (rest : List Char) : scanString ('"' :: rest) = some ([], rest) := rfl

@[simp] theorem scanString_escapedBackslash (rest : List Char) :
    scanString ('\\' :: '\\' :: rest) = (scanString rest).map (fun p => (0x5C#8 :: p.1, p.2)) := rfl

@[simp] theorem scanString_escapedQuote (rest : List Char) :
    scanString ('\\' :: '"' :: rest) = (scanString rest).map (fun p => (0x22#8 :: p.1, p.2)) := rfl

theorem scanString_escapedByte {h l : Char} {k : Nat} (hk : hexOf [h, l] = some k) (rest : List Char) :
    scanString ('\\' :: 'x' :: h :: l :: rest) =
      (scanString rest).map (fun p => (BitVec.ofNat 8 k :: p.1, p.2)) := by
  simp [scanString, hk]

theorem scanString_plain {c : Char} (hq : c ≠ '"') (hb : c ≠ '\\') (hc : c.toNat < 128) (rest : List Char) :
    scanString (c :: rest) = (scanString rest).map (fun p => (BitVec.ofNat 8 c.toNat :: p.1, p.2)) := by
  rw [scanString] <;> simp_all

/-- What reading an operand word gives, from what its reader makes of the text up to the next delimiter (R85). -/
theorem readWord_eq {α : Type} {read : List Char → Option α} {cs : List Char} {v : α}
    (h : read ((skipBlanks cs).takeWhile (fun c => !isDelimiter c)) = some v) :
    readWord read cs = some (v, (skipBlanks cs).dropWhile (fun c => !isDelimiter c)) := by
  simp [readWord, h]

/-- A line assembled from what `from_str` reads is the frame of FROM_STR_RADIX with radix 10 (R87). -/
theorem assemble_fromStrLine (cfg : Config) (sent : List Sent) (ty : Ty) {str : List Byte} (h : str.length < 2 ^ 32) :
    assemble cfg sent (fromStrLine ty str) = .ok (encode (.fromStrRadix ty str 10#6)) := by
  have h : str.length < 4294967296 := h
  simp [assemble, fromStrLine, Opcode.format, encode, h]

end Sys2Proof.Machine
end

