-- ==== Sys2Proof/Laws/Operands.lean ====
section
/-! SUPPORT. What the readings of patterns and the operand forms of Machine/Operands.lean are, each said once. -/

namespace Sys2Proof.Machine

/-! ## Widths and canonical words -/

theorem width_cases (cfg : Config) (ty : Ty) :
    width cfg ty = 8 ∨ width cfg ty = 16 ∨ width cfg ty = 32 ∨ width cfg ty = 64 := by
  obtain ⟨ptrw, order, strmax⟩ := cfg
  obtain ⟨sg, wsel⟩ := ty
  cases wsel <;> cases ptrw <;> simp [width, PtrWidth.bits]

theorem width_pos (cfg : Config) (ty : Ty) : 0 < width cfg ty := by
  rcases width_cases cfg ty with h | h | h | h <;> omega

theorem eight_le_width (cfg : Config) (ty : Ty) : 8 ≤ width cfg ty := by
  rcases width_cases cfg ty with h | h | h | h <;> omega

theorem width_le_64 (cfg : Config) (ty : Ty) : width cfg ty ≤ 64 := by
  rcases width_cases cfg ty with h | h | h | h <;> omega

/-- Every width is a whole number of bytes (R164). -/
theorem eight_dvd_width (cfg : Config) (ty : Ty) : 8 ∣ width cfg ty := by
  rcases width_cases cfg ty with h | h | h | h <;> omega

theorem canonical_iff (w : Nat) (a : Word) : canonical w a = true ↔ a.toNat < 2 ^ w := by
  simp [canonical]

/-- At W = 64 every word is canonical (R66). -/
theorem canonical_64 (a : Word) : canonical 64 a = true := by
  simp [canonical, a.isLt]

theorem zext64_toNat {w : Nat} (p : BitVec w) (h : w ≤ 64) : (zext64 p).toNat = p.toNat := by
  have := Nat.pow_le_pow_right (n := 2) (by omega) h
  simp [zext64, BitVec.toNat_setWidth, Nat.mod_eq_of_lt (Nat.lt_of_lt_of_le p.isLt this)]

/-- A result is canonical, so that it can be sent back as an operand (R72). -/
theorem canonical_zext64 {w : Nat} (p : BitVec w) (h : w ≤ 64) : canonical w (zext64 p) = true := by
  simp [canonical, zext64_toNat p h, p.isLt]

/-- Sending a result back as an operand of the same width reads the same pattern (R72). -/
@[simp] theorem pattern_zext64 {w : Nat} (p : BitVec w) (h : w ≤ 64) : pattern w (zext64 p) = p := by
  apply BitVec.eq_of_toNat_eq
  simp only [pattern, BitVec.toNat_setWidth, zext64_toNat p h]
  exact Nat.mod_eq_of_lt p.isLt

/-- A canonical word is the zero extension of its pattern (R66). -/
theorem zext64_pattern {w : Nat} {a : Word} (h : canonical w a = true) : zext64 (pattern w a) = a := by
  rw [canonical_iff] at h
  apply BitVec.eq_of_toNat_eq
  simp only [zext64, pattern, BitVec.toNat_setWidth, Nat.mod_eq_of_lt h]
  exact Nat.mod_eq_of_lt a.isLt

/-! ## Values -/

@[simp] theorem val_unsigned {w : Nat} (x : BitVec w) : val false x = x.toNat := rfl

@[simp] theorem val_signed {w : Nat} (x : BitVec w) : val true x = x.toInt := rfl

/-- Both readings of a pattern wrap to the pattern (R10). -/
@[simp] theorem wrap_val (sg : Bool) {w : Nat} (x : BitVec w) : wrap w (val sg x) = x := by
  cases sg <;> simp [wrap]

theorem toNat_wrap (w : Nat) (z : Int) : ((wrap w z).toNat : Int) = z % 2 ^ w := by
  simp only [wrap, BitVec.toNat_ofInt]
  rw [Int.toNat_of_nonneg (Int.emod_nonneg _ (by positivity))]
  simp

/-- `wrap(z)` is the pattern whose unsigned reading is congruent to z (R10). -/
theorem wrap_eq_iff (w : Nat) (z : Int) (p : BitVec w) : wrap w z = p ↔ (p.toNat : Int) ≡ z [ZMOD 2 ^ w] := by
  have hp : (p.toNat : Int) % 2 ^ w = p.toNat :=
    Int.emod_eq_of_lt (by positivity) (by exact_mod_cast p.isLt)
  constructor
  · rintro rfl
    rw [toNat_wrap]
    exact Int.mod_modEq z _
  · intro h
    apply BitVec.eq_of_toNat_eq
    have := toNat_wrap w z
    rw [← h.eq, hp] at this
    exact_mod_cast this

/-- Congruent numbers wrap to the same pattern. -/
theorem wrap_congr {w : Nat} {y z : Int} (h : y ≡ z [ZMOD 2 ^ w]) : wrap w y = wrap w z := by
  rw [wrap_eq_iff, toNat_wrap]
  exact (Int.mod_modEq z _).trans h.symm

/-- The value of a pattern is congruent to its unsigned reading, for either signedness (R10). -/
theorem val_modEq (sg : Bool) {w : Nat} (x : BitVec w) : val sg x ≡ (x.toNat : Int) [ZMOD 2 ^ w] :=
  ((wrap_eq_iff w (val sg x) x).1 (wrap_val sg x)).symm

theorem minv_le_val (sg : Bool) {w : Nat} (x : BitVec w) : minv sg w ≤ val sg x := by
  cases sg
  · simp [minv]
  · simpa [minv] using BitVec.le_toInt x

theorem val_le_maxv (sg : Bool) {w : Nat} (x : BitVec w) : val sg x ≤ maxv sg w := by
  cases sg
  · have : ((x.toNat : Int)) < 2 ^ w := by exact_mod_cast x.isLt
    simp only [maxv, val]; simp; omega
  · have := BitVec.toInt_lt (x := x)
    simp only [maxv, val]; simp; omega

theorem inRange_iff (sg : Bool) (w : Nat) (z : Int) : inRange sg w z = true ↔ minv sg w ≤ z ∧ z ≤ maxv sg w := by
  simp [inRange]

theorem inRange_val (sg : Bool) {w : Nat} (x : BitVec w) : inRange sg w (val sg x) = true :=
  (inRange_iff sg w _).2 ⟨minv_le_val sg x, val_le_maxv sg x⟩

theorem two_pow_eq_double (w : Nat) (h : 0 < w) : (2 : Int) ^ w = 2 * 2 ^ (w - 1) := by
  conv_lhs => rw [show w = (w - 1) + 1 by omega, pow_succ]
  ring

/-- A number in range is read back from its pattern unchanged (R10). -/
theorem val_wrap {sg : Bool} {w : Nat} (h : 0 < w) {z : Int} (hz : inRange sg w z = true) : val sg (wrap w z) = z := by
  have hz := (inRange_iff sg w z).1 hz
  have h2 := two_pow_eq_double w h
  have hpos : (0 : Int) < 2 ^ (w - 1) := by positivity
  cases sg
  · simp only [minv, maxv, Bool.false_eq_true, if_false] at hz
    rw [val_unsigned, toNat_wrap]
    exact Int.emod_eq_of_lt hz.1 (by omega)
  · simp only [minv, maxv, if_true] at hz
    rw [val_signed, wrap, BitVec.toInt_ofInt]
    apply Int.bmod_eq_of_le <;> push_cast <;> omega

theorem ofBool_eq (w : Nat) (c : Bool) : ofBool w c = wrap w (if c then 1 else 0) := rfl

/-! ## Bit by bit -/

theorem natOfBits_lt (f : Nat → Bool) (k : Nat) : natOfBits f k < 2 ^ k := by
  induction k with
  | zero => simp [natOfBits]
  | succ k ih => simp only [natOfBits, pow_succ]; split <;> omega

theorem testBit_natOfBits (f : Nat → Bool) (k i : Nat) : (natOfBits f k).testBit i = (decide (i < k) && f i) := by
  induction k with
  | zero => simp [natOfBits]
  | succ k ih =>
    simp only [natOfBits]
    have hlt := natOfBits_lt f k
    by_cases hf : f k = true
    · have h1 := Nat.testBit_two_pow_mul_add 1 hlt i
      rw [Nat.mul_one] at h1
      rw [if_pos hf, Nat.add_comm, h1, ih]
      rcases Nat.lt_trichotomy i k with h | h | h
      · simp [h, Nat.lt_succ_of_lt h]
      · subst h; simp [hf]
      · have : (1 : Nat).testBit (i - k) = false := by
          rw [show i - k = (i - k - 1) + 1 by omega, Nat.testBit_succ]; simp
        simp [show ¬ i < k by omega, show ¬ i < k + 1 by omega, this]
    · rw [if_neg hf, Nat.add_zero, ih]
      rcases Nat.lt_trichotomy i k with h | h | h
      · simp [h, Nat.lt_succ_of_lt h]
      · subst h; simp [hf]
      · simp [show ¬ i < k by omega, show ¬ i < k + 1 by omega]

/-- The pattern a per-bit definition builds has exactly those bits. -/
@[simp] theorem getLsbD_ofBits (w : Nat) (f : Nat → Bool) (i : Nat) : (ofBits w f).getLsbD i = (decide (i < w) && f i) := by
  simp only [ofBits, BitVec.getLsbD_ofNat, testBit_natOfBits]
  cases decide (i < w) <;> simp

theorem getLsbD_pattern (w : Nat) (a : Word) (i : Nat) : (pattern w a).getLsbD i = (decide (i < w) && a.getLsbD i) := by
  simp [pattern, BitVec.getLsbD_setWidth]

end Sys2Proof.Machine
end

