-- ==== Sys2Proof/Laws/Decode.lean ====
section
/-! SUPPORT. The fields of a header the encoder writes (R61), the codes of opcodes and types (R64, R76), and the bytes of a
packed string (R69), each said once. -/

namespace Sys2Proof

/-! ## Codes -/

@[simp] theorem Opcode.ofCode_code (o : Opcode) : Opcode.ofCode o.code = some o := by cases o <;> decide

theorem Opcode.code_injective {o p : Opcode} (h : o.code = p.code) : o = p := by
  have := congrArg Opcode.ofCode h
  simpa using this

theorem Opcode.code_of_ofCode {c : BitVec 8} {o : Opcode} (h : Opcode.ofCode c = some o) : o.code = c := by
  have := List.find?_some h
  simpa using this

@[simp] theorem WidthSel.ofCode_code (k : WidthSel) : WidthSel.ofCode k.code = some k := by cases k <;> rfl

theorem WidthSel.code_of_ofCode {c : BitVec 3} {k : WidthSel} (h : WidthSel.ofCode c = some k) : k.code = c := by
  revert h; revert c; cases k <;> decide

/-- Each bit of a type code (R64). -/
theorem getLsbD_tyCode (ty : Ty) (i : Nat) :
    ty.code.getLsbD i = if i < 3 then ty.wsel.code.getLsbD i else decide (i = 3) && ty.signed := by
  rw [Ty.code, BitVec.getLsbD_append]
  by_cases h : i < 3
  · simp [h]
  · by_cases h3 : i = 3
    · subst h3; simp
    · simp [h, h3, show i - 3 ≠ 0 by omega]

/-! ## Header fields -/

/-- Each bit of a header word (R61). -/
theorem getLsbD_headerWord (op : BitVec 8) (ty : Ty) (radix : BitVec 6) (n : BitVec 32) (i : Nat) :
    (headerWord op ty radix n).getLsbD i =
      if i < 8 then op.getLsbD i else if i < 12 then ty.code.getLsbD (i - 8) else if i < 18 then radix.getLsbD (i - 12)
      else if i < 32 then false else n.getLsbD (i - 32) := by
  simp only [headerWord, BitVec.getLsbD_append, BitVec.getLsbD_zero]
  by_cases h1 : i < 8
  · simp [h1]
  · by_cases h2 : i < 12
    · simp [h1, h2, show i - 8 < 4 by omega]
    · by_cases h3 : i < 18
      · simp [h1, h2, h3, show ¬ i - 8 < 4 by omega, show i - 8 - 4 = i - 12 by omega, show i - 12 < 6 by omega]
      · by_cases h4 : i < 32
        · simp [h1, h2, h3, h4, show ¬ i - 8 < 4 by omega, show ¬ i - 8 - 4 < 6 by omega,
            show i - 8 - 4 - 6 < 14 by omega]
        · simp [h1, h2, h3, h4, show ¬ i - 8 < 4 by omega, show ¬ i - 8 - 4 < 6 by omega,
            show ¬ i - 8 - 4 - 6 < 14 by omega, show i - 8 - 4 - 6 - 14 = i - 32 by omega]

@[simp] theorem opField_headerWord (op : BitVec 8) (ty : Ty) (radix : BitVec 6) (n : BitVec 32) :
    opField (headerWord op ty radix n) = op := by
  apply BitVec.eq_of_getLsbD_eq
  intro i hi
  rw [opField, BitVec.getLsbD_extractLsb', getLsbD_headerWord]
  simp [hi]

@[simp] theorem tyField_headerWord (op : BitVec 8) (ty : Ty) (radix : BitVec 6) (n : BitVec 32) :
    tyField (headerWord op ty radix n) = ty.code := by
  apply BitVec.eq_of_getLsbD_eq
  intro i hi
  rw [tyField, BitVec.getLsbD_extractLsb', getLsbD_headerWord]
  simp [hi, show 8 + i < 12 by omega]

@[simp] theorem wselField_headerWord (op : BitVec 8) (ty : Ty) (radix : BitVec 6) (n : BitVec 32) :
    wselField (headerWord op ty radix n) = ty.wsel.code := by
  apply BitVec.eq_of_getLsbD_eq
  intro i hi
  rw [wselField, BitVec.getLsbD_extractLsb', getLsbD_headerWord]
  simp [hi, show 8 + i < 12 by omega, getLsbD_tyCode]

@[simp] theorem sgnField_headerWord (op : BitVec 8) (ty : Ty) (radix : BitVec 6) (n : BitVec 32) :
    sgnField (headerWord op ty radix n) = ty.signed := by
  rw [sgnField, getLsbD_headerWord]
  simp only [Nat.reduceLT, Nat.reduceSub, if_true, if_false, getLsbD_tyCode]
  simp

@[simp] theorem radixField_headerWord (op : BitVec 8) (ty : Ty) (radix : BitVec 6) (n : BitVec 32) :
    radixField (headerWord op ty radix n) = radix := by
  apply BitVec.eq_of_getLsbD_eq
  intro i hi
  rw [radixField, BitVec.getLsbD_extractLsb', getLsbD_headerWord]
  simp [hi, show ¬ 12 + i < 8 by omega, show 12 + i < 18 by omega]

@[simp] theorem rsvField_headerWord (op : BitVec 8) (ty : Ty) (radix : BitVec 6) (n : BitVec 32) :
    rsvField (headerWord op ty radix n) = 0#14 := by
  apply BitVec.eq_of_getLsbD_eq
  intro i hi
  rw [rsvField, BitVec.getLsbD_extractLsb', getLsbD_headerWord]
  simp [show ¬ 18 + i < 8 by omega, show ¬ 18 + i < 12 by omega, show ¬ 18 + i < 18 by omega, show 18 + i < 32 by omega]

@[simp] theorem nField_headerWord (op : BitVec 8) (ty : Ty) (radix : BitVec 6) (n : BitVec 32) :
    nField (headerWord op ty radix n) = n := by
  apply BitVec.eq_of_getLsbD_eq
  intro i hi
  rw [nField, BitVec.getLsbD_extractLsb', getLsbD_headerWord]
  simp [hi, show ¬ 32 + i < 8 by omega, show ¬ 32 + i < 12 by omega, show ¬ 32 + i < 18 by omega]

@[simp] theorem tyOf_headerWord (op : BitVec 8) (ty : Ty) (radix : BitVec 6) (n : BitVec 32) :
    tyOf (headerWord op ty radix n) = some ty := by
  simp [tyOf]

/-- A header is made up of its fields (R61). -/
theorem headerWord_of_fields {h : Word} {ty : Ty} (hty : tyOf h = some ty) (hrsv : rsvField h = 0#14) :
    headerWord (opField h) ty (radixField h) (nField h) = h := by
  have hcode : ty.code = tyField h := by
    unfold tyOf at hty
    split at hty
    · rename_i k hk
      cases hty
      have hw := WidthSel.code_of_ofCode hk
      apply BitVec.eq_of_getLsbD_eq
      intro i hi
      simp only [Ty.code, hw, sgnField, wselField, tyField, BitVec.getLsbD_append, BitVec.getLsbD_extractLsb',
        BitVec.getLsbD_ofBool]
      rcases Nat.lt_or_ge i 3 with h3 | h3
      · simp [h3, hi]
      · have : i = 3 := by omega
        subst this; simp
    · cases hty
  apply BitVec.eq_of_getLsbD_eq
  intro i hi
  rw [getLsbD_headerWord, hcode]
  have hr : ∀ j, j < 14 → h.getLsbD (18 + j) = false := by
    intro j hj
    have := congrArg (fun x => x.getLsbD j) hrsv
    simpa [rsvField, BitVec.getLsbD_extractLsb', hj] using this
  simp only [opField, tyField, radixField, nField, BitVec.getLsbD_extractLsb']
  by_cases h1 : i < 8
  · simp [h1]
  · by_cases h2 : i < 12
    · simp [h1, h2, show i - 8 < 4 by omega, show 8 + (i - 8) = i by omega]
    · by_cases h3 : i < 18
      · simp [h1, h2, h3, show i - 12 < 6 by omega, show 12 + (i - 12) = i by omega]
      · by_cases h4 : i < 32
        · have := hr (i - 18) (by omega)
          rw [show 18 + (i - 18) = i by omega] at this
          simp [h1, h2, h3, h4, this]
        · simp [h1, h2, h3, h4, show i - 32 < 32 by omega, show 32 + (i - 32) = i by omega]

/-! ## Packed strings -/

@[simp] theorem packString_length (str : List Byte) : (packString str).length = (str.length + 7) / 8 := by
  simp [packString, stringWords]

theorem packString_getD (str : List Byte) (j : Nat) (hj : j < (str.length + 7) / 8) :
    (packString str).getD j 0#64 = packedWord str j := by
  simp [packString, stringWords, List.getD, hj]

/-- Byte k of a packed word (R69). -/
theorem packedWord_byte (str : List Byte) (j k : Nat) (hk : k < 8) :
    (packedWord str j).extractLsb' (8 * k) 8 = str.getD (8 * j + k) 0#8 := by
  apply BitVec.eq_of_getLsbD_eq
  intro i hi
  rw [BitVec.getLsbD_extractLsb', packedWord, Machine.getLsbD_ofBits]
  simp [hi, show 8 * k + i < 64 by omega, show (8 * k + i) / 8 = k by omega, show (8 * k + i) % 8 = i by omega]

/-- Two words with the same eight bytes are the same word (R9). -/
theorem word_eq_of_bytes {x y : Word} (h : ∀ k, k < 8 → x.extractLsb' (8 * k) 8 = y.extractLsb' (8 * k) 8) : x = y := by
  apply BitVec.eq_of_getLsbD_eq
  intro i hi
  have := congrArg (fun z => z.getLsbD (i % 8)) (h (i / 8) (by omega))
  simpa [BitVec.getLsbD_extractLsb', Nat.mod_lt, show 8 * (i / 8) + i % 8 = i by omega] using this

/-- The command of an opcode has that opcode and the type it is given (R79). -/
@[simp] theorem commandOf_opcode (op : Opcode) (ty : Ty) (f : Frame) : (commandOf op ty f).opcode = op := by
  cases op <;> rfl

@[simp] theorem commandOf_ty (op : Opcode) (ty : Ty) (f : Frame) : (commandOf op ty f).ty = ty := by
  cases op <;> rfl

/-- What a successful decode says: no check fails, and the command is the frame's (R79). -/
theorem decode_eq_ok {cfg : Config} {f : Frame} {i : Instr} (h : decode cfg f = .ok i) :
    (∀ k : Check, k.fails cfg f = false) ∧
    ∃ op ty, Opcode.ofCode (opField (headerOf f)) = some op ∧ tyOf (headerOf f) = some ty ∧ i = commandOf op ty f := by
  unfold decode at h
  split at h
  · cases h
  · rename_i hn
    refine ⟨fun k => ?_, ?_⟩
    · have := List.find?_eq_none.1 hn k (by cases k <;> decide)
      simpa using this
    · split at h
      · rename_i op ty hop hty
        cases h
        exact ⟨op, ty, hop, hty, rfl⟩
      · cases h
      · cases h

/-- A frame that fails no check decodes (R78, R79). -/
theorem decode_of_checks {cfg : Config} {f : Frame} {op : Opcode} {ty : Ty} (h : ∀ k : Check, k.fails cfg f = false)
    (hop : Opcode.ofCode (opField (headerOf f)) = some op) (hty : tyOf (headerOf f) = some ty) :
    decode cfg f = .ok (commandOf op ty f) := by
  have hn : failedCheck cfg f = none := by
    rw [failedCheck, List.find?_eq_none]
    intro k _
    simp [h k]
  simp [decode, hn, hop, hty]

/-- A frame that fails a check is refused (R75, R78). -/
theorem decode_of_fails {cfg : Config} {f : Frame} {k : Check} (h : k.fails cfg f = true) :
    ∃ k', decode cfg f = .error k' := by
  cases hd : decode cfg f with
  | error k' => exact ⟨k', rfl⟩
  | ok i => rw [(decode_eq_ok hd).1 k] at h; cases h

end Sys2Proof
end

