-- ==== Sys2Proof/Laws/Ops.lean ====
section
/-! SUPPORT. What each shared operation and each detector can do, said once: the responses (R71, R72, R250), the detectors
(R124, R194, R232), the bit searches and permutations (R142, R143, R164), the power loop (R231) and the parser (R212, R213). -/

namespace Sys2Proof.Machine

/-! ## Causes and responses -/

@[simp] theorem Cause.ofCode_code (c : Cause) : Cause.ofCode c.code = some c := by cases c <;> rfl

theorem Cause.code_of_ofCode {k : BitVec 4} {c : Cause} (h : Cause.ofCode k = some c) : c.code = k := by
  revert h; revert k; cases c <;> decide

@[simp] theorem Cause.code_ne_zero (c : Cause) : c.code ≠ 0#4 := by cases c <;> decide

theorem Cause.code_le_six (c : Cause) : c.code.toNat ≤ 6 := by cases c <;> decide

/-- Each bit of a response's word 0 (R71). -/
theorem getLsbD_responseHeader (op : BitVec 8) (ty cause : BitVec 4) (i : Nat) :
    (responseHeader op ty cause).getLsbD i =
      if i < 4 then cause.getLsbD i else if i < 8 then false else if i < 16 then op.getLsbD (i - 8)
      else if i < 20 then ty.getLsbD (i - 16) else false := by
  simp only [responseHeader, BitVec.getLsbD_append, BitVec.getLsbD_zero]
  by_cases h1 : i < 4
  · simp [h1]
  · by_cases h2 : i < 8
    · simp [h1, h2, show i - 4 < 4 by omega]
    · by_cases h3 : i < 16
      · simp [h1, h2, h3, show ¬ i - 4 < 4 by omega, show i - 4 - 4 = i - 8 by omega, show i - 8 < 8 by omega]
      · by_cases h4 : i < 20
        · simp [h1, h2, h3, h4, show ¬ i - 4 < 4 by omega, show ¬ i - 4 - 4 < 8 by omega,
            show i - 4 - 4 - 8 = i - 16 by omega, show i - 16 < 4 by omega]
        · simp [h1, h2, h3, h4, show ¬ i - 4 < 4 by omega, show ¬ i - 4 - 4 < 8 by omega,
            show ¬ i - 4 - 4 - 8 < 4 by omega]

@[simp] theorem cause_responseHeader (op : BitVec 8) (ty cause : BitVec 4) :
    (responseHeader op ty cause).extractLsb' 0 4 = cause := by
  apply BitVec.eq_of_getLsbD_eq
  intro i hi
  rw [BitVec.getLsbD_extractLsb', getLsbD_responseHeader]
  simp [hi]

@[simp] theorem zeros_responseHeader (op : BitVec 8) (ty cause : BitVec 4) :
    (responseHeader op ty cause).extractLsb' 4 4 = 0#4 := by
  apply BitVec.eq_of_getLsbD_eq
  intro i hi
  rw [BitVec.getLsbD_extractLsb', getLsbD_responseHeader]
  simp [show ¬ 4 + i < 4 by omega, show 4 + i < 8 by omega]

@[simp] theorem opEcho_responseHeader (op : BitVec 8) (ty cause : BitVec 4) :
    (responseHeader op ty cause).extractLsb' 8 8 = op := by
  apply BitVec.eq_of_getLsbD_eq
  intro i hi
  rw [BitVec.getLsbD_extractLsb', getLsbD_responseHeader]
  simp [hi, show ¬ 8 + i < 4 by omega, show ¬ 8 + i < 8 by omega, show 8 + i < 16 by omega]

@[simp] theorem tyEcho_responseHeader (op : BitVec 8) (ty cause : BitVec 4) :
    (responseHeader op ty cause).extractLsb' 16 4 = ty := by
  apply BitVec.eq_of_getLsbD_eq
  intro i hi
  rw [BitVec.getLsbD_extractLsb', getLsbD_responseHeader]
  simp [hi, show ¬ 16 + i < 4 by omega, show ¬ 16 + i < 8 by omega, show ¬ 16 + i < 16 by omega,
    show 16 + i < 20 by omega]

@[simp] theorem highZeros_responseHeader (op : BitVec 8) (ty cause : BitVec 4) :
    (responseHeader op ty cause).extractLsb' 20 44 = 0#44 := by
  apply BitVec.eq_of_getLsbD_eq
  intro i hi
  rw [BitVec.getLsbD_extractLsb', getLsbD_responseHeader]
  simp [show ¬ 20 + i < 4 by omega, show ¬ 20 + i < 8 by omega, show ¬ 20 + i < 16 by omega,
    show ¬ 20 + i < 20 by omega]

@[simp] theorem cause_encodeResponse {w : Nat} (op : BitVec 8) (ty : BitVec 4) (ans : Answer w) :
    (encodeResponse op ty ans).cause = ans.causeCode := cause_responseHeader _ _ _

@[simp] theorem opEcho_encodeResponse {w : Nat} (op : BitVec 8) (ty : BitVec 4) (ans : Answer w) :
    (encodeResponse op ty ans).opEcho = op := opEcho_responseHeader _ _ _

@[simp] theorem tyEcho_encodeResponse {w : Nat} (op : BitVec 8) (ty : BitVec 4) (ans : Answer w) :
    (encodeResponse op ty ans).tyEcho = ty := tyEcho_responseHeader _ _ _

@[simp] theorem word1_encodeResponse {w : Nat} (op : BitVec 8) (ty : BitVec 4) (ans : Answer w) :
    (encodeResponse op ty ans).word1 = ans.valueWord := rfl

/-- Everything `respond` can do (R12). -/
theorem respond_eq {w : Nat} (op : Opcode) (ty : Ty) (p : BitVec w) (s : State) :
    respond op ty p s =
      .next { s with emitted := s.emitted ++ [{ word0 := responseHeader op.code ty.code 0#4, word1 := zext64 p }] } := rfl

/-- Everything `raise` can do (R12, R251). -/
theorem raise_eq (op : Opcode) (ty : Ty) (c : Cause) (s : State) :
    raise op ty c s =
      .next { s with emitted := s.emitted ++ [{ word0 := responseHeader op.code ty.code c.code, word1 := 0#64 }] } := rfl

/-- Everything `finish` can do: it responds or it raises (R72). -/
theorem finish_eq {w : Nat} (op : Opcode) (ty : Ty) (ans : Answer w) (s : State) :
    finish op ty ans s = match ans with
      | .ok p => respond op ty p s
      | .err c => raise op ty c s := by
  cases ans <;> rfl

/-! ## The detectors -/

theorem shiftOutOfRange_iff (w n : Nat) : shiftOutOfRange w n = true ↔ w ≤ n := by simp [shiftOutOfRange]

theorem divisionUndefined_iff (sg : Bool) {w : Nat} (x y : BitVec w) :
    divisionUndefined sg x y = true ↔
      val sg y = 0 ∨ (sg = true ∧ val sg x = minv sg w ∧ val sg y = -1) := by
  simp [divisionUndefined, and_assoc]

/-- A power of a base of magnitude at most 1 depends on the parity of the exponent (R230). -/
theorem pow_of_natAbs_le_one {v : Int} (hv : v.natAbs ≤ 1) (n : Nat) :
    v ^ n = if n = 0 then 1 else if n % 2 = 1 then v else v * v := by
  have hv : v = 0 ∨ v = 1 ∨ v = -1 := by omega
  rcases Nat.eq_zero_or_pos n with rfl | hn
  · simp
  · rw [if_neg (by omega)]
    rcases hv with rfl | rfl | rfl
    · rw [zero_pow (by omega)]; simp
    · simp
    · split
      · exact Odd.neg_one_pow (Nat.odd_iff.2 (by omega))
      · rw [Even.neg_one_pow (Nat.even_iff.2 (by omega))]; rfl

/-- A power with exponent W or more of a base of magnitude 2 or more is out of range (R232). -/
theorem not_inRange_pow (sg : Bool) {w n : Nat} {v : Int} (hw : 0 < w) (hv : 2 ≤ v.natAbs) (hn : w ≤ n) :
    inRange sg w (v ^ n) = false := by
  have h1 : (2 : Nat) ^ w ≤ v.natAbs ^ n :=
    (Nat.pow_le_pow_right (by omega) hn).trans (Nat.pow_le_pow_left hv n)
  rw [← Int.natAbs_pow] at h1
  have h2 := two_pow_eq_double w hw
  have h3 : ((2 : Nat) ^ w : Int) ≤ (v ^ n).natAbs := by exact_mod_cast h1
  have hpos : (0 : Int) < 2 ^ (w - 1) := by positivity
  rw [Bool.eq_false_iff, Ne, inRange_iff]
  push_cast at h3
  generalize v ^ n = z at h3 ⊢
  cases sg
  · simp only [minv, maxv, Bool.false_eq_true, if_false]
    rw [abs_eq_max_neg] at h3
    omega
  · simp only [minv, maxv, if_true]
    rw [abs_eq_max_neg] at h3
    omega

/-- `powerInRange` is the mathematical power where that is in range, and nothing where it is not (R232). -/
theorem powerInRange_eq (sg : Bool) {w : Nat} (hw : 0 < w) (v : Int) (n : Nat) :
    powerInRange sg w v n = if inRange sg w (v ^ n) then some (v ^ n) else none := by
  unfold powerInRange boundedPower
  by_cases hv : v.natAbs ≤ 1
  · rw [if_pos hv, ← pow_of_natAbs_le_one hv]
  · rw [if_neg hv]
    by_cases hn : w ≤ n
    · rw [if_pos hn, not_inRange_pow sg hw (by omega) hn]; simp
    · rw [if_neg hn]

/-! ## Bit searches and permutations -/

theorem highestSet_none {w : Nat} (x : BitVec w) (k : Nat) (h : highestSet x k = none) :
    ∀ j, j < k → x.getLsbD j = false := by
  induction k with
  | zero => intro j hj; omega
  | succ k ih =>
    simp only [highestSet] at h
    split at h
    · cases h
    · rename_i hk
      intro j hj
      rcases Nat.lt_or_eq_of_le (Nat.le_of_lt_succ hj) with hj | rfl
      · exact ih h j hj
      · simpa using hk

theorem highestSet_some {w : Nat} (x : BitVec w) (k i : Nat) (h : highestSet x k = some i) :
    i < k ∧ x.getLsbD i = true ∧ ∀ j, i < j → j < k → x.getLsbD j = false := by
  induction k with
  | zero => simp [highestSet] at h
  | succ k ih =>
    simp only [highestSet] at h
    split at h
    · rename_i hk
      cases h
      exact ⟨by omega, hk, fun j h1 h2 => by omega⟩
    · rename_i hk
      obtain ⟨h1, h2, h3⟩ := ih h
      refine ⟨by omega, h2, fun j hj1 hj2 => ?_⟩
      rcases Nat.lt_or_eq_of_le (Nat.le_of_lt_succ hj2) with hj | rfl
      · exact h3 j hj1 hj
      · simpa using hk

theorem lowestSet_none {w : Nat} (x : BitVec w) (h : lowestSet x = none) : ∀ j, j < w → x.getLsbD j = false := by
  intro j hj
  have := List.find?_eq_none.1 h j (List.mem_range.2 hj)
  simpa using this

theorem lowestSet_some {w : Nat} (x : BitVec w) (i : Nat) (h : lowestSet x = some i) :
    i < w ∧ x.getLsbD i = true ∧ ∀ j, j < i → x.getLsbD j = false := by
  have hi := List.mem_range.1 (List.mem_of_find?_eq_some h)
  refine ⟨hi, List.find?_some h, fun j hj => ?_⟩
  obtain ⟨-, as, bs, heq, hall⟩ := List.find?_eq_some_iff_append.1 h
  have hlen : as.length = i := by
    have h1 := congrArg (fun l => l[as.length]?) heq
    have hl : as.length < w := by
      have := congrArg List.length heq
      simp at this; omega
    simp [List.getElem?_range hl] at h1
    exact h1
  have hmem : j ∈ as := by
    have h1 := congrArg (fun l => l[j]?) heq
    simp only [List.getElem?_range (show j < w by omega), List.getElem?_append_left (show j < as.length by omega)] at h1
    exact List.mem_of_getElem? h1.symm
  simpa using hall j hmem

theorem getLsbD_swapBytes {w : Nat} (x : BitVec w) (i : Nat) :
    (swapBytes x).getLsbD i = (decide (i < w) && x.getLsbD (8 * (w / 8 - 1 - i / 8) + i % 8)) := by
  simp [swapBytes]

/-! ## The power loop -/

/-- Square and multiply computes `acc · base^n` for every exponent below 2^fuel. -/
theorem powLoop_eq {w : Nat} (fuel : Nat) (base acc : BitVec w) (n : Nat) (h : n < 2 ^ fuel) :
    powLoop fuel base acc n = acc * base ^ n := by
  induction fuel generalizing base acc n with
  | zero =>
    have : n = 0 := by simpa using h
    subst this; simp [powLoop]
  | succ fuel ih =>
    rw [powLoop, ih _ _ _ (by rw [pow_succ] at h; omega)]
    have hn : n = 2 * (n / 2) + n % 2 := by omega
    rw [← pow_two, ← pow_mul]
    conv_rhs => rw [hn, pow_add]
    rcases Nat.mod_two_eq_zero_or_one n with h0 | h1
    · rw [h0]; simp
    · rw [h1]; simp [mul_assoc, mul_left_comm, mul_comm]

/-- `powWrap` is the power of the pattern (R231). -/
theorem powWrap_eq {w : Nat} (x : BitVec w) (n : BitVec 32) : powWrap x n = x ^ n.toNat := by
  rw [powWrap, powLoop_eq _ _ _ _ n.isLt]; simp

theorem wrap_mul (w : Nat) (y z : Int) : wrap w (y * z) = wrap w y * wrap w z := by
  simp [wrap, BitVec.ofInt_mul]

theorem wrap_pow (w : Nat) (z : Int) (n : Nat) : wrap w (z ^ n) = wrap w z ^ n := by
  induction n with
  | zero => simp [wrap]
  | succ n ih => rw [pow_succ, wrap_mul, ih, pow_succ]

/-- `powWrap` is the wrapped power of the value, by either reading (R231). -/
theorem powWrap_eq_wrap (sg : Bool) {w : Nat} (x : BitVec w) (n : BitVec 32) :
    powWrap x n = wrap w (val sg x ^ n.toNat) := by
  rw [powWrap_eq, wrap_pow, wrap_val]

/-! ## The parser -/

theorem digitBelow_eq_some {radix : Nat} {c : Byte} {d : Nat} :
    digitBelow radix c = some d ↔ dig c = some d ∧ d < radix := by
  unfold digitBelow
  cases dig c with
  | none => simp
  | some e =>
    by_cases h : e < radix
    · simp only [if_pos h, Option.some.injEq]
      constructor
      · rintro rfl; exact ⟨rfl, h⟩
      · exact And.left
    · simp only [if_neg h, reduceCtorEq, Option.some.injEq, false_iff]
      rintro ⟨rfl, h'⟩; exact h h'

/-- The digit values of a sequence are those of its characters, in order (R213). -/
theorem digitValues_eq_some {radix : Nat} {cs : List Byte} {ds : List Nat} :
    digitValues radix cs = some ds ↔ List.Forall₂ (fun c d => digitBelow radix c = some d) cs ds := by
  induction cs generalizing ds with
  | nil => simp [digitValues, eq_comm]
  | cons c cs ih =>
    simp only [digitValues]
    cases hc : digitBelow radix c with
    | none =>
      simp only [reduceCtorEq, false_iff]
      intro h; cases h; simp_all
    | some d =>
      cases hcs : digitValues radix cs with
      | none =>
        simp only [reduceCtorEq, false_iff]
        intro h
        cases h with
        | cons _ h => rw [← ih, hcs] at h; cases h
      | some es =>
        simp only [Option.some.injEq]
        constructor
        · rintro rfl; exact .cons hc (ih.1 hcs)
        · intro h
          cases h with
          | cons h1 h2 =>
            rw [hc] at h1; cases h1
            rw [← ih, hcs] at h2; cases h2; rfl

theorem digitValues_eq_none {radix : Nat} {cs : List Byte} :
    digitValues radix cs = none ↔ ∃ c ∈ cs, digitBelow radix c = none := by
  induction cs with
  | nil => simp [digitValues]
  | cons c cs ih =>
    simp only [digitValues, List.mem_cons, exists_eq_or_imp, ← ih]
    cases digitBelow radix c <;> cases digitValues radix cs <;> simp

theorem magnitude_nil (radix : Nat) : magnitude radix [] = 0 := rfl

theorem magnitude_append (radix : Nat) (ds : List Nat) (d : Nat) :
    magnitude radix (ds ++ [d]) = magnitude radix ds * radix + d := by
  simp [magnitude]

theorem foldl_digits (radix : Nat) (ds : List Nat) (m : Nat) :
    ds.foldl (fun m d => m * radix + d) m = m * radix ^ ds.length + magnitude radix ds := by
  induction ds generalizing m with
  | nil => simp [magnitude]
  | cons d ds ih =>
    simp only [List.foldl_cons, magnitude, List.length_cons]
    rw [ih, ih (0 * radix + d)]
    ring

/-- The leading digit counts radix^(M−1) times (R213). -/
theorem magnitude_cons (radix d : Nat) (ds : List Nat) :
    magnitude radix (d :: ds) = d * radix ^ ds.length + magnitude radix ds := by
  have := foldl_digits radix ds (0 * radix + d)
  simpa [magnitude] using this

@[simp] theorem splitSign_nil (sg : Bool) : splitSign sg [] = (false, []) := rfl

theorem splitSign_minus (str : List Byte) : splitSign true (0x2D#8 :: str) = (true, str) := rfl

theorem splitSign_cons_of_ne (sg : Bool) {c : Byte} (h : c ≠ 0x2D#8) (str : List Byte) :
    splitSign sg (c :: str) = (false, c :: str) := by
  simp [splitSign, h]

theorem splitSign_unsigned (str : List Byte) : splitSign false str = (false, str) := by
  cases str <;> simp [splitSign]

end Sys2Proof.Machine
end

