-- ==== Sys2Proof/Laws/PerInstr.lean ====
section
/-! SUPPORT. What the header of every command's encoding holds: its opcode byte, its type code and a zero reserved field
(R61, R64, R76, R81). One lemma per instruction. -/

namespace Sys2Proof.Laws

/-- The encoding's header carries the command's opcode and type, and its reserved field is zero. -/
def HeaderFields.Statement (i : Instr) : Prop :=
  opField (headerOf (encode i)) = i.opcode.code ∧ tyField (headerOf (encode i)) = i.ty.code ∧
    rsvField (headerOf (encode i)) = 0#14

/-- A frame whose first word the encoder's header builder wrote has the fields it was given. -/
theorem header_fields_of_cons (op : Opcode) (ty : Ty) (radix : BitVec 6) (n : BitVec 32) (ws : List Word) :
    opField (headerOf (headerWord op.code ty radix n :: ws)) = op.code ∧
      tyField (headerOf (headerWord op.code ty radix n :: ws)) = ty.code ∧
      rsvField (headerOf (headerWord op.code ty radix n :: ws)) = 0#14 := by
  simp [headerOf]

theorem HeaderFields.min (ty : Ty) : HeaderFields.Statement (.min ty) :=
  header_fields_of_cons _ _ _ _ _

theorem HeaderFields.max (ty : Ty) : HeaderFields.Statement (.max ty) :=
  header_fields_of_cons _ _ _ _ _

theorem HeaderFields.bits (ty : Ty) : HeaderFields.Statement (.bits ty) :=
  header_fields_of_cons _ _ _ _ _

theorem HeaderFields.abs (ty : Ty) (a : Word) : HeaderFields.Statement (.abs ty a) :=
  header_fields_of_cons _ _ _ _ _

theorem HeaderFields.signum (ty : Ty) (a : Word) : HeaderFields.Statement (.signum ty a) :=
  header_fields_of_cons _ _ _ _ _

theorem HeaderFields.isPositive (ty : Ty) (a : Word) : HeaderFields.Statement (.isPositive ty a) :=
  header_fields_of_cons _ _ _ _ _

theorem HeaderFields.isNegative (ty : Ty) (a : Word) : HeaderFields.Statement (.isNegative ty a) :=
  header_fields_of_cons _ _ _ _ _

theorem HeaderFields.or (ty : Ty) (a : Word) (b : Word) : HeaderFields.Statement (.or ty a b) :=
  header_fields_of_cons _ _ _ _ _

theorem HeaderFields.and (ty : Ty) (a : Word) (b : Word) : HeaderFields.Statement (.and ty a b) :=
  header_fields_of_cons _ _ _ _ _

theorem HeaderFields.xor (ty : Ty) (a : Word) (b : Word) : HeaderFields.Statement (.xor ty a b) :=
  header_fields_of_cons _ _ _ _ _

theorem HeaderFields.not (ty : Ty) (a : Word) : HeaderFields.Statement (.not ty a) :=
  header_fields_of_cons _ _ _ _ _

theorem HeaderFields.shl (ty : Ty) (a : Word) (n : BitVec 32) : HeaderFields.Statement (.shl ty a n) :=
  header_fields_of_cons _ _ _ _ _

theorem HeaderFields.shr (ty : Ty) (a : Word) (n : BitVec 32) : HeaderFields.Statement (.shr ty a n) :=
  header_fields_of_cons _ _ _ _ _

theorem HeaderFields.countOnes (ty : Ty) (a : Word) : HeaderFields.Statement (.countOnes ty a) :=
  header_fields_of_cons _ _ _ _ _

theorem HeaderFields.countZeros (ty : Ty) (a : Word) : HeaderFields.Statement (.countZeros ty a) :=
  header_fields_of_cons _ _ _ _ _

theorem HeaderFields.leadingZeros (ty : Ty) (a : Word) : HeaderFields.Statement (.leadingZeros ty a) :=
  header_fields_of_cons _ _ _ _ _

theorem HeaderFields.trailingZeros (ty : Ty) (a : Word) : HeaderFields.Statement (.trailingZeros ty a) :=
  header_fields_of_cons _ _ _ _ _

theorem HeaderFields.rotateLeft (ty : Ty) (a : Word) (n : BitVec 32) : HeaderFields.Statement (.rotateLeft ty a n) :=
  header_fields_of_cons _ _ _ _ _

theorem HeaderFields.rotateRight (ty : Ty) (a : Word) (n : BitVec 32) : HeaderFields.Statement (.rotateRight ty a n) :=
  header_fields_of_cons _ _ _ _ _

theorem HeaderFields.swapBytes (ty : Ty) (a : Word) : HeaderFields.Statement (.swapBytes ty a) :=
  header_fields_of_cons _ _ _ _ _

theorem HeaderFields.reverseBits (ty : Ty) (a : Word) : HeaderFields.Statement (.reverseBits ty a) :=
  header_fields_of_cons _ _ _ _ _

theorem HeaderFields.toLe (ty : Ty) (a : Word) : HeaderFields.Statement (.toLe ty a) :=
  header_fields_of_cons _ _ _ _ _

theorem HeaderFields.fromLe (ty : Ty) (a : Word) : HeaderFields.Statement (.fromLe ty a) :=
  header_fields_of_cons _ _ _ _ _

theorem HeaderFields.toBe (ty : Ty) (a : Word) : HeaderFields.Statement (.toBe ty a) :=
  header_fields_of_cons _ _ _ _ _

theorem HeaderFields.fromBe (ty : Ty) (a : Word) : HeaderFields.Statement (.fromBe ty a) :=
  header_fields_of_cons _ _ _ _ _

theorem HeaderFields.add (ty : Ty) (a : Word) (b : Word) : HeaderFields.Statement (.add ty a b) :=
  header_fields_of_cons _ _ _ _ _

theorem HeaderFields.sub (ty : Ty) (a : Word) (b : Word) : HeaderFields.Statement (.sub ty a b) :=
  header_fields_of_cons _ _ _ _ _

theorem HeaderFields.neg (ty : Ty) (a : Word) : HeaderFields.Statement (.neg ty a) :=
  header_fields_of_cons _ _ _ _ _

theorem HeaderFields.mul (ty : Ty) (a : Word) (b : Word) : HeaderFields.Statement (.mul ty a b) :=
  header_fields_of_cons _ _ _ _ _

theorem HeaderFields.checkedDiv (ty : Ty) (a : Word) (b : Word) : HeaderFields.Statement (.checkedDiv ty a b) :=
  header_fields_of_cons _ _ _ _ _

theorem HeaderFields.pow (ty : Ty) (a : Word) (n : BitVec 32) : HeaderFields.Statement (.pow ty a n) :=
  header_fields_of_cons _ _ _ _ _

theorem HeaderFields.checkedPow (ty : Ty) (a : Word) (n : BitVec 32) : HeaderFields.Statement (.checkedPow ty a n) :=
  header_fields_of_cons _ _ _ _ _

theorem HeaderFields.digit (ty : Ty) (c : Byte) (radix : BitVec 6) : HeaderFields.Statement (.digit ty c radix) :=
  header_fields_of_cons _ _ _ _ _

theorem HeaderFields.fromStrRadix (ty : Ty) (str : List Byte) (radix : BitVec 6) :
    HeaderFields.Statement (.fromStrRadix ty str radix) :=
  header_fields_of_cons _ _ _ _ _

end Sys2Proof.Laws
end

