-- ==== Sys2Proof/Laws/Safety.lean ====
section
/-! SUPPORT. From a meaning's `respond` or `raise` to the terms the statements use, each said once. -/

namespace Sys2Proof.Machine

/-- Word 0 of an OK response as the statements write it (R71). -/
theorem responseHeader_ok (op : BitVec 8) (ty : BitVec 4) : responseHeader op ty 0#4 = 0#44 ++ ty ++ op ++ 0#8 := by
  apply BitVec.eq_of_getLsbD_eq
  intro i hi
  rw [getLsbD_responseHeader]
  simp only [BitVec.getLsbD_append, BitVec.getLsbD_zero]
  by_cases h1 : i < 8
  · by_cases h0 : i < 4 <;> simp [h1, h0]
  · by_cases h3 : i < 16
    · simp [h1, h3, show ¬ i < 4 by omega, show i - 8 < 8 by omega]
    · by_cases h4 : i < 20
      · simp [h1, h3, h4, show ¬ i < 4 by omega, show ¬ i - 8 < 8 by omega, show i - 8 - 8 = i - 16 by omega,
          show i - 16 < 4 by omega]
      · simp [h1, h3, h4, show ¬ i < 4 by omega, show ¬ i - 8 < 8 by omega, show ¬ i - 8 - 8 < 4 by omega]

/-- The header of a command with no radix as the statements write it (R61). -/
theorem headerWord_plain (n : BitVec 32) (ty : Ty) (op : BitVec 8) :
    headerWord op ty 0#6 n = n ++ 0#20 ++ ty.code ++ op := by
  apply BitVec.eq_of_getLsbD_eq
  intro i hi
  rw [getLsbD_headerWord]
  simp only [BitVec.getLsbD_append, BitVec.getLsbD_zero]
  by_cases h1 : i < 8
  · simp [h1]
  · by_cases h2 : i < 12
    · simp [h1, h2, show i - 8 < 4 by omega]
    · by_cases h4 : i < 32
      · by_cases h3 : i < 18 <;>
          simp [h1, h2, h3, h4, show ¬ i - 8 < 4 by omega, show i - 8 - 4 < 20 by omega]
      · simp [h1, h2, h4, show ¬ i < 18 by omega, show ¬ i - 8 < 4 by omega, show ¬ i - 8 - 4 < 20 by omega,
          show i - 8 - 4 - 20 = i - 32 by omega]

/-- The header of a character command as the statements write it (R61, R68). -/
theorem headerWord_digit (c : Byte) (radix : BitVec 6) (ty : Ty) (op : BitVec 8) :
    headerWord op ty radix (c.setWidth 32) = 0#24 ++ c ++ 0#14 ++ radix ++ ty.code ++ op := by
  apply BitVec.eq_of_getLsbD_eq
  intro i hi
  rw [getLsbD_headerWord]
  simp only [BitVec.getLsbD_append, BitVec.getLsbD_zero]
  by_cases h1 : i < 8
  · simp [h1]
  · by_cases h2 : i < 12
    · simp [h1, h2, show i - 8 < 4 by omega]
    · by_cases h3 : i < 18
      · simp [h1, h2, h3, show ¬ i - 8 < 4 by omega, show i - 8 - 4 = i - 12 by omega, show i - 12 < 6 by omega]
      · by_cases h4 : i < 32
        · simp [h1, h2, h3, h4, show ¬ i - 8 < 4 by omega, show ¬ i - 8 - 4 < 6 by omega,
            show i - 8 - 4 - 6 < 14 by omega]
        · by_cases h5 : i < 40
          · simp [h1, h2, h3, h4, show ¬ i - 8 < 4 by omega, show ¬ i - 8 - 4 < 6 by omega,
              show ¬ i - 8 - 4 - 6 < 14 by omega, show i - 8 - 4 - 6 - 14 = i - 32 by omega, show i - 32 < 8 by omega,
              show i - 32 < 32 by omega]
          · simp [h1, h2, h3, h4, show ¬ i - 8 < 4 by omega, show ¬ i - 8 - 4 < 6 by omega,
              show ¬ i - 8 - 4 - 6 < 14 by omega, show ¬ i - 8 - 4 - 6 - 14 < 8 by omega,
              show 8 ≤ i - 32 by omega]

/-- A meaning that responds answers OK. -/
theorem answersOk_of_respond {i : Instr} {f : Frame} {s : State} {op : Opcode} {ty : Ty} {w : Nat} {p : BitVec w}
    (hf : encode i = f) (hty : i.ty = ty) (h : exec i s = respond op ty p s) : AnswersOk i f s op.code p := by
  refine ⟨hf, ?_⟩
  rw [h, respond_eq, responseHeader_ok, hty]
  rfl

/-- A meaning that raises answers with that cause. -/
theorem answersErr_of_raise {i : Instr} {f : Frame} {s : State} {op : Opcode} {ty : Ty} {c : Cause}
    (hf : encode i = f) (hty : i.ty = ty) (h : exec i s = raise op ty c s) : AnswersErr i f s op.code c.code := by
  refine ⟨hf, ?_⟩
  rw [h, raise_eq, hty]
  rfl

theorem okValue_of_respond {i : Instr} {s : State} {op : Opcode} {ty : Ty} {w : Nat} {p : BitVec w}
    (h : exec i s = respond op ty p s) : okValue s i = some (zext64 p) := by
  simp [okValue, h, respond_eq, Response.cause]

theorem okValue_of_raise {i : Instr} {s : State} {op : Opcode} {ty : Ty} {c : Cause} (h : exec i s = raise op ty c s) :
    okValue s i = none := by
  simp [okValue, h, raise_eq, Response.cause]

@[simp] theorem typeOfCode_code (ty : Ty) : typeOfCode ty.code = some ty := by
  obtain ⟨sg, wsel⟩ := ty
  cases sg <;> cases wsel <;> decide

end Sys2Proof.Machine
end

