-- ==== Sys2Proof/Laws/Script.lean ====
section
/-! SUPPORT. How a script's run unfolds at each of its outcomes, and which lines need a response (R88). -/

namespace Sys2Proof.Machine

theorem neededBy_iff {ls : List Line} {k : Nat} : neededBy ls k = true ↔ ∃ l ∈ ls, k ∈ l.bindings := by
  simp [neededBy]

@[simp] theorem neededBy_nil (k : Nat) : neededBy [] k = false := rfl

/-- A binding fails only where the response it names was a failure (R88). -/
theorem boundValue_bindingFailed {sent : List Sent} {k : Nat} (h : boundValue sent k = .error .bindingFailed) :
    ∃ p, sent[k]? = some p ∧ p.response.cause ≠ 0#4 := by
  unfold boundValue at h
  split at h
  · cases h
  · rename_i p hp
    split at h
    · cases h
    · rename_i hc
      exact ⟨p, hp, by simpa using hc⟩

/-- What a binding that resolves says: request k was sent and answered OK (R88). -/
theorem boundValue_ok {sent : List Sent} {k : Nat} {p : Sent} (h : boundValue sent k = .ok p) :
    sent[k]? = some p ∧ p.response.cause = 0#4 := by
  unfold boundValue at h
  split at h
  · cases h
  · rename_i q hq
    split at h
    · rename_i hc
      cases h
      exact ⟨hq, by simpa using hc⟩
    · cases h

@[simp] theorem runScript_nil (sent : List Sent) (s : State) :
    runScript [] sent s = { sent := sent, final := s, stopped := none } := rfl

/-- A line that does not assemble stops the script before it (log 14). -/
theorem runScript_error {l : Line} {ls : List Line} {sent : List Sent} {s : State} {e : AsmError}
    (h : assemble s.config sent l = .error e) :
    runScript (l :: ls) sent s = { sent := sent, final := s, stopped := some e } := by
  simp [runScript, h]

/-- A failed response that a later line needs is the script's last (R88). -/
theorem runScript_neededFailure {l : Line} {ls : List Line} {sent : List Sent} {s t : State} {f : Frame} {r : Response}
    (ha : assemble s.config sent l = .ok f) (hr : sendRequest f s = some (t, r)) (hc : r.cause ≠ 0#4)
    (hn : neededBy ls sent.length = true) :
    runScript (l :: ls) sent s =
      { sent := sent ++ [{ ty := l.ty, response := r }], final := t, stopped := some .bindingFailed } := by
  simp [runScript, ha, hr, hc, hn]

/-- Any other response lets the script go on to its next line (R88). -/
theorem runScript_continue {l : Line} {ls : List Line} {sent : List Sent} {s t : State} {f : Frame} {r : Response}
    (ha : assemble s.config sent l = .ok f) (hr : sendRequest f s = some (t, r))
    (hc : r.cause = 0#4 ∨ neededBy ls sent.length = false) :
    runScript (l :: ls) sent s = runScript ls (sent ++ [{ ty := l.ty, response := r }]) t := by
  rcases hc with hc | hc <;> simp [runScript, ha, hr, hc]

end Sys2Proof.Machine
end

