-- ==== Sys2Proof/Laws/State.lean ====
section
/-! SUPPORT. One lemma per field per update of State, true by unfolding, so that no later proof unfolds a record update. -/

namespace Sys2Proof.Machine

@[simp] theorem emit_config (s : State) (r : Response) : (s.emit r).config = s.config := rfl
@[simp] theorem emit_pending (s : State) (r : Response) : (s.emit r).pending = s.pending := rfl
@[simp] theorem emit_emitted (s : State) (r : Response) : (s.emit r).emitted = s.emitted ++ [r] := rfl

@[simp] theorem takeRequest_config (s : State) : s.takeRequest.config = s.config := rfl
@[simp] theorem takeRequest_pending (s : State) : s.takeRequest.pending = s.pending.tail := rfl
@[simp] theorem takeRequest_emitted (s : State) : s.takeRequest.emitted = s.emitted := rfl

@[simp] theorem accept_config (f : Frame) (s : State) : (s.accept f).config = s.config := rfl
@[simp] theorem accept_pending (f : Frame) (s : State) : (s.accept f).pending = s.pending ++ [f] := rfl
@[simp] theorem accept_emitted (f : Frame) (s : State) : (s.accept f).emitted = s.emitted := rfl

@[simp] theorem applyReset_config (s : State) : s.applyReset.config = s.config := rfl
@[simp] theorem applyReset_pending (s : State) : s.applyReset.pending = [] := rfl
@[simp] theorem applyReset_emitted (s : State) : s.applyReset.emitted = s.emitted := rfl

@[simp] theorem withFetchWord_config (s : State) (nbits w : Nat) : (s.withFetchWord nbits w).config = s.config := rfl
@[simp] theorem withFetchWord_pending (s : State) (nbits w : Nat) :
    (s.withFetchWord nbits w).pending = frameOfBits s.config nbits w :: s.pending := rfl
@[simp] theorem withFetchWord_emitted (s : State) (nbits w : Nat) : (s.withFetchWord nbits w).emitted = s.emitted := rfl

@[simp] theorem reset_pending : State.reset.pending = [] := rfl
@[simp] theorem reset_emitted : State.reset.emitted = [] := rfl
@[simp] theorem reset_config : State.reset.config = Config.reference := rfl

theorem idle_iff (s : State) : s.idle = true ↔ s.pending = [] := by
  simp [State.idle]

theorem nextRequest_cons {s : State} {f : Frame} {rest : List Frame} (h : s.pending = f :: rest) :
    s.nextRequest = some f := by
  simp [State.nextRequest, h]

end Sys2Proof.Machine
end

