-- ==== Sys2Proof/Laws/Step.lean ====
section
/-! SUPPORT. How a step splits: the request it takes and the answer to it, each said once (R16, R26, R75). -/

namespace Sys2Proof.Machine

theorem takeRequest_eq {s : State} {f : Frame} {rest : List Frame} (h : s.pending = f :: rest) :
    s.takeRequest = { s with pending := rest } := by
  simp [State.takeRequest, h]

/-- With a request pending, a step answers that request (R16, R26). -/
theorem step_of_request {s : State} {f : Frame} {rest : List Frame} (hl : s.config.legal = true)
    (h : s.pending = f :: rest) : step s = answerFrame f { s with pending := rest } := by
  simp [step, hl, nextRequest_cons h, takeRequest_eq h]

/-- A frame that decodes is answered by its command (R79). -/
theorem answerFrame_ok {f : Frame} {s : State} {i : Instr} (h : decode s.config f = .ok i) :
    answerFrame f s = exec i s := by
  simp [answerFrame, h]

/-- A frame the decoder refuses is answered with IllegalRequest (R75). -/
theorem answerFrame_error {f : Frame} {s : State} {k : Check} (h : decode s.config f = .error k) :
    answerFrame f s = .next (s.emit (illegalResponse f)) := by
  simp [answerFrame, h]

theorem legal_iff (cfg : Config) : cfg.legal = true ↔ 65 ≤ cfg.strmax ∧ cfg.strmax ≤ 4294967295 := by
  simp [Config.legal]

/-! ## Environment -/

@[simp] theorem runEvents_nil (s : State) : runEvents [] s = .next s := rfl

@[simp] theorem runEvents_present (f : Frame) (es : List Event) (s : State) :
    runEvents (.present f :: es) s = runEvents es (s.accept f) := rfl

theorem runEvents_work {es : List Event} {s t : State} (h : step s = .next t) :
    runEvents (.work :: es) s = runEvents es t := by
  simp [runEvents, applyEvent, h]

/-- What sending one request answers (R284). -/
theorem sendRequest_eq {f : Frame} {s t : State} {r : Response} (h : step (s.accept f) = .next t)
    (hr : t.emitted = s.emitted ++ [r]) : sendRequest f s = some (t, r) := by
  simp [sendRequest, h, hr]

end Sys2Proof.Machine
end

