-- ==== Sys2Proof/Tests/Slice0.lean ====
section
/-! SUPPORT. The model's own tests. Expected results come from spec/: the examples of the rules and 95_test_vectors.md (a name
says which request), never from the model. Each test is one step,
one decoding or one well-formedness check; the last section
meets the hypotheses of every statement that has some. -/

namespace Sys2Proof.Tests

open Sys2Proof.Machine

/-- The response a step emits to one frame on an idle engine of a configuration; `none` when it is not exactly one. -/
def answerTo (cfg : Config) (f : Frame) : Option Response :=
  match step { config := cfg, pending := [f], emitted := [] } with
  | .next t =>
    match t.emitted with
    | [r] => if t.pending.isEmpty then some r else none
    | _ => none
  | _ => none

/-- The reference configuration with NATIVE_ORDER BE. -/
def bigEndian : Config := { Config.reference with nativeOrder := .be }

/-- The reference configuration with PTRW 32. -/
def ptr32 : Config := { Config.reference with ptrw := .w32 }

/-! ## Decoding: one frame per row, written out from the rule's encoding and example -/

theorem test_decode_min : decode Config.reference [0x800#64, 0x0#64, 0x0#64] =
    .ok (.min ⟨true, .w8⟩) := by decide

theorem test_decode_max : decode Config.reference [0x901#64, 0x0#64, 0x0#64] =
    .ok (.max ⟨true, .w16⟩) := by decide

theorem test_decode_bits : decode Config.reference [0x202#64, 0x0#64, 0x0#64] =
    .ok (.bits ⟨false, .w32⟩) := by decide

theorem test_decode_abs : decode Config.reference [0x810#64, 0xFB#64, 0x0#64] =
    .ok (.abs ⟨true, .w8⟩ 0xFB#64) := by decide

theorem test_decode_signum : decode Config.reference [0xA11#64, 0xFFFFFFF9#64, 0x0#64] =
    .ok (.signum ⟨true, .w32⟩ 0xFFFFFFF9#64) := by decide

theorem test_decode_is_positive : decode Config.reference [0x812#64, 0x0#64, 0x0#64] =
    .ok (.isPositive ⟨true, .w8⟩ 0#64) := by decide

theorem test_decode_is_negative : decode Config.reference [0x913#64, 0xFFFF#64, 0x0#64] =
    .ok (.isNegative ⟨true, .w16⟩ 0xFFFF#64) := by decide

theorem test_decode_or : decode Config.reference [0x20#64, 0xC#64, 0xA#64] =
    .ok (.or ⟨false, .w8⟩ 0xC#64 0xA#64) := by decide

theorem test_decode_and : decode Config.reference [0x21#64, 0xC#64, 0xA#64] =
    .ok (.and ⟨false, .w8⟩ 0xC#64 0xA#64) := by decide

theorem test_decode_xor : decode Config.reference [0x22#64, 0xC#64, 0xA#64] =
    .ok (.xor ⟨false, .w8⟩ 0xC#64 0xA#64) := by decide

theorem test_decode_not : decode Config.reference [0x823#64, 0x5#64, 0x0#64] =
    .ok (.not ⟨true, .w8⟩ 5#64) := by decide

theorem test_decode_shl : decode Config.reference [0x100000024#64, 0x81#64, 0x0#64] =
    .ok (.shl ⟨false, .w8⟩ 0x81#64 1#32) := by decide

theorem test_decode_shr : decode Config.reference [0x100000825#64, 0x80#64, 0x0#64] =
    .ok (.shr ⟨true, .w8⟩ 0x80#64 1#32) := by decide

theorem test_decode_count_ones : decode Config.reference [0x30#64, 0xB5#64, 0x0#64] =
    .ok (.countOnes ⟨false, .w8⟩ 0xB5#64) := by decide

theorem test_decode_count_zeros : decode Config.reference [0x31#64, 0xB5#64, 0x0#64] =
    .ok (.countZeros ⟨false, .w8⟩ 0xB5#64) := by decide

theorem test_decode_leading_zeros : decode Config.reference [0x132#64, 0xF0#64, 0x0#64] =
    .ok (.leadingZeros ⟨false, .w16⟩ 0xF0#64) := by decide

theorem test_decode_trailing_zeros : decode Config.reference [0x133#64, 0xF0#64, 0x0#64] =
    .ok (.trailingZeros ⟨false, .w16⟩ 0xF0#64) := by decide

theorem test_decode_rotate_left : decode Config.reference [0x900000040#64, 0x81#64, 0x0#64] =
    .ok (.rotateLeft ⟨false, .w8⟩ 0x81#64 9#32) := by decide

theorem test_decode_rotate_right : decode Config.reference [0x100000041#64, 0x81#64, 0x0#64] =
    .ok (.rotateRight ⟨false, .w8⟩ 0x81#64 1#32) := by decide

theorem test_decode_swap_bytes : decode Config.reference [0x242#64, 0x12345678#64, 0x0#64] =
    .ok (.swapBytes ⟨false, .w32⟩ 0x12345678#64) := by decide

theorem test_decode_reverse_bits : decode Config.reference [0x43#64, 0x1#64, 0x0#64] =
    .ok (.reverseBits ⟨false, .w8⟩ 1#64) := by decide

theorem test_decode_to_le : decode Config.reference [0x150#64, 0x1234#64, 0x0#64] =
    .ok (.toLe ⟨false, .w16⟩ 0x1234#64) := by decide

theorem test_decode_from_le : decode Config.reference [0x151#64, 0x1234#64, 0x0#64] =
    .ok (.fromLe ⟨false, .w16⟩ 0x1234#64) := by decide

theorem test_decode_to_be : decode Config.reference [0x252#64, 0x12345678#64, 0x0#64] =
    .ok (.toBe ⟨false, .w32⟩ 0x12345678#64) := by decide

theorem test_decode_from_be : decode Config.reference [0x253#64, 0x78563412#64, 0x0#64] =
    .ok (.fromBe ⟨false, .w32⟩ 0x78563412#64) := by decide

theorem test_decode_add : decode Config.reference [0x860#64, 0x7F#64, 0x1#64] =
    .ok (.add ⟨true, .w8⟩ 0x7F#64 1#64) := by decide

theorem test_decode_sub : decode Config.reference [0x61#64, 0x0#64, 0x1#64] =
    .ok (.sub ⟨false, .w8⟩ 0#64 1#64) := by decide

theorem test_decode_neg : decode Config.reference [0x862#64, 0x5#64, 0x0#64] =
    .ok (.neg ⟨true, .w8⟩ 5#64) := by decide

theorem test_decode_mul : decode Config.reference [0x863#64, 0x64#64, 0x2#64] =
    .ok (.mul ⟨true, .w8⟩ 0x64#64 2#64) := by decide

theorem test_decode_checked_div : decode Config.reference [0xA64#64, 0xA#64, 0x2#64] =
    .ok (.checkedDiv ⟨true, .w32⟩ 0xA#64 2#64) := by decide

theorem test_decode_pow : decode Config.reference [0x300000865#64, 0xFE#64, 0x0#64] =
    .ok (.pow ⟨true, .w8⟩ 0xFE#64 3#32) := by decide

theorem test_decode_checked_pow : decode Config.reference [0x700000866#64, 0x2#64, 0x0#64] =
    .ok (.checkedPow ⟨true, .w8⟩ 2#64 7#32) := by decide

theorem test_decode_digit : decode Config.reference [0x7A00024070#64, 0x0#64, 0x0#64] =
    .ok (.digit ⟨false, .w8⟩ 0x7A#8 36#6) := by decide

theorem test_decode_from_str_radix : decode Config.reference [0x400010171#64, 0x0#64, 0x0#64, 0x66666666#64] =
    .ok (.fromStrRadix ⟨false, .w16⟩ [0x66#8, 0x66#8, 0x66#8, 0x66#8] 16#6) := by decide

/-! ## One step per request (95_test_vectors.md) -/

theorem test_min_i8 : answerTo Config.reference [0x800#64, 0x0#64, 0x0#64] =
    some ⟨0x80000#64, 0x80#64⟩ := by decide

theorem test_min_usize : answerTo Config.reference [0x400#64, 0x0#64, 0x0#64] =
    some ⟨0x40000#64, 0x0#64⟩ := by decide

theorem test_max_i16 : answerTo Config.reference [0x901#64, 0x0#64, 0x0#64] =
    some ⟨0x90100#64, 0x7FFF#64⟩ := by decide

theorem test_max_u64 : answerTo Config.reference [0x301#64, 0x0#64, 0x0#64] =
    some ⟨0x30100#64, 0xFFFFFFFFFFFFFFFF#64⟩ := by decide

theorem test_bits_u32 : answerTo Config.reference [0x202#64, 0x0#64, 0x0#64] =
    some ⟨0x20200#64, 0x20#64⟩ := by decide

theorem test_bits_isize : answerTo Config.reference [0xC02#64, 0x0#64, 0x0#64] =
    some ⟨0xC0200#64, 0x40#64⟩ := by decide

theorem test_abs_i8_0xfb : answerTo Config.reference [0x810#64, 0xFB#64, 0x0#64] =
    some ⟨0x81000#64, 0x5#64⟩ := by decide

theorem test_abs_i8_0x80 : answerTo Config.reference [0x810#64, 0x80#64, 0x0#64] =
    some ⟨0x81000#64, 0x80#64⟩ := by decide

theorem test_signum_i8_0x80 : answerTo Config.reference [0x811#64, 0x80#64, 0x0#64] =
    some ⟨0x81100#64, 0xFF#64⟩ := by decide

theorem test_signum_u8_0xff : answerTo Config.reference [0x11#64, 0xFF#64, 0x0#64] =
    some ⟨0x1100#64, 0x1#64⟩ := by decide

theorem test_is_positive_i8_0x80 : answerTo Config.reference [0x812#64, 0x80#64, 0x0#64] =
    some ⟨0x81200#64, 0x0#64⟩ := by decide

theorem test_is_positive_u8_0x80 : answerTo Config.reference [0x12#64, 0x80#64, 0x0#64] =
    some ⟨0x1200#64, 0x1#64⟩ := by decide

theorem test_is_negative_i8_0xff : answerTo Config.reference [0x813#64, 0xFF#64, 0x0#64] =
    some ⟨0x81300#64, 0x1#64⟩ := by decide

theorem test_is_negative_u8_0xff : answerTo Config.reference [0x13#64, 0xFF#64, 0x0#64] =
    some ⟨0x1300#64, 0x0#64⟩ := by decide

theorem test_or_i16_0x8000_1 : answerTo Config.reference [0x920#64, 0x8000#64, 0x1#64] =
    some ⟨0x92000#64, 0x8001#64⟩ := by decide

theorem test_or_u8_0xf0_0xf : answerTo Config.reference [0x20#64, 0xF0#64, 0xF#64] =
    some ⟨0x2000#64, 0xFF#64⟩ := by decide

theorem test_and_i32_0xffff0000_0xffff00 : answerTo Config.reference [0xA21#64, 0xFFFF0000#64, 0xFFFF00#64] =
    some ⟨0xA2100#64, 0xFF0000#64⟩ := by decide

theorem test_xor_u8_0xb5_0xff : answerTo Config.reference [0x22#64, 0xB5#64, 0xFF#64] =
    some ⟨0x2200#64, 0x4A#64⟩ := by decide

theorem test_not_u16_0xff : answerTo Config.reference [0x123#64, 0xFF#64, 0x0#64] =
    some ⟨0x12300#64, 0xFF00#64⟩ := by decide

theorem test_not_i8_0x80 : answerTo Config.reference [0x823#64, 0x80#64, 0x0#64] =
    some ⟨0x82300#64, 0x7F#64⟩ := by decide

theorem test_shl_u16_0xff_15 : answerTo Config.reference [0xF00000124#64, 0xFF#64, 0x0#64] =
    some ⟨0x12400#64, 0x8000#64⟩ := by decide

theorem test_shl_u16_0xff_16 : answerTo Config.reference [0x1000000124#64, 0xFF#64, 0x0#64] =
    some ⟨0x12405#64, 0x0#64⟩ := by decide

theorem test_shr_i8_0xfb_1 : answerTo Config.reference [0x100000825#64, 0xFB#64, 0x0#64] =
    some ⟨0x82500#64, 0xFD#64⟩ := by decide

theorem test_shr_u8_0x81_8 : answerTo Config.reference [0x800000025#64, 0x81#64, 0x0#64] =
    some ⟨0x2505#64, 0x0#64⟩ := by decide

theorem test_count_ones_i64_0x123456789abcdef : answerTo Config.reference [0xB30#64, 0x123456789ABCDEF#64, 0x0#64] =
    some ⟨0xB3000#64, 0x20#64⟩ := by decide

theorem test_count_zeros_i16_0x8001 : answerTo Config.reference [0x931#64, 0x8001#64, 0x0#64] =
    some ⟨0x93100#64, 0xE#64⟩ := by decide

theorem test_leading_zeros_u32_0x1f000 : answerTo Config.reference [0x232#64, 0x1F000#64, 0x0#64] =
    some ⟨0x23200#64, 0xF#64⟩ := by decide

theorem test_leading_zeros_u8_0 : answerTo Config.reference [0x32#64, 0x0#64, 0x0#64] =
    some ⟨0x3200#64, 0x8#64⟩ := by decide

theorem test_trailing_zeros_u32_0x1f000 : answerTo Config.reference [0x233#64, 0x1F000#64, 0x0#64] =
    some ⟨0x23300#64, 0xC#64⟩ := by decide

theorem test_trailing_zeros_u8_0 : answerTo Config.reference [0x33#64, 0x0#64, 0x0#64] =
    some ⟨0x3300#64, 0x8#64⟩ := by decide

theorem test_rotate_left_u64_0x123456789abcdef_4294967295 : answerTo Config.reference [0xFFFFFFFF00000340#64,
    0x123456789ABCDEF#64, 0x0#64] =
    some ⟨0x34000#64, 0x8091A2B3C4D5E6F7#64⟩ := by decide

theorem test_rotate_left_u8_0x96_8 : answerTo Config.reference [0x800000040#64, 0x96#64, 0x0#64] =
    some ⟨0x4000#64, 0x96#64⟩ := by decide

theorem test_rotate_right_u32_0x80000001_33 : answerTo Config.reference [0x2100000241#64, 0x80000001#64, 0x0#64] =
    some ⟨0x24100#64, 0xC0000000#64⟩ := by decide

theorem test_rotate_right_i8_1_1 : answerTo Config.reference [0x100000841#64, 0x1#64, 0x0#64] =
    some ⟨0x84100#64, 0x80#64⟩ := by decide

theorem test_swap_bytes_u32_0xaabbccdd : answerTo Config.reference [0x242#64, 0xAABBCCDD#64, 0x0#64] =
    some ⟨0x24200#64, 0xDDCCBBAA#64⟩ := by decide

theorem test_swap_bytes_u8_0xb5 : answerTo Config.reference [0x42#64, 0xB5#64, 0x0#64] =
    some ⟨0x4200#64, 0xB5#64⟩ := by decide

theorem test_reverse_bits_u32_0x12345678 : answerTo Config.reference [0x243#64, 0x12345678#64, 0x0#64] =
    some ⟨0x24300#64, 0x1E6A2C48#64⟩ := by decide

theorem test_reverse_bits_u8_0xb5 : answerTo Config.reference [0x43#64, 0xB5#64, 0x0#64] =
    some ⟨0x4300#64, 0xAD#64⟩ := by decide

theorem test_to_le_u16_0x1234 : answerTo Config.reference [0x150#64, 0x1234#64, 0x0#64] =
    some ⟨0x15000#64, 0x1234#64⟩ := by decide

theorem test_to_le_u16_0x1234_be : answerTo bigEndian [0x150#64, 0x1234#64, 0x0#64] =
    some ⟨0x15000#64, 0x3412#64⟩ := by decide

theorem test_from_le_i64_0x123456789abcdef : answerTo Config.reference [0xB51#64, 0x123456789ABCDEF#64, 0x0#64] =
    some ⟨0xB5100#64, 0x123456789ABCDEF#64⟩ := by decide

theorem test_from_le_u16_0x1234_be : answerTo bigEndian [0x151#64, 0x1234#64, 0x0#64] =
    some ⟨0x15100#64, 0x3412#64⟩ := by decide

theorem test_to_be_u32_0x12345678 : answerTo Config.reference [0x252#64, 0x12345678#64, 0x0#64] =
    some ⟨0x25200#64, 0x78563412#64⟩ := by decide

theorem test_to_be_u16_0x1234_be : answerTo bigEndian [0x152#64, 0x1234#64, 0x0#64] =
    some ⟨0x15200#64, 0x1234#64⟩ := by decide

theorem test_from_be_u16_0x1234 : answerTo Config.reference [0x153#64, 0x1234#64, 0x0#64] =
    some ⟨0x15300#64, 0x3412#64⟩ := by decide

theorem test_from_be_u16_0x1234_be : answerTo bigEndian [0x153#64, 0x1234#64, 0x0#64] =
    some ⟨0x15300#64, 0x1234#64⟩ := by decide

theorem test_add_i8_0x7f_1 : answerTo Config.reference [0x860#64, 0x7F#64, 0x1#64] =
    some ⟨0x86000#64, 0x80#64⟩ := by decide

theorem test_add_u8_0xff_1 : answerTo Config.reference [0x60#64, 0xFF#64, 0x1#64] =
    some ⟨0x6000#64, 0x0#64⟩ := by decide

theorem test_sub_u8_0_1 : answerTo Config.reference [0x61#64, 0x0#64, 0x1#64] =
    some ⟨0x6100#64, 0xFF#64⟩ := by decide

theorem test_sub_i8_0x80_1 : answerTo Config.reference [0x861#64, 0x80#64, 0x1#64] =
    some ⟨0x86100#64, 0x7F#64⟩ := by decide

theorem test_neg_i8_0x80 : answerTo Config.reference [0x862#64, 0x80#64, 0x0#64] =
    some ⟨0x86200#64, 0x80#64⟩ := by decide

theorem test_neg_u8_1 : answerTo Config.reference [0x62#64, 0x1#64, 0x0#64] =
    some ⟨0x6200#64, 0xFF#64⟩ := by decide

theorem test_mul_i16_0xff38_0x12c : answerTo Config.reference [0x963#64, 0xFF38#64, 0x12C#64] =
    some ⟨0x96300#64, 0x15A0#64⟩ := by decide

theorem test_mul_i8_0x80_0xff : answerTo Config.reference [0x863#64, 0x80#64, 0xFF#64] =
    some ⟨0x86300#64, 0x80#64⟩ := by decide

theorem test_checked_div_i8_0xf9_2 : answerTo Config.reference [0x864#64, 0xF9#64, 0x2#64] =
    some ⟨0x86400#64, 0xFD#64⟩ := by decide

theorem test_checked_div_i8_0x80_0xff : answerTo Config.reference [0x864#64, 0x80#64, 0xFF#64] =
    some ⟨0x86401#64, 0x0#64⟩ := by decide

theorem test_pow_u8_3_4294967295 : answerTo Config.reference [0xFFFFFFFF00000065#64, 0x3#64, 0x0#64] =
    some ⟨0x6500#64, 0xAB#64⟩ := by decide

theorem test_pow_i8_0xfe_7 : answerTo Config.reference [0x700000865#64, 0xFE#64, 0x0#64] =
    some ⟨0x86500#64, 0x80#64⟩ := by decide

theorem test_checked_pow_i8_0xfe_7 : answerTo Config.reference [0x700000866#64, 0xFE#64, 0x0#64] =
    some ⟨0x86600#64, 0x80#64⟩ := by decide

theorem test_checked_pow_i8_2_7 : answerTo Config.reference [0x700000866#64, 0x2#64, 0x0#64] =
    some ⟨0x86604#64, 0x0#64⟩ := by decide

theorem test_digit_u8_upper_z_36 : answerTo Config.reference [0x5A00024070#64, 0x0#64, 0x0#64] =
    some ⟨0x7000#64, 0x23#64⟩ := by decide

theorem test_digit_u8_z_35 : answerTo Config.reference [0x7A00023070#64, 0x0#64, 0x0#64] =
    some ⟨0x7002#64, 0x0#64⟩ := by decide

theorem test_from_str_radix_i8_10000000_2 : answerTo Config.reference [0x900002871#64, 0x0#64, 0x0#64,
    0x303030303030312D#64, 0x30#64] =
    some ⟨0x87100#64, 0x80#64⟩ := by decide

theorem test_from_str_u8_999x : answerTo Config.reference [0x40000A071#64, 0x0#64, 0x0#64, 0x78393939#64] =
    some ⟨0x7102#64, 0x0#64⟩ := by decide

theorem test_swap_bytes_usize_ptr32 : answerTo ptr32 [0x442#64, 0x1020304#64, 0#64] =
    some ⟨0x44200#64, 0x4030201#64⟩ := by
  decide

/-! ## The checks of R78: a frame that each check refuses, and the nearest legal one (95_test_vectors.md section 3) -/

theorem test_refused_k1_empty : decode Config.reference [] = .error .k1 := by decide

theorem test_refused_k1_two_words : decode Config.reference [0x810#64, 0xFB#64] = .error .k1 := by decide

theorem test_refused_k2 : decode Config.reference [0x40810#64, 0xFB#64, 0x0#64] = .error .k2 := by decide

theorem test_refused_k3 : decode Config.reference [0x72#64, 0x0#64, 0x0#64] = .error .k3 := by decide

theorem test_refused_k4 : decode Config.reference [0xD10#64, 0xFB#64, 0x0#64] = .error .k4 := by decide

theorem test_refused_k5_a : decode Config.reference [0x800#64, 0x1#64, 0x0#64] = .error .k5 := by decide

theorem test_refused_k5_b : decode Config.reference [0x100000024#64, 0x81#64, 0x1#64] = .error .k5 := by decide

theorem test_refused_k5_n : decode Config.reference [0x100000810#64, 0xFB#64, 0x0#64] = .error .k5 := by decide

theorem test_refused_k5_radix : decode Config.reference [0x1810#64, 0xFB#64, 0x0#64] = .error .k5 := by decide

theorem test_refused_k6_a : decode Config.reference [0x810#64, 0x1FB#64, 0x0#64] = .error .k6 := by decide

theorem test_refused_k6_b : decode Config.reference [0x20#64, 0xC#64, 0x10A#64] = .error .k6 := by decide

theorem test_refused_k6_ptr32 : decode ptr32 [0xC10#64, 0x1FFFFFFFB#64, 0x0#64] = .error .k6 := by decide

theorem test_refused_k7 : decode Config.reference [0x17A00024070#64, 0x0#64, 0x0#64] = .error .k7 := by decide

theorem test_refused_k8_low : decode Config.reference [0x7A00001070#64, 0x0#64, 0x0#64] = .error .k8 := by decide

theorem test_refused_k8_high : decode Config.reference [0x300025871#64, 0x0#64, 0x0#64, 0x333231#64] =
    .error .k8 := by decide

theorem test_refused_k9 : decode { Config.reference with strmax := 65 } [0x420000A071#64, 0x0#64, 0x0#64,
    0x3030303030303030#64, 0x3030303030303030#64, 0x3030303030303030#64, 0x3030303030303030#64,
    0x3030303030303030#64, 0x3030303030303030#64, 0x3030303030303030#64, 0x3030303030303030#64, 0x3030#64] =
    .error .k9 := by decide

theorem test_refused_k10_missing : decode Config.reference [0x300008871#64, 0x0#64, 0x0#64] = .error .k10 := by decide

theorem test_refused_k10_long : decode Config.reference [0x810#64, 0xFB#64, 0x0#64, 0x0#64] = .error .k10 := by decide

theorem test_refused_k11 : decode Config.reference [0x300008871#64, 0x0#64, 0x0#64, 0x31333231#64] =
    .error .k11 := by decide

theorem test_illegal_empty_frame : answerTo Config.reference [] = some ⟨0x6#64, 0#64⟩ := by decide

theorem test_illegal_wins_over_division : answerTo Config.reference [0xA64#64, 0x100000005#64, 0#64] =
    some ⟨0xA6406#64, 0#64⟩ := by decide

theorem test_legal_ptr64_operand : answerTo Config.reference [0xC10#64, 0x1FFFFFFFB#64, 0#64] =
    some ⟨0xC1000#64, 0x1FFFFFFFB#64⟩ := by decide

theorem test_legal_empty_string : answerTo Config.reference [0x8871#64, 0#64, 0#64] = some ⟨0x87102#64, 0#64⟩ := by
    decide

theorem test_table_word : decodeTableWord 64 0x24 = some (.shl ⟨false, .w8⟩ 0#64 0#32) := by decide

/-! ## Well-formedness: an ill-formed command for each of its checks -/

theorem test_ill_formed_a : Instr.wellFormed Config.reference (.abs ⟨true, .w8⟩ 0x1FB#64) = false := by decide

theorem test_ill_formed_b : Instr.wellFormed Config.reference (.or ⟨false, .w8⟩ 0xC#64 0x10A#64) = false := by decide

theorem test_ill_formed_counted : Instr.wellFormed Config.reference (.shl ⟨false, .w32⟩ 0x100000000#64 1#32) =
    false := by
  decide

theorem test_ill_formed_ptr32 : Instr.wellFormed ptr32 (.abs ⟨true, .ptr⟩ 0x1FFFFFFFB#64) = false := by decide

theorem test_ill_formed_radix_low : Instr.wellFormed Config.reference (.digit ⟨false, .w8⟩ 0x30#8 1#6) =
    false := by decide

theorem test_ill_formed_radix_high : Instr.wellFormed Config.reference (.fromStrRadix ⟨false, .w8⟩ [0x30#8] 37#6) =
    false := by
  decide

theorem test_ill_formed_string : Instr.wellFormed { Config.reference with strmax := 65 }
    (.fromStrRadix ⟨false, .w8⟩ (List.replicate 66 0x30#8) 10#6) = false := by decide

theorem test_well_formed_longest_string : Instr.wellFormed { Config.reference with strmax := 65 }
    (.fromStrRadix ⟨false, .w8⟩ (List.replicate 65 0x30#8) 10#6) = true := by decide

/-! ## The requester's side -/

theorem test_assemble_abs_line :
    ((parseLine "abs.i8 -5 ; a comment".toList).bind (fun l =>
      match l with
      | some l => assemble Config.reference [] l
      | none => .error .malformed)) = .ok [0x810#64, 0xFB#64, 0#64] := by decide

theorem test_assemble_from_str_line :
    ((parseLine "from_str.i8 \"-0\"".toList).bind (fun l =>
      match l with
      | some l => assemble Config.reference [] l
      | none => .error .malformed)) = .ok [0x20000A871#64, 0#64, 0#64, 0x302D#64] := by decide

theorem test_binding_of_failure_stops :
    assemble Config.reference [⟨⟨true, .w32⟩, ⟨0xA6401#64, 0#64⟩⟩] ⟨.neg, ⟨true, .w32⟩, .one (.bind 0)⟩ =
      .error .bindingFailed := by decide

theorem test_binding_of_other_type_refused :
    assemble Config.reference [⟨⟨true, .w8⟩, ⟨0x80000#64, 0x80#64⟩⟩] ⟨.neg, ⟨true, .w32⟩, .one (.bind 0)⟩ =
      .error .bindingType := by decide

theorem test_answer_text :
    (readResponse Config.reference ⟨true, .w8⟩ ⟨0x80000#64, 0x80#64⟩).map (answerText Config.reference ⟨true, .w8⟩) =
      some "Ok(0x80 = −128)".toList := by decide

theorem test_reset_discards :
    (match applyEvent .reset (State.reset.accept [0x800#64, 0#64, 0#64]) with
     | .next t => some t
     | _ => none) = some State.reset := by decide

/-- R86: a string of any length up to what `n` can hold is written; K9 answers the one longer than STRMAX (log 18). -/
theorem test_assemble_beyond_strmax :
    ((assemble { Config.reference with strmax := 65 } [] (fromStrLine ⟨true, .w8⟩ (List.replicate 66 0x30#8))).map
      (Check.fails { Config.reference with strmax := 65 } · .k9)).toOption = some true := by decide

/-- R88: 5 / 0 fails and the third line needs it, so the failing response is the last and the second line is not sent. -/
theorem test_script_stops_at_needed_failure :
    let run := runScript [⟨.checkedDiv, ⟨true, .w32⟩, .two (.dec 5) (.dec 0)⟩, ⟨.abs, ⟨true, .w32⟩, .one (.dec 1)⟩,
      ⟨.neg, ⟨true, .w32⟩, .one (.bind 0)⟩] [] State.reset
    run.sent = [⟨⟨true, .w32⟩, ⟨0xA6401#64, 0#64⟩⟩] ∧ run.stopped = some .bindingFailed ∧
      run.final.emitted = [⟨0xA6401#64, 0#64⟩] := by decide

/-- Script P4 of 95_test_vectors.md, its last lines: a failure no line needs does not stop the script. -/
theorem test_script_goes_on_after_unneeded_failure :
    let run := runScript [⟨.fromStrRadix, ⟨false, .w8⟩, .string [0x31#8, 0x30#8, 0x30#8] 16⟩,
      ⟨.checkedPow, ⟨false, .w8⟩, .counted (.hex 0x10) (.num 2)⟩] [] State.reset
    run.final.emitted = [⟨0x7103#64, 0#64⟩, ⟨0x6604#64, 0#64⟩] ∧ run.stopped = none := by decide

/-! ## Witnesses: concrete states and operands that meet the hypotheses of each statement, clause by clause -/

/-- A state under the reference configuration with one pending frame. -/
def onePending (f : Frame) : State := { config := Config.reference, pending := [f], emitted := [] }

theorem witness_DecodeOfEncode :
    Config.reference.legal = true ∧ Instr.wellFormed Config.reference (.shl ⟨false, .w8⟩ 0xFF#64 0xFFFFFFFF#32) = true ∧
    Instr.wellFormed Config.reference (.fromStrRadix ⟨true, .ptr⟩ (List.replicate 65 0x7A#8) 36#6) = true := by decide

theorem witness_EncodeOfDecode :
    decode Config.reference [0x7A00024070#64, 0#64, 0#64] = .ok (.digit ⟨false, .w8⟩ 0x7A#8 36#6) := by decide

theorem witness_LegalExactlyWhenChecksPass :
    (onePending [0x810#64, 0xFB#64, 0#64]).config.legal = true ∧
    (onePending [0x810#64, 0xFB#64, 0#64]).pending = [0x810#64, 0xFB#64, 0#64] :: [] ∧
    failedCheck Config.reference [0x810#64, 0xFB#64, 0#64] = none ∧
    failedCheck Config.reference [0x810#64, 0x100#64, 0#64] = some .k6 := by decide

theorem witness_ReservedOpcodeIsIllegal :
    (onePending [0x803#64, 0#64, 0#64]).config.legal = true ∧
    Opcode.all.all (fun o => o.code != ([0x803#64, 0#64, 0#64].headD 0#64).extractLsb' 0 8) = true ∧
    Opcode.all.all (fun o => o.code != ([0xFF#64].headD 0#64).extractLsb' 0 8) = true := by decide

theorem witness_StringBytesInPayload : 15 < 8 * (([0x31#8, 0x32#8, 0x33#8, 0x34#8, 0x35#8, 0x36#8, 0x37#8, 0x38#8,
    0x39#8].length + 7) / 8) := by
  decide

theorem witness_StepRunsDecodedCommand :
    (onePending [0x810#64, 0xFB#64, 0#64]).config.legal = true ∧
    (onePending [0x810#64, 0xFB#64, 0#64]).pending = [0x810#64, 0xFB#64, 0#64] :: [] ∧
    decode (onePending [0x810#64, 0xFB#64, 0#64]).config [0x810#64, 0xFB#64, 0#64] =
        .ok (.abs ⟨true, .w8⟩ 0xFB#64) := by decide

theorem witness_IdleStepChangesNothing : State.reset.config.legal = true ∧ State.reset.pending = [] := by decide

theorem witness_ConfigOutOfRangeRefused :
    ({ State.reset with config := { Config.reference with strmax := 64 } } : State).config.strmax < 65 ∧
    2 ^ 32 - 1 < ({ State.reset with config := { Config.reference with strmax := 4294967296 } } : State).config.strmax := by decide

theorem witness_EveryFrameHasOneResponse :
    decode Config.reference [0x800#64, 0#64, 0#64] = .ok (.min ⟨true, .w8⟩) ∧
    decode Config.reference [] = .error .k1 ∧
    (onePending []).config.legal = true ∧ (onePending []).pending = [] :: [] := by decide

theorem witness_RunAnswersQueueInOrder :
    ({ State.reset with pending := [[], [0x800#64, 0#64, 0#64]] } : State).config.legal = true := by decide

theorem witness_EventRunsAnswerEachFrameOnce :
    State.reset.config.legal = true ∧
        noReset [.present [], .work, .present [0x800#64, 0#64, 0#64], .work, .work] = true := by
  decide

theorem witness_StepKeepsResponsesWellFormed :
    (onePending [0x800#64, 0#64, 0#64]).safe = true ∧
    step (onePending [0x800#64, 0#64, 0#64]) =
      .next { State.reset with emitted := [⟨0x80000#64, 0x80#64⟩] } := ⟨by decide, by rfl⟩

theorem witness_StepFrame : ∃ t, step (onePending [0x810#64, 0xFB#64, 0#64]) = .next t ∧
    step State.reset = .next State.reset :=
  ⟨_, rfl, rfl⟩

theorem witness_ResponseLayout :
    (onePending []).config.legal = true ∧ (onePending []).pending = [] :: [] ∧
    (onePending [0xA64#64, 5#64, 0#64]).pending = [0xA64#64, 5#64, 0#64] :: [] := by decide

theorem witness_CausesOfEachOperation :
    Config.reference.legal = true ∧
    (∃ t, exec (.shl ⟨false, .w8⟩ 0#64 8#32) State.reset = .next t ∧
      t.emitted = State.reset.emitted ++ [⟨0x2405#64, 0#64⟩]) ∧
    [0x24#64].headD 0#64 = 0x24#64 ∧ (0x24#64).extractLsb' 0 8 = Opcode.shl.code ∧
    decode Config.reference [0x24#64] = .error .k1 ∧
    (onePending [0x24#64]).config = Config.reference ∧ (onePending [0x24#64]).pending = [0x24#64] :: [] :=
  ⟨by decide, ⟨_, rfl, by decide⟩, by decide, by decide, by decide, by decide, by decide⟩

theorem witness_ReadingsOfPatterns : 0 < 8 ∧ 0 < 1 := by decide

theorem witness_AbsAndSignumAnswer :
    (BitVec.setWidth 8 0x80#64 = BitVec.intMin 8) ∧ (BitVec.setWidth 8 0x81#64 ≠ BitVec.intMin 8) := by decide

theorem witness_SignTestsAnswer : Ty.signed ⟨true, .w8⟩ = true ∧ Ty.signed ⟨false, .w8⟩ = false := by decide

theorem witness_BitwiseAnswerPerBit : 0 < width Config.reference ⟨true, .w8⟩ ∧
    7 < width Config.reference ⟨true, .w8⟩ := by decide

theorem witness_ShiftAnswers :
    (7#32).toNat < width Config.reference ⟨false, .w8⟩ ∧ width Config.reference ⟨false, .w8⟩ ≤ (8#32).toNat ∧
    width Config.reference ⟨false, .w8⟩ ≤ (0xFFFFFFFF#32).toNat := by decide

theorem witness_PermutationAnswers :
    0 < width Config.reference ⟨true, .w16⟩ ∧ 15 < width Config.reference ⟨true, .w16⟩ ∧
    0 < width Config.reference ⟨true, .w16⟩ / 8 ∧ 1 < width Config.reference ⟨true, .w16⟩ / 8 := by decide

theorem witness_ZeroCountsAnswer :
    BitVec.setWidth 8 0x100#64 = 0#8 ∧ BitVec.setWidth 8 0x80#64 ≠ 0#8 ∧ BitVec.setWidth 8 0x01#64 ≠ 0#8 := by decide

theorem witness_CheckedDivisionAnswer :
    val true (BitVec.setWidth 8 0#64) = 0 ∧
    (val true (BitVec.setWidth 8 0x80#64) = -(2 ^ (8 - 1)) ∧ val true (BitVec.setWidth 8 0xFF#64) = -1) ∧
    ¬ (val true (BitVec.setWidth 8 0xFF#64) = 0 ∨
      (true = true ∧ val true (BitVec.setWidth 8 0x81#64) = -(2 ^ (8 - 1)) ∧
          val true (BitVec.setWidth 8 0xFF#64) = -1)) := by decide

theorem witness_CheckedPowAnswer :
    (minv true 8 ≤ val true (BitVec.setWidth 8 0xFE#64) ^ 7 ∧ val true (BitVec.setWidth 8 0xFE#64) ^ 7 ≤ maxv true 8) ∧
    ¬ (minv true 8 ≤ val true (BitVec.setWidth 8 0x02#64) ^ 7 ∧
        val true (BitVec.setWidth 8 0x02#64) ^ 7 ≤ maxv true 8) := by decide

theorem witness_DigitAnswer :
    dig 0x7A#8 = some 35 ∧ 35 < (36#6).toNat ∧ (35#6).toNat ≤ 35 ∧ dig 0x7B#8 = none := by decide

theorem witness_FromStrRadixAnswer :
    ([] : List Byte).length = 0 ∧ (dig 0x39#8 = some 9 ∧ (9#6).toNat ≤ 9) ∧
    inRange true 8 (-128) = true ∧ inRange true 8 (-129) = false ∧ inRange false 8 255 = true ∧
        inRange false 8 256 = false := by decide

theorem witness_SignTrichotomy :
    okValue State.reset (.isPositive ⟨true, .w8⟩ 0x7F#64) = some 1#64 ∧
    okValue State.reset (.isNegative ⟨true, .w8⟩ 0x80#64) = some 1#64 ∧
    BitVec.setWidth 8 0x00#64 = 0#8 ∧ BitVec.setWidth 8 0x81#64 ≠ BitVec.intMin 8 := by decide

theorem witness_ShiftLaws :
    (7#32).toNat < width Config.reference ⟨false, .w8⟩ ∧
    (3#32).toNat + (4#32).toNat < width Config.reference ⟨false, .w8⟩ := by decide

theorem witness_ByteOrderRoundTrip :
    width Config.reference ⟨false, .w8⟩ = 8 ∧ 16 ≤ width Config.reference ⟨false, .w16⟩ := by decide

theorem witness_DivisionLaws :
    okValue State.reset (.checkedDiv ⟨true, .w8⟩ 0xF9#64 2#64) = some 0xFD#64 ∧
    val true (BitVec.setWidth 8 0xFF#64) ≠ 0 := by decide

theorem witness_LeadingZerosDoNotMatter :
    (true = true → Ty.signed ⟨true, .w8⟩ = true) ∧ (0x31#8 ≠ 0x2D#8) ∧ 0 < (2#6).toNat := by decide

theorem witness_ParseIsFoldOfDigits :
    Ty.signed ⟨false, .w8⟩ = false ∧
    okValue State.reset (.fromStrRadix ⟨false, .w8⟩ [0x66#8, 0x46#8] 16#6) = some 0xFF#64 := by decide

theorem witness_DecimalTextParses : inRange true (width Config.reference ⟨true, .w8⟩) (-128) = true ∧
    inRange false (width Config.reference ⟨false, .w64⟩) 18446744073709551615 = true := by decide

theorem witness_CheckedPowIntermediates :
    okValue State.reset (.checkedPow ⟨false, .w8⟩ 3#64 5#32) = some 0xF3#64 ∧
    okValue State.reset (.checkedPow ⟨false, .w8⟩ 3#64 6#32) = none := by decide

theorem witness_FromStrAssemblesToRadixTen :
    let hex (k : Nat) : List Char := ["0123456789abcdef".toList.getD k '0', "0123456789ABCDEF".toList.getD k '0']
    let escaped (c : Byte) : List (List Char) :=
      (hex (c.toNat / 16)).flatMap (fun h => (hex (c.toNat % 16)).map (fun l => ['\\', 'x', h, l]))
    let spellings (c : Byte) : List (List Char) :=
      escaped c ++
        (if c = 0x22#8 then [['\\', '"']] else if c = 0x5C#8 then [['\\', '\\']]
         else if c.toNat < 128 then [[Char.ofNat c.toNat]] else [])
    [0x2D#8, 0x22#8, 0x5C#8, 0xFF#8].length < 2 ^ 32 ∧
    List.Forall₂ (fun c part => part ∈ spellings c) [0x2D#8, 0x22#8, 0x5C#8, 0xFF#8]
      [['-'], ['\\', '"'], ['\\', '\\'], ['\\', 'x', 'f', 'F']] ∧
    (([] : List Char) = [] ∨ ([] : List Char).head? = some ';') ∧ "; a comment".toList.head? = some ';' :=
  ⟨by decide, .cons (by decide) (.cons (by decide) (.cons (by decide) (.cons (by decide) .nil))), by decide, by decide⟩

theorem witness_AssembledFrameChecks :
    (∀ p ∈ [(⟨⟨true, .w8⟩, ⟨0x80000#64, 0x80#64⟩⟩ : Sent)],
      p.response.cause = 0#4 → canonical (width Config.reference p.ty) p.response.word1 = true) ∧
    assemble Config.reference [⟨⟨true, .w8⟩, ⟨0x80000#64, 0x80#64⟩⟩] ⟨.neg, ⟨true, .w8⟩, .one (.bind 0)⟩ =
      .ok [0x862#64, 0x80#64, 0#64] ∧
    assemble Config.reference [] ⟨.digit, ⟨false, .w8⟩, .character 0x7A 37⟩ = .ok [0x7A00025070#64, 0#64, 0#64] ∧
    Check.fails Config.reference [0x7A00025070#64, 0#64, 0#64] .k8 = true := by decide

theorem witness_ScriptLeavesEngineIdle : State.reset.config.legal = true ∧ State.reset.pending = [] := by decide

theorem witness_ScriptStopsAtNeededFailure :
    let ls : List Line := [⟨.checkedDiv, ⟨true, .w32⟩, .two (.dec 5) (.dec 0)⟩, ⟨.neg, ⟨true, .w32⟩, .one (.bind 0)⟩]
    State.reset.config.legal = true ∧ State.reset.pending = [] ∧
    (runScript ls [] State.reset).sent[0]? = some ⟨⟨true, .w32⟩, ⟨0xA6401#64, 0#64⟩⟩ ∧
    (⟨0xA6401#64, 0#64⟩ : Response).cause ≠ 0#4 ∧ (∃ l ∈ ls.drop (0 + 1), 0 ∈ l.bindings) ∧
    (runScript ls [] State.reset).stopped = some .bindingFailed := by decide

end Sys2Proof.Tests
end

section
/-! PROOFS. Every command appends one response to the responses emitted and changes nothing else; the response depends on the
configuration and the command alone. From it follows the one response of every frame, legal or not (R46, R75), and its layout
(R71). -/

namespace Sys2Proof

/-- The echo fields of a legal frame are the codes of the command it encodes (R64, R76). -/
theorem header_codes_of_decode {cfg : Config} {f : Frame} {i : Instr} (h : decode cfg f = .ok i) :
    opField (headerOf f) = i.opcode.code ∧ tyField (headerOf f) = i.ty.code := by
  obtain ⟨hpass, op, ty, hop, hty, rfl⟩ := decode_eq_ok h
  have hrsv : rsvField (headerOf f) = 0#14 := by simpa [Check.fails] using hpass .k2
  have hh := headerWord_of_fields hty hrsv
  rw [commandOf_opcode, commandOf_ty]
  exact ⟨(Opcode.code_of_ofCode hop).symm, by rw [← hh, tyField_headerWord]⟩

end Sys2Proof

namespace Sys2Proof.Machine

/-- In two states with one configuration every command finishes with its own opcode and type and with one and the same answer
(R12, R46). -/
theorem exec_eq_finish (i : Instr) {s t : State} (h : s.config = t.config) :
    ∃ (w : Nat) (ans : Answer w),
      exec i s = finish i.opcode i.ty ans s ∧ exec i t = finish i.opcode i.ty ans t := by
  obtain ⟨cfg, ps, es⟩ := s
  obtain ⟨_, pt, et⟩ := t
  obtain rfl : cfg = _ := h
  cases i with
  | shl ty a n =>
    by_cases hn : shiftOutOfRange (width cfg ty) n.toNat = true
    · exact ⟨0, .err .shiftRange, if_pos hn, if_pos hn⟩
    · exact ⟨_, .ok _, if_neg hn, if_neg hn⟩
  | shr ty a n =>
    by_cases hn : shiftOutOfRange (width cfg ty) n.toNat = true
    · exact ⟨0, .err .shiftRange, if_pos hn, if_pos hn⟩
    · exact ⟨_, .ok _, if_neg hn, if_neg hn⟩
  | checkedDiv ty a b =>
    by_cases hd : divisionUndefined ty.signed (pattern (width cfg ty) a) (pattern (width cfg ty) b) = true
    · exact ⟨0, .err .divisionUndefined, if_pos hd, if_pos hd⟩
    · exact ⟨_, .ok _, if_neg hd, if_neg hd⟩
  | checkedPow ty a n =>
    cases hz : powerInRange ty.signed (width cfg ty) (val ty.signed (pattern (width cfg ty) a)) n.toNat with
    | none =>
      refine ⟨0, .err .arithmeticOverflow, ?_⟩
      simp only [exec, execCheckedPow, operand, hz]
      exact ⟨rfl, rfl⟩
    | some z =>
      refine ⟨_, .ok (wrap (width cfg ty) z), ?_⟩
      simp only [exec, execCheckedPow, operand, hz]
      exact ⟨rfl, rfl⟩
  | digit ty c radix =>
    cases hd : digitBelow radix.toNat c with
    | none =>
      refine ⟨0, .err .parseFormatError, ?_⟩
      simp only [exec, execDigit, hd]
      exact ⟨rfl, rfl⟩
    | some d =>
      refine ⟨_, .ok (wrap (width cfg ty) d), ?_⟩
      simp only [exec, execDigit, hd]
      exact ⟨rfl, rfl⟩
  | fromStrRadix ty str radix => exact ⟨_, _, rfl, rfl⟩
  | _ => exact ⟨_, .ok _, rfl, rfl⟩

/-- The engine of a configuration with nothing pending and nothing emitted. -/
def State.idleAt (cfg : Config) : State := { config := cfg, pending := [], emitted := [] }

@[simp] theorem idleAt_config (cfg : Config) : (State.idleAt cfg).config = cfg := rfl

/-- The response to a command under a configuration: what an idle engine emits for it. -/
def commandResponse (cfg : Config) (i : Instr) : Response :=
  match exec i (State.idleAt cfg) with
  | .next t => t.emitted.headD (illegalResponse [])
  | .fault _ => illegalResponse []
  | .refused _ => illegalResponse []

/-- What a command can do in a state: it emits the response of its configuration, which echoes its opcode and type. -/
theorem exec_emits (i : Instr) (s : State) :
    exec i s = .next (s.emit (commandResponse s.config i)) ∧
      ∃ (w : Nat) (ans : Answer w), commandResponse s.config i = encodeResponse i.opcode.code i.ty.code ans := by
  obtain ⟨w, ans, hs, hidle⟩ := exec_eq_finish i (s := s) (t := State.idleAt s.config) rfl
  have hr : commandResponse s.config i = encodeResponse i.opcode.code i.ty.code ans := by
    rw [commandResponse, hidle]
    rfl
  exact ⟨by rw [hs, hr]; rfl, w, ans, hr⟩

/-- Every command completes by emitting one response, and does nothing else (R46). -/
theorem exec_eq_emit (i : Instr) (s : State) : exec i s = .next (s.emit (commandResponse s.config i)) :=
  (exec_emits i s).1

/-- The response to a command echoes its opcode and type (R71). -/
theorem commandResponse_eq_encodeResponse (cfg : Config) (i : Instr) :
    ∃ (w : Nat) (ans : Answer w), commandResponse cfg i = encodeResponse i.opcode.code i.ty.code ans :=
  (exec_emits i (State.idleAt cfg)).2

/-- The response of a frame under a configuration: that of the command it encodes, or IllegalRequest (R75). -/
def frameResponse (cfg : Config) (f : Frame) : Response :=
  match decode cfg f with
  | .ok i => commandResponse cfg i
  | .error _ => illegalResponse f

theorem frameResponse_of_ok {cfg : Config} {f : Frame} {i : Instr} (h : decode cfg f = .ok i) :
    frameResponse cfg f = commandResponse cfg i := by
  simp [frameResponse, h]

theorem frameResponse_of_error {cfg : Config} {f : Frame} {k : Check} (h : decode cfg f = .error k) :
    frameResponse cfg f = illegalResponse f := by
  simp [frameResponse, h]

/-- A request taken from the queue is answered with its frame's response (R75). -/
theorem answerFrame_eq_emit (f : Frame) (s : State) : answerFrame f s = .next (s.emit (frameResponse s.config f)) := by
  cases h : decode s.config f with
  | ok i => rw [answerFrame_ok h, frameResponse_of_ok h, exec_eq_emit]
  | error k => rw [answerFrame_error h, frameResponse_of_error h]

/-- With a request pending, a step takes it off the queue and emits its frame's response (R16, R26, R75). -/
theorem step_eq_frameResponse {s : State} {f : Frame} {rest : List Frame} (hl : s.config.legal = true)
    (h : s.pending = f :: rest) :
    step s = .next { s with pending := rest, emitted := s.emitted ++ [frameResponse s.config f] } := by
  rw [step_of_request hl h, answerFrame_eq_emit]
  rfl

/-- Every response echoes the header of its frame as received, whether the frame is legal or not (R71). -/
theorem frameResponse_eq_encodeResponse (cfg : Config) (f : Frame) :
    ∃ (w : Nat) (ans : Answer w),
      frameResponse cfg f = encodeResponse (opField (headerOf f)) (tyField (headerOf f)) ans := by
  cases h : decode cfg f with
  | ok i =>
    obtain ⟨hop, hty⟩ := header_codes_of_decode h
    rw [frameResponse_of_ok h, hop, hty]
    exact commandResponse_eq_encodeResponse cfg i
  | error k => exact ⟨0, .err .illegalRequest, frameResponse_of_error h⟩

/-- No cause code is above 6 (R250). -/
theorem Answer.causeCode_le_six {w : Nat} (ans : Answer w) : ans.causeCode.toNat ≤ 6 := by
  cases ans with
  | ok p => exact Nat.zero_le _
  | err c => exact c.code_le_six

/-- An answer whose cause is not OK carries the zero value word (R72). -/
theorem Answer.valueWord_of_causeCode_ne_zero {w : Nat} {ans : Answer w} (h : ans.causeCode ≠ 0#4) :
    ans.valueWord = 0#64 := by
  cases ans with
  | ok p => exact absurd rfl h
  | err c => rfl

/-- Settles O13: the function is `frameResponse`. -/
theorem everyFrameHasOneResponse : Obligations.EveryFrameHasOneResponse := by
  refine ⟨frameResponse, ?_, ?_, ?_⟩
  · rintro cfg f i h s rfl
    rw [exec_eq_emit, frameResponse_of_ok h]
    rfl
  · intro cfg f h
    cases hd : decode cfg f with
    | ok i => exact absurd hd (h i)
    | error k =>
      rw [frameResponse_of_error hd]
      exact ⟨cause_responseHeader _ _ _, rfl⟩
  · intro s f rest hl hp
    exact step_eq_frameResponse hl hp

/-- Settles O22, from the layout of `encodeResponse`, in which every frame is answered. -/
theorem responseLayout : Obligations.ResponseLayout := by
  intro s f rest hl hp
  obtain ⟨w, ans, hr⟩ := frameResponse_eq_encodeResponse s.config f
  refine ⟨frameResponse s.config f, step_eq_frameResponse hl hp, ?_⟩
  rw [hr]
  simp only [encodeResponse, zeros_responseHeader, highZeros_responseHeader, opEcho_responseHeader,
    tyEcho_responseHeader, cause_responseHeader]
  exact ⟨trivial, trivial, rfl, rfl, ans.causeCode_le_six, Answer.valueWord_of_causeCode_ne_zero⟩

end Sys2Proof.Machine
end

section
/-! PROOFS. The opcode map (R76), and the header mask of each format (R80). -/

namespace Sys2Proof

theorem Opcode.mem_all (o : Opcode) : o ∈ Opcode.all := by cases o <;> decide

/-- Settles O5: the table row by row, and that `Opcode.ofCode` and `Opcode.code` undo each other. -/
theorem opcodeMap : Obligations.OpcodeMap :=
  ⟨rfl, fun o => ⟨o.mem_all, o.ofCode_code⟩, fun _ _ => Opcode.code_of_ofCode⟩

/-! ## A word field by field -/

/-- A word is made up of the fields of R61. -/
theorem fields_append (h : Word) : nField h ++ rsvField h ++ radixField h ++ tyField h ++ opField h = h := by
  apply BitVec.eq_of_getLsbD_eq
  intro i hi
  simp only [nField, rsvField, radixField, tyField, opField, BitVec.getLsbD_append, BitVec.getLsbD_extractLsb']
  grind

/-- Two words are equal when their fields are (R61). -/
theorem eq_iff_fields {x y : Word} :
    x = y ↔ opField x = opField y ∧ tyField x = tyField y ∧ radixField x = radixField y ∧ rsvField x = rsvField y ∧
      nField x = nField y := by
  constructor
  · rintro rfl
    exact ⟨rfl, rfl, rfl, rfl, rfl⟩
  · rintro ⟨hop, hty, hradix, hrsv, hn⟩
    rw [← fields_append x, ← fields_append y, hop, hty, hradix, hrsv, hn]

/-- An opcode byte as a word is the header of that opcode with every other field zero (R61, R80). -/
theorem setWidth_eq_headerWord (c : BitVec 8) : c.setWidth 64 = headerWord c ⟨false, .w8⟩ 0#6 0#32 := by
  apply BitVec.eq_of_getLsbD_eq
  intro i hi
  rw [BitVec.getLsbD_setWidth, getLsbD_headerWord]
  by_cases h8 : i < 8
  · simp [h8, hi]
  · simp [h8, getLsbD_tyCode, WidthSel.code, BitVec.getLsbD_of_ge c i (by omega)]

/-! ## The header masks -/

/-- Every mask keeps the opcode and the reserved field and drops the type (R80). -/
theorem Format.mask_common (fmt : Format) :
    opField fmt.mask = BitVec.allOnes 8 ∧ tyField fmt.mask = 0#4 ∧ rsvField fmt.mask = BitVec.allOnes 14 := by
  cases fmt <;> decide

/-- A mask keeps the `radix` field exactly for the formats with no radix (R63, R80). -/
theorem Format.radixField_masked_iff (fmt : Format) (h : Word) :
    radixField h &&& radixField fmt.mask = 0#6 ↔ (fmt ∈ [.N, .U, .VV, .VC] → radixField h = 0#6) := by
  have hmask : radixField fmt.mask = if fmt ∈ [.N, .U, .VV, .VC] then BitVec.allOnes 6 else 0#6 := by
    cases fmt <;> decide
  rw [hmask]
  by_cases hf : fmt ∈ [.N, .U, .VV, .VC]
  · rw [if_pos hf, BitVec.and_allOnes]
    exact (imp_iff_right hf).symm
  · rw [if_neg hf, BitVec.and_zero]
    exact iff_of_true rfl (absurd · hf)

/-- Dropping the low byte of `n` leaves zero exactly when the bits above it are zero. -/
theorem nField_and_highMask_eq_zero_iff (h : Word) :
    nField h &&& (BitVec.allOnes 24 ++ 0#8) = 0#32 ↔ h.extractLsb' 40 24 = 0#24 := by
  have hsplit : nField h = h.extractLsb' 40 24 ++ h.extractLsb' 32 8 :=
    (BitVec.extractLsb'_append_extractLsb'_eq_extractLsb' (start₁ := 32) (len₁ := 8) (len₂ := 24) rfl).symm
  rw [hsplit, BitVec.and_append, BitVec.and_allOnes, BitVec.and_zero]
  constructor
  · intro hz
    rw [← BitVec.extractLsb'_append_eq_left (a := h.extractLsb' 40 24) (b := 0#8), hz]
    rfl
  · intro hz
    rw [hz]
    rfl

/-- A mask keeps `n` for the formats with no immediate, and for D its bits above the character (R63, R80). -/
theorem Format.nField_masked_iff (fmt : Format) (h : Word) :
    nField h &&& nField fmt.mask = 0#32 ↔
      (fmt ∈ [.N, .U, .VV] → nField h = 0#32) ∧ (fmt = .D → h.extractLsb' 40 24 = 0#24) := by
  have hmask : nField fmt.mask =
      if fmt ∈ [.N, .U, .VV] then BitVec.allOnes 32 else if fmt = .D then BitVec.allOnes 24 ++ 0#8 else 0#32 := by
    cases fmt <;> decide
  rw [hmask]
  by_cases hf : fmt ∈ [.N, .U, .VV]
  · have hD : fmt ≠ .D := by rintro rfl; simp at hf
    rw [if_pos hf, BitVec.and_allOnes]
    simp [hf, hD]
  · rw [if_neg hf]
    by_cases hD : fmt = .D
    · rw [if_pos hD, nField_and_highMask_eq_zero_iff]
      simp [hD]
    · rw [if_neg hD, BitVec.and_zero]
      simp [hf, hD]

/-- A row is selected field by field: the opcode is the row's, `rsv` is zero, and so are the bits of `radix` and `n` that the
mask of the row's format keeps (R80). -/
theorem Opcode.selects_iff_fields (op : Opcode) (h : Word) :
    op.selects h = true ↔
      opField h = op.code ∧ rsvField h = 0#14 ∧ radixField h &&& radixField op.format.mask = 0#6 ∧
        nField h &&& nField op.format.mask = 0#32 := by
  obtain ⟨hop, hty, hrsv⟩ := op.format.mask_common
  rw [Opcode.selects, beq_iff_eq, setWidth_eq_headerWord, eq_iff_fields, opField_headerWord, tyField_headerWord,
    radixField_headerWord, rsvField_headerWord, nField_headerWord]
  simp only [opField, tyField, radixField, rsvField, nField, BitVec.extractLsb'_and] at hop hty hrsv ⊢
  simp only [hop, hty, hrsv, BitVec.and_allOnes, BitVec.and_zero]
  constructor
  · rintro ⟨h1, -, h2, h3, h4⟩
    exact ⟨h1, h3, h2, h4⟩
  · rintro ⟨h1, h2, h3, h4⟩
    exact ⟨h1, rfl, h3, h2, h4⟩

/-- Settles O6: the masked comparison is read off the fields, format by format. -/
theorem headerMaskSelectsRow : Obligations.HeaderMaskSelectsRow := by
  intro op h mask
  have hmask : mask = op.format.mask := by
    cases hf : op.format <;> simp only [mask, hf] <;> rfl
  constructor
  · rw [hmask, Opcode.selects, beq_iff_eq, BitVec.setWidth_eq_append (by omega)]
    exact Iff.rfl
  · rw [Opcode.selects_iff_fields, Format.radixField_masked_iff, Format.nField_masked_iff]
    exact Iff.rfl

end Sys2Proof
end

section
/-! PROOFS. The checks K1 to K11 of R78 as conditions on the numbers that the fields of a frame hold, and what a step answers
to a frame that fails one (R77, R78). -/

namespace Sys2Proof

/-- An opcode byte is reserved when it is the code of no opcode (R77). -/
theorem Opcode.ofCode_eq_none_iff {c : BitVec 8} : Opcode.ofCode c = none ↔ ∀ o : Opcode, o.code ≠ c := by
  constructor
  · rintro h o rfl
    simp at h
  · intro h
    cases hc : Opcode.ofCode c with
    | none => rfl
    | some o => exact absurd (Opcode.code_of_ofCode hc) (h o)

/-- Of the 256 opcode bytes 222 are reserved (R77). -/
theorem reservedCodes_length :
    ((List.range 256).filter (fun c => (Opcode.ofCode (BitVec.ofNat 8 c)).isNone)).length = 222 := by
  rfl

/-! ## The numbers of the header fields -/

theorem toNat_opField (h : Word) : (opField h).toNat = h.toNat % 2 ^ 8 := by
  simp [opField, BitVec.extractLsb'_toNat]

theorem toNat_wselField (h : Word) : (wselField h).toNat = h.toNat / 2 ^ 8 % 2 ^ 3 := by
  simp [wselField, BitVec.extractLsb'_toNat, Nat.shiftRight_eq_div_pow]

theorem toNat_tyField (h : Word) : (tyField h).toNat = h.toNat / 2 ^ 8 % 2 ^ 4 := by
  simp [tyField, BitVec.extractLsb'_toNat, Nat.shiftRight_eq_div_pow]

theorem toNat_radixField (h : Word) : (radixField h).toNat = h.toNat / 2 ^ 12 % 2 ^ 6 := by
  simp [radixField, BitVec.extractLsb'_toNat, Nat.shiftRight_eq_div_pow]

theorem toNat_rsvField (h : Word) : (rsvField h).toNat = h.toNat / 2 ^ 18 % 2 ^ 14 := by
  simp [rsvField, BitVec.extractLsb'_toNat, Nat.shiftRight_eq_div_pow]

theorem toNat_nField (h : Word) : (nField h).toNat = h.toNat / 2 ^ 32 := by
  have := h.isLt
  simp only [nField, BitVec.extractLsb'_toNat, Nat.shiftRight_eq_div_pow]
  omega

theorem opField_eq_ofNat (h : Word) : opField h = BitVec.ofNat 8 (h.toNat % 2 ^ 8) := by
  rw [← toNat_opField, BitVec.ofNat_toNat, BitVec.setWidth_eq]

/-- The operand format a frame's opcode byte selects; `none` for a reserved opcode (R76, R77). -/
def frameFormat (f : Frame) : Option Format := (Opcode.ofCode (opField (headerOf f))).map Opcode.format

theorem format_eq (f : Frame) : (Opcode.ofCode (opField (headerOf f))).map Opcode.format = frameFormat f := rfl

/-- Format S is the format of one opcode alone (R76). -/
theorem Opcode.eq_fromStrRadix_of_format {o : Opcode} (h : o.format = .S) : o = .fromStrRadix := by
  cases o with
  | fromStrRadix => rfl
  | _ => cases h

theorem opField_of_frameFormat_S {f : Frame} (h : frameFormat f = some .S) : opField (headerOf f) = 0x71#8 := by
  obtain ⟨o, ho, hS⟩ := Option.map_eq_some_iff.1 h
  rw [← Opcode.code_of_ofCode ho, Opcode.eq_fromStrRadix_of_format hS]
  rfl

theorem payloadWords_eq (h : Word) :
    payloadWords h = if (opField h).toNat = 0x71 then ((nField h).toNat + 7) / 8 else 0 := by
  simp [payloadWords, ← BitVec.toNat_inj]

/-! ## The type field -/

theorem WidthSel.ofCode_eq_none_iff (c : BitVec 3) : WidthSel.ofCode c = none ↔ 5 ≤ c.toNat := by
  revert c
  decide

theorem tyOf_eq_none_iff (h : Word) : tyOf h = none ↔ 5 ≤ (wselField h).toNat := by
  rw [← WidthSel.ofCode_eq_none_iff]
  cases hk : WidthSel.ofCode (wselField h) <;> simp [tyOf, hk]

/-- The width of a width select below 5, as a number (R64). -/
def widthOfSelect (cfg : Config) (wsel : Nat) : Nat :=
  if wsel = 0 then 8 else if wsel = 1 then 16 else if wsel = 2 then 32 else if wsel = 3 then 64 else cfg.ptrw.bits

theorem width_of_tyOf (cfg : Config) {h : Word} {ty : Ty} (hty : tyOf h = some ty) :
    Machine.width cfg ty = widthOfSelect cfg (wselField h).toNat := by
  cases hk : WidthSel.ofCode (wselField h) with
  | none => simp [tyOf, hk] at hty
  | some k =>
    obtain rfl : _ = ty := by simpa [tyOf, hk] using hty
    rw [← WidthSel.code_of_ofCode hk]
    cases k <;> rfl

/-! ## The checks, one by one -/

theorem bne_zero_iff {w : Nat} (x : BitVec w) : (x != 0#w) = true ↔ x.toNat ≠ 0 := by
  simp [← BitVec.toNat_inj]

theorem fails_k1_iff (cfg : Config) (f : Frame) : Check.k1.fails cfg f = true ↔ f.length < 3 := by
  simp [Check.fails]

theorem fails_k2_iff (cfg : Config) (f : Frame) : Check.k2.fails cfg f = true ↔ (rsvField (headerOf f)).toNat ≠ 0 :=
  bne_zero_iff _

theorem fails_k3_iff (cfg : Config) (f : Frame) : Check.k3.fails cfg f = true ↔ frameFormat f = none := by
  simp [Check.fails, frameFormat]

theorem fails_k4_iff (cfg : Config) (f : Frame) : Check.k4.fails cfg f = true ↔ 5 ≤ (wselField (headerOf f)).toNat := by
  rw [← WidthSel.ofCode_eq_none_iff, ← Option.isNone_iff_eq_none]
  rfl

/-- K5: operand A is unused by N, D and S, B by all but VV, `n` by N, U and VV, and the radix by N, U, VV and VC (R63). -/
theorem fails_k5_iff (cfg : Config) (f : Frame) :
    Check.k5.fails cfg f = true ↔
      (frameFormat f ∈ [some .N, some .D, some .S] ∧ (aWord f).toNat ≠ 0) ∨
      (frameFormat f ∈ [some .N, some .U, some .VC, some .D, some .S] ∧ (bWord f).toNat ≠ 0) ∨
      (frameFormat f ∈ [some .N, some .U, some .VV] ∧ (nField (headerOf f)).toNat ≠ 0) ∨
      (frameFormat f ∈ [some .N, some .U, some .VV, some .VC] ∧ (radixField (headerOf f)).toNat ≠ 0) := by
  simp only [← bne_zero_iff, Check.fails, format_eq]
  cases frameFormat f with
  | none => simp
  | some fmt => cases fmt <;> simp [unusedFieldSet, or_assoc]

/-- K6: A is a value operand of U, VV and VC, and B of VV (R63). -/
theorem operandNotCanonical_iff (fmt : Format) (w : Nat) (f : Frame) :
    operandNotCanonical fmt w f = true ↔
      (fmt ∈ [.U, .VV, .VC] ∧ 2 ^ w ≤ (aWord f).toNat) ∨ (fmt = .VV ∧ 2 ^ w ≤ (bWord f).toNat) := by
  cases fmt <;> simp [operandNotCanonical, Machine.canonical]

theorem fails_k6_iff (cfg : Config) (f : Frame) :
    Check.k6.fails cfg f = true ↔ (wselField (headerOf f)).toNat < 5 ∧
      ((frameFormat f ∈ [some .U, some .VV, some .VC] ∧
          2 ^ widthOfSelect cfg (wselField (headerOf f)).toNat ≤ (aWord f).toNat) ∨
        (frameFormat f = some .VV ∧ 2 ^ widthOfSelect cfg (wselField (headerOf f)).toNat ≤ (bWord f).toNat)) := by
  simp only [Check.fails, format_eq]
  cases hty : tyOf (headerOf f) with
  | none => simp [Nat.not_lt.2 ((tyOf_eq_none_iff _).1 hty)]
  | some ty =>
    have hlt : (wselField (headerOf f)).toNat < 5 := by
      rw [← Nat.not_le, ← tyOf_eq_none_iff, hty]
      simp
    rw [← width_of_tyOf cfg hty, and_iff_right hlt]
    cases frameFormat f with
    | none => simp
    | some fmt => simp [operandNotCanonical_iff]

theorem fails_k7_iff (cfg : Config) (f : Frame) :
    Check.k7.fails cfg f = true ↔ frameFormat f = some .D ∧ 2 ^ 8 ≤ (nField (headerOf f)).toNat := by
  have := (nField (headerOf f)).isLt
  simp only [Check.fails, format_eq, Bool.and_eq_true, beq_iff_eq, bne_zero_iff, BitVec.extractLsb'_toNat,
    Nat.shiftRight_eq_div_pow]
  exact and_congr_right fun _ => by omega

theorem fails_k8_iff (cfg : Config) (f : Frame) :
    Check.k8.fails cfg f = true ↔ frameFormat f ∈ [some .D, some .S] ∧
      ((radixField (headerOf f)).toNat < 2 ∨ 36 < (radixField (headerOf f)).toNat) := by
  simp [Check.fails, format_eq, Machine.radixLegal]

theorem fails_k9_iff (cfg : Config) (f : Frame) :
    Check.k9.fails cfg f = true ↔ frameFormat f = some .S ∧ cfg.strmax < (nField (headerOf f)).toNat := by
  simp [Check.fails, format_eq]

theorem fails_k10_iff (cfg : Config) (f : Frame) :
    Check.k10.fails cfg f = true ↔ 3 ≤ f.length ∧
      f.length ≠ 3 + (if (opField (headerOf f)).toNat = 0x71 then ((nField (headerOf f)).toNat + 7) / 8 else 0) := by
  simp [Check.fails, payloadWords_eq]

/-- Shifting a word right leaves something exactly when the word reaches the first bit kept. -/
theorem ushiftRight_bne_zero_iff (x : Word) (k : Nat) : (x >>> k != 0#64) = true ↔ 2 ^ k ≤ x.toNat := by
  rw [bne_zero_iff, BitVec.toNat_ushiftRight, Nat.shiftRight_eq_div_pow, Nat.div_ne_zero_iff]
  simp

theorem fails_k11_iff (cfg : Config) (f : Frame) :
    Check.k11.fails cfg f = true ↔ frameFormat f = some .S ∧ (nField (headerOf f)).toNat % 8 ≠ 0 ∧
      2 ^ (8 * ((nField (headerOf f)).toNat % 8)) ≤
        (f.getD (2 + ((nField (headerOf f)).toNat + 7) / 8) 0#64).toNat := by
  simp only [Check.fails, format_eq, Bool.and_eq_true, beq_iff_eq]
  refine and_congr_right fun hS => ?_
  have hp : payloadWords (headerOf f) = ((nField (headerOf f)).toNat + 7) / 8 := by
    rw [payloadWords_eq, opField_of_frameFormat_S hS]
    rfl
  rw [paddingSet, hp, Bool.and_eq_true, ushiftRight_bne_zero_iff, bne_iff_ne]

/-- Some check fails when one of the eleven does. -/
theorem exists_fails_iff (cfg : Config) (f : Frame) :
    (∃ k : Check, k.fails cfg f = true) ↔
      Check.k1.fails cfg f = true ∨ Check.k2.fails cfg f = true ∨ Check.k3.fails cfg f = true ∨
      Check.k4.fails cfg f = true ∨ Check.k5.fails cfg f = true ∨ Check.k6.fails cfg f = true ∨
      Check.k7.fails cfg f = true ∨ Check.k8.fails cfg f = true ∨ Check.k9.fails cfg f = true ∨
      Check.k10.fails cfg f = true ∨ Check.k11.fails cfg f = true := by
  constructor
  · rintro ⟨k, hk⟩
    cases k <;> simp [hk]
  · rintro (h | h | h | h | h | h | h | h | h | h | h) <;> exact ⟨_, h⟩

/-- A frame that fails no check encodes a command: K3 and K4 give the opcode and the type (R78, R79). -/
theorem decode_of_no_fails {cfg : Config} {f : Frame} (h : ¬ ∃ k : Check, k.fails cfg f = true) :
    ∃ i, decode cfg f = .ok i := by
  have hpass : ∀ k : Check, k.fails cfg f = false := fun k => Bool.eq_false_iff.2 (not_exists.1 h k)
  cases hop : Opcode.ofCode (opField (headerOf f)) with
  | none => exact absurd ⟨.k3, by simp [Check.fails, hop]⟩ h
  | some op =>
    cases hty : tyOf (headerOf f) with
    | none => exact absurd ⟨.k4, (fails_k4_iff cfg f).2 ((tyOf_eq_none_iff _).1 hty)⟩ h
    | some ty => exact ⟨_, decode_of_checks hpass hop hty⟩

end Sys2Proof

namespace Sys2Proof.Machine

/-! ## The answer to a frame that fails a check -/

/-- A step on a frame that fails a check emits IllegalRequest with the frame's echo fields (R71, R78). -/
theorem step_of_fails {s : State} {f : Frame} {rest : List Frame} {k : Check} (hl : s.config.legal = true)
    (hp : s.pending = f :: rest) (hk : k.fails s.config f = true) :
    step s = .next { s with pending := rest, emitted := s.emitted ++ [illegalResponse f] } := by
  obtain ⟨k', hd⟩ := decode_of_fails hk
  rw [step_eq_frameResponse hl hp, frameResponse_of_error hd]

/-- Appending puts the left pattern's number above the right pattern's bits. -/
theorem toNat_append_eq_add {m n : Nat} (x : BitVec m) (y : BitVec n) :
    (x ++ y).toNat = x.toNat * 2 ^ n + y.toNat := by
  rw [BitVec.toNat_append, ← Nat.shiftLeft_add_eq_or_of_lt y.isLt, Nat.shiftLeft_eq]

/-- Word 0 of a response as a number (R71). -/
theorem toNat_responseHeader (op : BitVec 8) (ty cause : BitVec 4) :
    (responseHeader op ty cause).toNat = cause.toNat + op.toNat * 2 ^ 8 + ty.toNat * 2 ^ 16 := by
  simp only [responseHeader, toNat_append_eq_add, BitVec.toNat_ofNat]
  omega

/-- Word 0 of an IllegalRequest response as R71 lays it out. -/
theorem responseHeader_illegalRequest (op : BitVec 8) (ty : BitVec 4) :
    responseHeader op ty Cause.illegalRequest.code = 0#44 ++ ty ++ op ++ 0x06#8 :=
  BitVec.append_assoc

/-- The IllegalRequest response as numbers: cause 6 and bits 7:0 and 11:8 of the header (R71, R257). -/
theorem illegalResponse_eq (f : Frame) :
    illegalResponse f =
      { word0 := BitVec.ofNat 64 (6 + (headerOf f).toNat % 2 ^ 8 * 2 ^ 8 + (headerOf f).toNat / 2 ^ 8 % 2 ^ 4 * 2 ^ 16)
        word1 := 0#64 } := by
  have hnum := toNat_responseHeader (opField (headerOf f)) (tyField (headerOf f)) 6#4
  rw [toNat_opField, toNat_tyField] at hnum
  have hword := congrArg (BitVec.ofNat 64) hnum
  rw [BitVec.ofNat_toNat, BitVec.setWidth_eq] at hword
  exact congrArg (Response.mk · 0#64) hword

/-- Settles O4: a reserved opcode fails K3. -/
theorem reservedOpcodeIsIllegal : Obligations.ReservedOpcodeIsIllegal := by
  refine ⟨reservedCodes_length, ?_⟩
  intro s f rest hl hp hop
  have hk : Check.k3.fails s.config f = true := by
    rw [fails_k3_iff, frameFormat, Option.map_eq_none_iff]
    exact Opcode.ofCode_eq_none_iff.2 hop
  rw [step_of_fails hl hp hk, illegalResponse, encodeResponse, Answer.causeCode, responseHeader_illegalRequest]
  rfl

/-- Settles O3: each condition on the words' numbers is one of the checks, so that the first clause is `step_of_fails` and the
second `decode_of_no_fails`. -/
theorem legalExactlyWhenChecksPass : Obligations.LegalExactlyWhenChecksPass := by
  intro s f rest hl hp h op wsel radix rsv n a b w fmt k1 k2 k3 k4 k5 k6 k7 k8 k9 k10 k11
  have hchecks : (∃ k : Check, k.fails s.config f = true) ↔
      k1 ∨ k2 ∨ k3 ∨ k4 ∨ k5 ∨ k6 ∨ k7 ∨ k8 ∨ k9 ∨ k10 ∨ k11 := by
    rw [exists_fails_iff, fails_k1_iff, fails_k2_iff, fails_k3_iff, fails_k4_iff, fails_k5_iff, fails_k6_iff,
      fails_k7_iff, fails_k8_iff, fails_k9_iff, fails_k10_iff, fails_k11_iff, toNat_opField, toNat_wselField,
      toNat_radixField, toNat_rsvField, toNat_nField, frameFormat, opField_eq_ofNat]
    exact Iff.rfl
  rw [← hchecks]
  constructor
  · rintro ⟨k, hk⟩
    rw [step_of_fails hl hp hk, illegalResponse_eq]
    rfl
  · intro hnone
    obtain ⟨i, hi⟩ := decode_of_no_fails hnone
    exact ⟨i, hi, (step_of_request hl hp).trans (answerFrame_ok hi)⟩

end Sys2Proof.Machine
end

section
/-! PROOFS. What the constants and the sign classification answer (R100 to R106), from the values of patterns (R10). -/

namespace Sys2Proof.Machine

/-! ## Answers to plain frames -/

/-- A command whose frame is a plain header with two operand words, and whose meaning responds, answers OK (R61, R72). -/
theorem answersOk_plainFrame {i : Instr} {s : State} {w : Nat} {p : BitVec w} {n : BitVec 32} {a b : Word} (op : Opcode)
    (hframe : encode i = [headerWord op.code i.ty 0#6 n, a, b]) (hexec : exec i s = respond op i.ty p s) :
    AnswersOk i (plainFrame n i.ty op.code a b) s op.code p :=
  answersOk_of_respond (by rw [hframe, headerWord_plain]; rfl) rfl hexec

/-! ## The sign of a value -/

/-- A signed pattern is negative when its top bit is set (R106). -/
theorem val_signed_neg_iff {w : Nat} (x : BitVec w) : val true x < 0 ↔ x.getLsbD (w - 1) = true := by
  rw [val_signed, ← BitVec.msb_eq_getLsbD_last, BitVec.msb_eq_toInt, decide_eq_true_iff]

theorem val_unsigned_nonneg {w : Nat} (x : BitVec w) : 0 ≤ val false x := Int.natCast_nonneg _

/-- An unsigned pattern is positive when it is not zero (R105). -/
theorem val_unsigned_pos_iff {w : Nat} (x : BitVec w) : 0 < val false x ↔ x ≠ 0#w := by
  rw [val_unsigned, Int.natCast_pos, Nat.pos_iff_ne_zero]
  simp [← BitVec.toNat_inj]

/-! ## The absolute value -/

theorem wrap_abs_val_unsigned {w : Nat} (x : BitVec w) : wrap w |val false x| = x := by
  rw [abs_of_nonneg (val_unsigned_nonneg x), wrap_val]

/-- The signed value is MINV for the MIN pattern alone (R100). -/
theorem val_signed_eq_minv_iff {w : Nat} (hw : 0 < w) (x : BitVec w) :
    val true x = minv true w ↔ x = BitVec.intMin w := by
  rw [← BitVec.toInt_inj, BitVec.toInt_intMin_of_pos hw]
  rfl

/-- `2^(W−1)` and `−2^(W−1)` are congruent, so the absolute value of the MIN pattern wraps to the MIN pattern (R103). -/
theorem wrap_abs_val_intMin {w : Nat} (hw : 0 < w) : wrap w |val true (BitVec.intMin w)| = BitVec.intMin w := by
  have hval : val true (BitVec.intMin w) = -2 ^ (w - 1) := BitVec.toInt_intMin_of_pos hw
  have hcongr : |val true (BitVec.intMin w)| ≡ val true (BitVec.intMin w) [ZMOD 2 ^ w] := by
    rw [hval, abs_neg, abs_of_pos (by positivity), Int.modEq_iff_dvd, two_pow_eq_double w hw]
    exact ⟨-1, by ring⟩
  rw [wrap_congr hcongr, wrap_val]

/-- For every other signed pattern the absolute value is in range, and so is read back unchanged (R103). -/
theorem val_wrap_abs_val_signed {w : Nat} (hw : 0 < w) {x : BitVec w} (hx : x ≠ BitVec.intMin w) :
    val true (wrap w |val true x|) = |val true x| := by
  have hne := mt (val_signed_eq_minv_iff hw x).1 hx
  have hlo := minv_le_val true x
  have hhi := val_le_maxv true x
  refine val_wrap hw ((inRange_iff true w _).2 ?_)
  simp only [minv, maxv, if_true] at hne hlo hhi ⊢
  have hpos : (0 : Int) < 2 ^ (w - 1) := by positivity
  rw [abs_eq_max_neg]
  omega

/-- ABS answers `wrap(|v|)`: its meaning takes |v| as a natural number (R103). -/
theorem answersOk_abs (ty : Ty) (a : Word) (s : State) :
    AnswersOk (.abs ty a) (plainFrame 0#32 ty 0x10#8 a 0#64) s 0x10#8
      (wrap (width s.config ty) |val ty.signed (a.setWidth (width s.config ty))|) := by
  rw [← Int.natCast_natAbs]
  exact answersOk_plainFrame .abs rfl rfl

/-! ## The obligations -/

/-- Settles O25: MINV, MAXV and W of the type, each as the meaning responds it. -/
theorem constantsAnswer : Obligations.ConstantsAnswer := by
  intro ty s w
  exact ⟨answersOk_plainFrame .min rfl rfl, answersOk_plainFrame .max rfl rfl, answersOk_plainFrame .bits rfl rfl⟩

/-- Settles O26: |v| is v for unsigned types, congruent to v for the MIN pattern, and in range elsewhere. -/
theorem absAndSignumAnswer : Obligations.AbsAndSignumAnswer := by
  intro ty a s w x v
  have hw : 0 < w := width_pos s.config ty
  refine ⟨⟨wrap w |v|, answersOk_abs ty a s, rfl, fun hu => ?_, fun hs hmin => ?_, fun hs hmin => ?_⟩,
    answersOk_plainFrame .signum rfl rfl⟩
  · simp only [v, hu]
    exact wrap_abs_val_unsigned x
  · simp only [v, hs, hmin]
    exact wrap_abs_val_intMin hw
  · simp only [v, hs]
    exact val_wrap_abs_val_signed hw hmin

/-- Settles O27: the answers are the boolean results (R13), and the sign is read off the pattern by signedness. -/
theorem signTestsAnswer : Obligations.SignTestsAnswer := by
  intro ty a s w x v
  refine ⟨?_, ?_, fun hs => ?_, fun hu => ?_⟩
  · have hbool : ofBool w (decide (0 < v)) = wrap w (if v > 0 then 1 else 0) := by simp [ofBool_eq]
    rw [← hbool]
    exact answersOk_plainFrame .isPositive rfl rfl
  · have hbool : ofBool w (decide (v < 0)) = wrap w (if v < 0 then 1 else 0) := by simp [ofBool_eq]
    rw [← hbool]
    exact answersOk_plainFrame .isNegative rfl rfl
  · simp only [v, hs]
    exact val_signed_neg_iff x
  · simp only [v, hu]
    exact ⟨val_unsigned_pos_iff x, Int.not_lt.2 (val_unsigned_nonneg x)⟩

end Sys2Proof.Machine
end

section
/-! PROOFS. What the bitwise operators and the shifts answer (R120 to R125), from the bits and the values of patterns (R10), and
the boolean algebra of their answers (R126). -/

namespace Sys2Proof.Machine

/-! ## Operands -/

/-- Below the width, the pattern of an operand word has the word's own bits (R66). -/
theorem getLsbD_operand (s : State) (ty : Ty) (a : Word) {i : Nat} (hi : i < width s.config ty) :
    (operand s ty a).getLsbD i = a.getLsbD i := by
  rw [operand, getLsbD_pattern, decide_eq_true hi, Bool.true_and]

/-- An answer sent back as an operand of the same type is read as the pattern it carries (R72). -/
@[simp] theorem operand_zext64 (s : State) (ty : Ty) (p : BitVec (width s.config ty)) : operand s ty (zext64 p) = p :=
  pattern_zext64 p (width_le_64 s.config ty)

/-- A command whose frame is a plain header with two operand words, and whose meaning raises, answers with that cause (R61,
R72). -/
theorem answersErr_plainFrame {i : Instr} {s : State} {n : BitVec 32} {a b : Word} (op : Opcode) (c : Cause)
    (hframe : encode i = [headerWord op.code i.ty 0#6 n, a, b]) (hexec : exec i s = raise op i.ty c s) :
    AnswersErr i (plainFrame n i.ty op.code a b) s op.code c.code :=
  answersErr_of_raise (by rw [hframe, headerWord_plain]; rfl) rfl hexec

/-! ## NOT as a negation -/

/-- NOT is `wrap(−val(a) − 1)` for every type (R123). -/
theorem wrap_neg_val_sub_one (sg : Bool) {w : Nat} (x : BitVec w) : wrap w (-val sg x - 1) = ~~~x := by
  have hneg : wrap w (-val sg x) = -x := BitVec.ofInt_neg.trans (congrArg Neg.neg (wrap_val sg x))
  calc wrap w (-val sg x - 1)
      = wrap w (-val sg x) + wrap w (-1) := by rw [sub_eq_add_neg]; exact BitVec.ofInt_add _ _
    _ = -x - 1#w := by rw [hneg, BitVec.sub_eq_add_neg]; exact congrArg (-x + ·) BitVec.ofInt_neg
    _ = ~~~x := (BitVec.not_eq_neg_add x).symm

/-- The signed range is symmetric about −1/2, so NOT negates a signed value and subtracts 1 without a wrap (R123). -/
theorem val_signed_not {w : Nat} (hw : 0 < w) (x : BitVec w) : val true (~~~x) = -val true x - 1 := by
  have hlo := minv_le_val true x
  have hhi := val_le_maxv true x
  rw [← wrap_neg_val_sub_one true x]
  refine val_wrap hw ((inRange_iff true w _).2 ?_)
  simp only [minv, maxv, if_true] at hlo hhi ⊢
  omega

/-! ## SHL as a shift of bits -/

/-- Multiplying the unsigned reading by 2^n moves the bits n places up and discards those that leave the width (R124). -/
theorem wrap_toNat_mul_two_pow {w : Nat} (x : BitVec w) (n : Nat) : wrap w (x.toNat * 2 ^ n) = x <<< n := by
  rw [wrap_eq_iff, BitVec.toNat_shiftLeft, Nat.shiftLeft_eq]
  push_cast
  exact Int.mod_modEq _ _

theorem exec_shl_of_lt {ty : Ty} {n : BitVec 32} {s : State} (a : Word) (h : n.toNat < width s.config ty) :
    exec (.shl ty a n) s = respond .shl ty (operand s ty a <<< n.toNat) s := by
  rw [← wrap_toNat_mul_two_pow]
  exact if_neg (mt (shiftOutOfRange_iff _ _).1 (Nat.not_le.2 h))

theorem exec_shl_of_le {ty : Ty} {n : BitVec 32} {s : State} (a : Word) (h : width s.config ty ≤ n.toNat) :
    exec (.shl ty a n) s = raise .shl ty .shiftRange s :=
  if_pos ((shiftOutOfRange_iff _ _).2 h)

/-! ## SHR as a shift of bits -/

/-- The right shift of R125 on patterns: arithmetic for a signed type, logical for an unsigned one (D14). -/
def shiftRightBySign (sg : Bool) {w : Nat} (x : BitVec w) (n : Nat) : BitVec w :=
  if sg then x.sshiftRight n else x >>> n

/-- The value of a shifted pattern is the value divided by 2^n, rounded down, for either signedness (R125). -/
theorem val_shiftRightBySign (sg : Bool) {w : Nat} (x : BitVec w) (n : Nat) :
    val sg (shiftRightBySign sg x n) = val sg x / 2 ^ n := by
  cases sg with
  | false => simp [shiftRightBySign, Nat.shiftRight_eq_div_pow]
  | true => simp [shiftRightBySign, BitVec.toInt_sshiftRight, Int.shiftRight_eq_div_pow]

/-- Bit i of a shifted pattern is bit i + n, and above the top bit the sign of a signed type or 0 (R125). -/
theorem getLsbD_shiftRightBySign (sg : Bool) {w : Nat} (x : BitVec w) (n : Nat) {i : Nat} (hi : i < w) :
    (shiftRightBySign sg x n).getLsbD i =
      if i + n ≤ w - 1 then x.getLsbD (i + n) else sg && x.getLsbD (w - 1) := by
  cases sg with
  | false =>
    rw [shiftRightBySign, if_neg Bool.false_ne_true, BitVec.getLsbD_ushiftRight, Nat.add_comm n i, Bool.false_and]
    split
    · rfl
    · exact BitVec.getLsbD_of_ge x _ (by omega)
  | true =>
    have hle : i + n ≤ w - 1 ↔ i + n < w := by omega
    rw [shiftRightBySign, if_pos rfl, BitVec.getLsbD_sshiftRight, BitVec.msb_eq_getLsbD_last, Nat.add_comm n i]
    simp only [hle, hi, Nat.not_le.2, decide_false, Bool.not_false, Bool.true_and]

/-- `wrap(val(a) div 2^n)` is the shifted pattern (R125). -/
theorem wrap_val_fdiv_two_pow (sg : Bool) {w : Nat} (x : BitVec w) (n : Nat) :
    wrap w ((val sg x).fdiv (2 ^ n)) = shiftRightBySign sg x n := by
  rw [Int.fdiv_eq_ediv_of_nonneg _ (by positivity), ← val_shiftRightBySign, wrap_val]

theorem exec_shr_of_lt {ty : Ty} {n : BitVec 32} {s : State} (a : Word) (h : n.toNat < width s.config ty) :
    exec (.shr ty a n) s = respond .shr ty (shiftRightBySign ty.signed (operand s ty a) n.toNat) s := by
  rw [← wrap_val_fdiv_two_pow]
  exact if_neg (mt (shiftOutOfRange_iff _ _).1 (Nat.not_le.2 h))

theorem exec_shr_of_le {ty : Ty} {n : BitVec 32} {s : State} (a : Word) (h : width s.config ty ≤ n.toNat) :
    exec (.shr ty a n) s = raise .shr ty .shiftRange s :=
  if_pos ((shiftOutOfRange_iff _ _).2 h)

/-! ## The values of the bitwise answers -/

theorem okValue_or (s : State) (ty : Ty) (a b : Word) :
    okValue s (.or ty a b) = some (zext64 (operand s ty a ||| operand s ty b)) :=
  okValue_of_respond (i := .or ty a b) rfl

theorem okValue_and (s : State) (ty : Ty) (a b : Word) :
    okValue s (.and ty a b) = some (zext64 (operand s ty a &&& operand s ty b)) :=
  okValue_of_respond (i := .and ty a b) rfl

theorem okValue_xor (s : State) (ty : Ty) (a b : Word) :
    okValue s (.xor ty a b) = some (zext64 (operand s ty a ^^^ operand s ty b)) :=
  okValue_of_respond (i := .xor ty a b) rfl

theorem okValue_not (s : State) (ty : Ty) (a : Word) :
    okValue s (.not ty a) = some (zext64 (~~~operand s ty a)) :=
  okValue_of_respond (i := .not ty a) rfl

theorem and_xor_distrib_left {w : Nat} (x y z : BitVec w) : x &&& (y ^^^ z) = (x &&& y) ^^^ (x &&& z) :=
  BitVec.eq_of_getLsbD_eq fun i _ => by
    simp only [BitVec.getLsbD_and, BitVec.getLsbD_xor, Bool.and_xor_distrib_left]

/-- XOR is "one of the two, and not both" (R126). -/
theorem xor_eq_or_and_not_and {w : Nat} (x y : BitVec w) : x ^^^ y = (x ||| y) &&& ~~~(x &&& y) := by
  refine BitVec.eq_of_getLsbD_eq fun i hi => ?_
  simp only [BitVec.getLsbD_and, BitVec.getLsbD_xor, BitVec.getLsbD_or, BitVec.getLsbD_not, hi, decide_true,
    Bool.true_and]
  cases x.getLsbD i <;> cases y.getLsbD i <;> rfl

/-! ## The obligations -/

/-- Settles O28: the answers are the patterns' own bitwise operators, and NOT negates a signed value less 1. -/
theorem bitwiseAnswerPerBit : Obligations.BitwiseAnswerPerBit := by
  intro ty a b s w
  refine ⟨operand s ty a ||| operand s ty b, operand s ty a &&& operand s ty b, operand s ty a ^^^ operand s ty b,
    ~~~operand s ty a, answersOk_plainFrame .or rfl rfl, answersOk_plainFrame .and rfl rfl,
    answersOk_plainFrame .xor rfl rfl, answersOk_plainFrame .not rfl rfl, fun i hi => ?_, fun _ => ?_⟩
  · have ha := getLsbD_operand s ty a hi
    have hb := getLsbD_operand s ty b hi
    rw [BitVec.getLsbD_or, BitVec.getLsbD_and, BitVec.getLsbD_xor, BitVec.getLsbD_not, ha, hb]
    exact ⟨rfl, rfl, rfl, by rw [decide_eq_true hi, Bool.true_and]⟩
  · exact val_signed_not (width_pos s.config ty) _

/-- Settles O29: below W the answer is the operand shifted left, and from W on the meaning raises ShiftRange. -/
theorem shiftLeftAnswer : Obligations.ShiftLeftAnswer := by
  intro ty a n s w x
  refine ⟨fun hlt => ?_, fun hle => ?_⟩
  · refine ⟨x <<< n.toNat, answersOk_plainFrame .shl rfl (exec_shl_of_lt a hlt), (wrap_toNat_mul_two_pow x _).symm,
      fun i hi => ?_⟩
    rw [BitVec.getLsbD_shiftLeft, decide_eq_true hi, Bool.true_and, ← decide_not]
    simp only [Nat.not_lt]
  · exact answersErr_plainFrame .shl .shiftRange rfl (exec_shl_of_le a hle)

/-- Settles O30: below W the answer is the operand shifted right by its signedness, whose value is the floor of the quotient, and
from W on the meaning raises ShiftRange. -/
theorem shiftRightAnswer : Obligations.ShiftRightAnswer := by
  intro ty a n s w x
  refine ⟨fun hlt => ?_, fun hle => ?_⟩
  · refine ⟨shiftRightBySign ty.signed x n.toNat, answersOk_plainFrame .shr rfl (exec_shr_of_lt a hlt), ?_,
      fun i hi => getLsbD_shiftRightBySign ty.signed x n.toNat hi⟩
    have hfloor := Rat.floor_intCast_div_natCast (val ty.signed x) (2 ^ n.toNat)
    push_cast at hfloor
    rw [val_shiftRightBySign, hfloor]
  · exact answersErr_plainFrame .shr .shiftRange rfl (exec_shr_of_le a hle)

/-- Settles O44: each side is the value word of a bitwise expression in the operands, so that each law of answers is that law of
patterns. -/
theorem booleanAlgebra : Obligations.BooleanAlgebra := by
  intro ty a b c s or and xor not
  simp only [or, and, xor, not, okValue_or, okValue_and, okValue_xor, okValue_not, Option.bind_some, operand_zext64,
    Option.isSome_some]
  generalize operand s ty a = x, operand s ty b = y, operand s ty c = z
  have word {p q : BitVec (width s.config ty)} (h : p = q) : some (zext64 p) = some (zext64 q) := by rw [h]
  exact ⟨⟨word (BitVec.or_comm x y), word (BitVec.and_comm x y), word (BitVec.xor_comm x y)⟩,
    ⟨word (BitVec.or_assoc x y z), word (BitVec.and_assoc x y z), word (BitVec.xor_assoc x y z)⟩,
    ⟨word BitVec.and_or_distrib_left, word (and_xor_distrib_left x y z)⟩,
    word BitVec.not_and, word (xor_eq_or_and_not_and x y), trivial⟩

end Sys2Proof.Machine
end

section
/-! PROOFS. What the population and zero counts answer (R140 to R143): the numbers of set and clear bits of the pattern, and the
places of its outermost set bits. -/

namespace Sys2Proof.Machine

/-! ## Population counts -/

/-- The number of i below w with `a[i] = b`, the count of R140 for b = 1 and of R141 for b = 0. -/
def countBits (b : Bool) (w : Nat) (a : Word) : Nat := ((Finset.range w).filter (fun i => a.getLsbD i = b)).card

theorem countBits_le (b : Bool) (w : Nat) (a : Word) : countBits b w a ≤ w :=
  (Finset.card_filter_le _ _).trans_eq (Finset.card_range w)

/-- Each bit below w is either 1 or 0, and is counted once (R144). -/
theorem countBits_true_add_countBits_false (w : Nat) (a : Word) : countBits true w a + countBits false w a = w := by
  have hsplit := Finset.card_filter_add_card_filter_not (s := Finset.range w) (fun i => a.getLsbD i = true)
  simpa only [countBits, Bool.not_eq_true, Finset.card_range] using hsplit

/-- The meanings count along the list of positions; the count is that of the set of positions (R140, R141). -/
theorem countP_range_eq_countBits {f : Nat → Bool} {b : Bool} {w : Nat} {a : Word}
    (hf : ∀ i, i < w → (f i = true ↔ a.getLsbD i = b)) : (List.range w).countP f = countBits b w a := by
  have hcard := Nat.count_eq_card_filter_range (fun i => f i = true) w
  simp only [Nat.count, Bool.decide_eq_true] at hcard
  rw [hcard, countBits, Finset.filter_congr fun i hi => hf i (Finset.mem_range.1 hi)]

/-- The ones of the pattern are those of the operand word below the width (R140). -/
theorem countP_operand (s : State) (ty : Ty) (a : Word) :
    (List.range (width s.config ty)).countP (fun i => (operand s ty a).getLsbD i) =
      countBits true (width s.config ty) a :=
  countP_range_eq_countBits fun i hi => by rw [getLsbD_operand s ty a hi]

/-- The zeros of the pattern are those of the operand word below the width; those above are not counted (R141). -/
theorem countP_not_operand (s : State) (ty : Ty) (a : Word) :
    (List.range (width s.config ty)).countP (fun i => !(operand s ty a).getLsbD i) =
      countBits false (width s.config ty) a :=
  countP_range_eq_countBits fun i hi => by rw [getLsbD_operand s ty a hi, Bool.not_eq_true']

theorem exec_countOnes (ty : Ty) (a : Word) (s : State) :
    exec (.countOnes ty a) s =
      respond .countOnes ty (wrap (width s.config ty) (countBits true (width s.config ty) a)) s := by
  rw [← countP_operand]
  rfl

theorem exec_countZeros (ty : Ty) (a : Word) (s : State) :
    exec (.countZeros ty a) s =
      respond .countZeros ty (wrap (width s.config ty) (countBits false (width s.config ty) a)) s := by
  rw [← countP_not_operand]
  rfl

/-- A count of at most W is in range of every type, signed or not, since W ≤ 2^(W−1) − 1 at every width (R13). -/
theorem val_wrap_count (cfg : Config) (ty : Ty) {k : Nat} (hk : k ≤ width cfg ty) :
    val ty.signed (wrap (width cfg ty) k) = k := by
  have hw := width_pos cfg ty
  have hmax : ((width cfg ty : Nat) : Int) ≤ 2 ^ (width cfg ty - 1) - 1 := by
    rcases width_cases cfg ty with h | h | h | h <;> rw [h] <;> norm_num
  have hdouble := two_pow_eq_double (width cfg ty) hw
  refine val_wrap hw ((inRange_iff _ _ _).2 ?_)
  cases ty.signed <;> simp only [minv, maxv, Bool.false_eq_true, if_true, if_false] <;> omega

/-! ## Zero counts -/

theorem eq_zero_of_getLsbD_eq_false {w : Nat} {x : BitVec w} (h : ∀ j, j < w → x.getLsbD j = false) : x = 0#w :=
  BitVec.eq_of_getLsbD_eq fun i hi => (h i hi).trans BitVec.getLsbD_zero.symm

/-- The search from the top finds nothing in the zero pattern alone (R142). -/
theorem highestSet_eq_none_iff {w : Nat} (x : BitVec w) : highestSet x w = none ↔ x = 0#w := by
  refine ⟨fun h => eq_zero_of_getLsbD_eq_false (highestSet_none x w h), ?_⟩
  rintro rfl
  refine Option.eq_none_iff_forall_ne_some.2 fun i hi => ?_
  obtain ⟨-, hset, -⟩ := highestSet_some _ w i hi
  simp at hset

/-- The search from the bottom finds nothing in the zero pattern alone (R143). -/
theorem lowestSet_eq_none_iff {w : Nat} (x : BitVec w) : lowestSet x = none ↔ x = 0#w := by
  refine ⟨fun h => eq_zero_of_getLsbD_eq_false (lowestSet_none x h), ?_⟩
  rintro rfl
  refine Option.eq_none_iff_forall_ne_some.2 fun i hi => ?_
  obtain ⟨-, hset, -⟩ := lowestSet_some _ i hi
  simp at hset

theorem exec_leadingZeros_of_none {ty : Ty} {a : Word} {s : State}
    (h : highestSet (operand s ty a) (width s.config ty) = none) :
    exec (.leadingZeros ty a) s = respond .leadingZeros ty (wrap (width s.config ty) (width s.config ty)) s := by
  simp only [exec, execLeadingZeros, h]

theorem exec_leadingZeros_of_some {ty : Ty} {a : Word} {s : State} {i : Nat}
    (h : highestSet (operand s ty a) (width s.config ty) = some i) :
    exec (.leadingZeros ty a) s =
      respond .leadingZeros ty (wrap (width s.config ty) ((width s.config ty : Int) - 1 - i)) s := by
  simp only [exec, execLeadingZeros, h]

theorem exec_trailingZeros_of_none {ty : Ty} {a : Word} {s : State} (h : lowestSet (operand s ty a) = none) :
    exec (.trailingZeros ty a) s = respond .trailingZeros ty (wrap (width s.config ty) (width s.config ty)) s := by
  simp only [exec, execTrailingZeros, h]

theorem exec_trailingZeros_of_some {ty : Ty} {a : Word} {s : State} {i : Nat}
    (h : lowestSet (operand s ty a) = some i) :
    exec (.trailingZeros ty a) s = respond .trailingZeros ty (wrap (width s.config ty) i) s := by
  simp only [exec, execTrailingZeros, h]

/-! ## The obligations -/

/-- Settles O31: the answers are the numbers of set and clear bits below W, in range of the type and so not wrapped. -/
theorem populationCountsAnswer : Obligations.PopulationCountsAnswer := by
  intro ty a s w k z
  exact ⟨wrap w k, wrap w z,
    answersOk_plainFrame .countOnes rfl (exec_countOnes ty a s), val_wrap_count s.config ty (countBits_le true w a),
    answersOk_plainFrame .countZeros rfl (exec_countZeros ty a s), val_wrap_count s.config ty (countBits_le false w a),
    countBits_true_add_countBits_false w a⟩

/-- Settles O32: both searches fail on the zero pattern alone, and otherwise find the outermost set bits. -/
theorem zeroCountsAnswer : Obligations.ZeroCountsAnswer := by
  intro ty a s w x
  refine ⟨fun hzero => ⟨?_, ?_⟩, fun hne => ⟨?_, ?_⟩⟩
  · exact answersOk_plainFrame .leadingZeros rfl (exec_leadingZeros_of_none ((highestSet_eq_none_iff x).2 hzero))
  · exact answersOk_plainFrame .trailingZeros rfl (exec_trailingZeros_of_none ((lowestSet_eq_none_iff x).2 hzero))
  · obtain ⟨i, hsome⟩ := Option.ne_none_iff_exists'.1 (mt (highestSet_eq_none_iff x).1 hne)
    obtain ⟨hi, hset, hclear⟩ := highestSet_some x w i hsome
    refine ⟨i, hi, hset, fun j hj => ?_,
      answersOk_plainFrame .leadingZeros rfl (exec_leadingZeros_of_some hsome)⟩
    rcases Nat.lt_or_ge j w with hjw | hjw
    · exact hclear j hj hjw
    · exact BitVec.getLsbD_of_ge x j hjw
  · obtain ⟨i, hsome⟩ := Option.ne_none_iff_exists'.1 (mt (lowestSet_eq_none_iff x).1 hne)
    obtain ⟨hi, hset, hclear⟩ := lowestSet_some x i hsome
    exact ⟨i, hi, hset, hclear,
      answersOk_plainFrame .trailingZeros rfl (exec_trailingZeros_of_some hsome)⟩

end Sys2Proof.Machine
end

section
/-! PROOFS. What rotation, byte swap and bit reversal answer (R160 to R166), from where each bit of the pattern goes, and the
involution of the byte swap on answers (R165). -/

namespace Sys2Proof.Machine

/-! ## Rotation -/

/-- The meaning counts the places of a left rotation up from `W − r`, where R160 subtracts r modulo W. -/
theorem add_sub_mod_eq_toNat_emod {w r : Nat} (hr : r < w) (i : Nat) :
    (i + (w - r)) % w = (((i : Int) - (r : Int)) % (w : Int)).toNat := by
  have hcast : ((i + (w - r) : Nat) : Int) = (i : Int) - r + w := by omega
  rw [← Int.toNat_natCast ((i + (w - r)) % w), Int.natCast_emod, hcast, Int.add_emod_right]

/-! ## The byte swap -/

/-- The place in the operand of bit i of the byte swap: the same place in the byte mirrored among the `W/8` bytes (R164). -/
def byteMirror (w i : Nat) : Nat := 8 * (w / 8 - 1 - i / 8) + i % 8

theorem byteMirror_lt {w i : Nat} (h8 : 8 ∣ w) (hi : i < w) : byteMirror w i < w := by
  obtain ⟨b, rfl⟩ := h8
  unfold byteMirror
  omega

/-- Mirroring the bytes twice puts every bit back (R165). -/
theorem byteMirror_byteMirror {w i : Nat} (h8 : 8 ∣ w) (hi : i < w) : byteMirror w (byteMirror w i) = i := by
  obtain ⟨b, rfl⟩ := h8
  unfold byteMirror
  omega

/-- In byte j the mirrored place is the same place in byte `W/8 − 1 − j` (R164). -/
theorem byteMirror_byte (w j : Nat) {k : Nat} (hk : k < 8) :
    byteMirror w (8 * j + k) = 8 * (w / 8 - 1 - j) + k := by
  unfold byteMirror
  rw [show (8 * j + k) / 8 = j by omega, show (8 * j + k) % 8 = k by omega]

/-- Below the width, bit i of the byte swap is the operand's bit in the mirrored byte (R164). -/
theorem getLsbD_swapBytes_of_lt {w : Nat} (x : BitVec w) {i : Nat} (hi : i < w) :
    (swapBytes x).getLsbD i = x.getLsbD (byteMirror w i) := by
  rw [getLsbD_swapBytes, decide_eq_true hi, Bool.true_and, byteMirror]

/-- Byte j of the byte swap is byte `W/8 − 1 − j` of the pattern (R164). -/
theorem extractLsb'_swapBytes {w : Nat} (x : BitVec w) {j : Nat} (hj : j < w / 8) :
    (swapBytes x).extractLsb' (8 * j) 8 = x.extractLsb' (8 * (w / 8 - 1 - j)) 8 := by
  refine BitVec.eq_of_getLsbD_eq fun k hk => ?_
  rw [BitVec.getLsbD_extractLsb', BitVec.getLsbD_extractLsb', getLsbD_swapBytes_of_lt x (by omega), byteMirror_byte w j hk]

/-- A byte of the pattern of an operand word is the word's own byte (R66). -/
theorem extractLsb'_operand (s : State) (ty : Ty) (a : Word) {j : Nat} (hj : j < width s.config ty / 8) :
    (operand s ty a).extractLsb' (8 * j) 8 = a.extractLsb' (8 * j) 8 := by
  refine BitVec.eq_of_getLsbD_eq fun k hk => ?_
  rw [BitVec.getLsbD_extractLsb', BitVec.getLsbD_extractLsb', getLsbD_operand s ty a (by omega)]

@[simp] theorem zext64_zero (w : Nat) : zext64 0#w = 0#64 := BitVec.setWidth_zero 64 w

@[simp] theorem operand_zero (s : State) (ty : Ty) : operand s ty 0#64 = 0#(width s.config ty) :=
  BitVec.setWidth_zero _ 64

/-- The byte swap is its own inverse at every width of whole bytes (R165). -/
theorem swapBytes_swapBytes {w : Nat} (h8 : 8 ∣ w) (x : BitVec w) : swapBytes (swapBytes x) = x :=
  BitVec.eq_of_getLsbD_eq fun i hi => by
    rw [getLsbD_swapBytes_of_lt _ hi, getLsbD_swapBytes_of_lt x (byteMirror_lt h8 hi), byteMirror_byteMirror h8 hi]

theorem swapBytes_zero (w : Nat) : swapBytes 0#w = 0#w :=
  BitVec.eq_of_getLsbD_eq fun i hi => by
    rw [getLsbD_swapBytes_of_lt _ hi, BitVec.getLsbD_zero, BitVec.getLsbD_zero]

theorem swapBytes_allOnes {w : Nat} (h8 : 8 ∣ w) : swapBytes (BitVec.allOnes w) = BitVec.allOnes w :=
  BitVec.eq_of_getLsbD_eq fun i hi => by
    rw [getLsbD_swapBytes_of_lt _ hi, BitVec.getLsbD_allOnes, BitVec.getLsbD_allOnes, decide_eq_true hi,
      decide_eq_true (byteMirror_lt h8 hi)]

theorem okValue_swapBytes (s : State) (ty : Ty) (a : Word) :
    okValue s (.swapBytes ty a) = some (zext64 (swapBytes (operand s ty a))) :=
  okValue_of_respond (i := .swapBytes ty a) rfl

/-! ## The obligations -/

/-- Settles O33: the meanings respond without a check of the count, and place each bit as R160 and R161 say. -/
theorem rotationsAnswer : Obligations.RotationsAnswer := by
  intro ty a n s w
  have hw : 0 < w := width_pos s.config ty
  refine ⟨_, _, answersOk_plainFrame .rotateLeft rfl rfl, answersOk_plainFrame .rotateRight rfl rfl,
    fun i hi => ⟨?_, ?_⟩⟩
  · rw [getLsbD_ofBits, decide_eq_true hi, Bool.true_and, getLsbD_operand s ty a (Nat.mod_lt _ hw),
      add_sub_mod_eq_toNat_emod (Nat.mod_lt _ hw)]
  · rw [getLsbD_ofBits, decide_eq_true hi, Bool.true_and, getLsbD_operand s ty a (Nat.mod_lt _ hw)]

/-- Settles O34: the bytes of the swap are the operand's in mirrored order, and the bits of the reversal likewise. -/
theorem swapAndReverseAnswer : Obligations.SwapAndReverseAnswer := by
  intro ty a s w
  refine ⟨swapBytes (operand s ty a), _, answersOk_plainFrame .swapBytes rfl rfl,
    answersOk_plainFrame .reverseBits rfl rfl, fun j hj => ?_, fun i hi => ?_⟩
  · rw [extractLsb'_swapBytes _ hj, extractLsb'_operand s ty a (by omega)]
  · rw [getLsbD_ofBits, decide_eq_true hi, Bool.true_and, getLsbD_operand s ty a (by omega)]

/-- Settles O48: an answer sent back is read as the pattern it carries, so each law of answers is that law of patterns. -/
theorem byteSwapInvolution : Obligations.ByteSwapInvolution := by
  intro ty a s w swap
  have h8 : 8 ∣ w := eight_dvd_width s.config ty
  refine ⟨?_, ?_, ?_⟩
  · simp only [swap, okValue_swapBytes, Option.bind_some, operand_zext64, swapBytes_swapBytes h8]
    rfl
  · simp only [swap, okValue_swapBytes, operand_zero, swapBytes_zero, zext64_zero]
  · simp only [swap, okValue_swapBytes, operand_zext64, w, swapBytes_allOnes h8]

end Sys2Proof.Machine
end

section
/-! PROOFS. What the wrapping arithmetic and the checked division answer (R190 to R194), from the operators of patterns and from
the range of the quotient. -/

namespace Sys2Proof.Machine

/-! ## Wrapping arithmetic -/

/-- Either reading of the operands wraps to the sum of the patterns (R190). -/
theorem wrap_val_add_val (sg : Bool) {w : Nat} (x y : BitVec w) : wrap w (val sg x + val sg y) = x + y := by
  calc wrap w (val sg x + val sg y)
      = wrap w (val sg x) + wrap w (val sg y) := BitVec.ofInt_add _ _
    _ = x + y := by rw [wrap_val, wrap_val]

/-- Either reading of the operand wraps to the negation of the pattern (R192). -/
theorem wrap_neg_val (sg : Bool) {w : Nat} (x : BitVec w) : wrap w (-val sg x) = -x := by
  calc wrap w (-val sg x)
      = -wrap w (val sg x) := BitVec.ofInt_neg
    _ = -x := by rw [wrap_val]

/-- Either reading of the operands wraps to the difference of the patterns (R191). -/
theorem wrap_val_sub_val (sg : Bool) {w : Nat} (x y : BitVec w) : wrap w (val sg x - val sg y) = x - y := by
  calc wrap w (val sg x - val sg y)
      = wrap w (val sg x) + wrap w (-val sg y) := by rw [Int.sub_eq_add_neg]; exact BitVec.ofInt_add _ _
    _ = x - y := by rw [wrap_val, wrap_neg_val, BitVec.sub_eq_add_neg]

/-- Either reading of the operands wraps to the product of the patterns (R193). -/
theorem wrap_val_mul_val (sg : Bool) {w : Nat} (x y : BitVec w) : wrap w (val sg x * val sg y) = x * y := by
  rw [wrap_mul, wrap_val, wrap_val]

theorem exec_add (ty : Ty) (a b : Word) (s : State) :
    exec (.add ty a b) s = respond .add ty (operand s ty a + operand s ty b) s := by
  rw [← wrap_val_add_val ty.signed]
  rfl

theorem exec_sub (ty : Ty) (a b : Word) (s : State) :
    exec (.sub ty a b) s = respond .sub ty (operand s ty a - operand s ty b) s := by
  rw [← wrap_val_sub_val ty.signed]
  rfl

theorem exec_neg (ty : Ty) (a : Word) (s : State) :
    exec (.neg ty a) s = respond .neg ty (-operand s ty a) s := by
  rw [← wrap_neg_val ty.signed]
  rfl

theorem exec_mul (ty : Ty) (a b : Word) (s : State) :
    exec (.mul ty a b) s = respond .mul ty (operand s ty a * operand s ty b) s := by
  rw [← wrap_val_mul_val ty.signed]
  rfl

/-! ## Rounding toward zero -/

/-- The integer next to a rational number on the side of zero, `trunc` of R194. -/
def roundTowardZero (q : ℚ) : Int := if 0 ≤ q then Int.floor q else Int.ceil q

theorem tdiv_natCast_eq_roundTowardZero (x : Int) (d : Nat) : x.tdiv d = roundTowardZero ((x : ℚ) / d) := by
  rcases lt_or_ge x 0 with hx | hx
  · rcases Nat.eq_zero_or_pos d with rfl | hd
    · simp [roundTowardZero]
    · have hq : (x : ℚ) / d < 0 := div_neg_of_neg_of_pos (Int.cast_lt_zero.2 hx) (Nat.cast_pos.2 hd)
      rw [roundTowardZero, if_neg (not_le.2 hq), Rat.ceil_intCast_div_natCast,
        ← Int.tdiv_eq_ediv_of_nonneg (by omega), Int.neg_tdiv, neg_neg]
  · have hq : 0 ≤ (x : ℚ) / d := div_nonneg (Int.cast_nonneg hx) (Nat.cast_nonneg d)
    rw [roundTowardZero, if_pos hq, Rat.floor_intCast_div_natCast, Int.tdiv_eq_ediv_of_nonneg hx]

/-- The division of the meaning rounds the rational quotient toward zero (R194). -/
theorem tdiv_eq_roundTowardZero (x y : Int) : x.tdiv y = roundTowardZero ((x : ℚ) / y) := by
  obtain ⟨d, rfl | rfl⟩ := y.eq_nat_or_neg
  · exact tdiv_natCast_eq_roundTowardZero x d
  · have hquot : (x : ℚ) / (-(d : Int) : Int) = ((-x : Int) : ℚ) / d := by push_cast; rw [div_neg, neg_div]
    rw [hquot, ← tdiv_natCast_eq_roundTowardZero, Int.tdiv_neg, Int.neg_tdiv]

/-! ## The range of the quotient -/

/-- The quotient of two unsigned values is at most the dividend (R194). -/
theorem inRange_tdiv_val_unsigned {w : Nat} (x y : BitVec w) :
    inRange false w ((val false x).tdiv (val false y)) = true :=
  (inRange_iff false w _).2
    ⟨Int.tdiv_nonneg (val_unsigned_nonneg x) (val_unsigned_nonneg y),
      (Int.tdiv_le_self _ (val_unsigned_nonneg x)).trans (val_le_maxv false x)⟩

/-- A divisor of magnitude 2 or more at least halves the magnitude of the dividend. -/
theorem natAbs_tdiv_le_half {x y : Int} (hy : 2 ≤ y.natAbs) : (x.tdiv y).natAbs ≤ x.natAbs / 2 := by
  rw [Int.natAbs_tdiv]
  exact Nat.div_le_div_left hy Nat.two_pos

/-- A signed quotient leaves the range only where −1 divides MINV: dividing by 1 keeps the dividend, dividing by −1 negates it,
and any other divisor halves its magnitude (R194). -/
theorem inRange_tdiv_val_signed {w : Nat} {x y : BitVec w} (hzero : val true y ≠ 0)
    (hover : ¬ (val true x = minv true w ∧ val true y = -1)) :
    inRange true w ((val true x).tdiv (val true y)) = true := by
  have hlo := minv_le_val true x
  have hhi := val_le_maxv true x
  have hpos : (0 : Int) < 2 ^ (w - 1) := by positivity
  by_cases hone : val true y = 1
  · rw [hone, Int.tdiv_one]
    exact inRange_val true x
  by_cases hneg : val true y = -1
  · rw [hneg, Int.tdiv_neg, Int.tdiv_one, inRange_iff]
    have hmin : val true x ≠ minv true w := fun h => hover ⟨h, hneg⟩
    simp only [minv, maxv, if_true] at hlo hhi hmin ⊢
    omega
  · have hhalf := natAbs_tdiv_le_half (x := val true x) (y := val true y) (by omega)
    rw [inRange_iff]
    simp only [minv, maxv, if_true] at hlo hhi ⊢
    omega

/-- Where a quotient is defined it is in range, so that the wrap does not change it (R194). -/
theorem inRange_tdiv_val {sg : Bool} {w : Nat} {x y : BitVec w} (h : divisionUndefined sg x y = false) :
    inRange sg w ((val sg x).tdiv (val sg y)) = true := by
  rw [Bool.eq_false_iff, Ne, divisionUndefined_iff, not_or] at h
  obtain ⟨hzero, hover⟩ := h
  cases sg with
  | false => exact inRange_tdiv_val_unsigned x y
  | true => exact inRange_tdiv_val_signed hzero fun hminv => hover ⟨rfl, hminv⟩

theorem exec_checkedDiv_of_undefined {ty : Ty} {a b : Word} {s : State}
    (h : divisionUndefined ty.signed (operand s ty a) (operand s ty b) = true) :
    exec (.checkedDiv ty a b) s = raise .checkedDiv ty .divisionUndefined s :=
  if_pos h

theorem exec_checkedDiv_of_defined {ty : Ty} {a b : Word} {s : State}
    (h : divisionUndefined ty.signed (operand s ty a) (operand s ty b) = false) :
    exec (.checkedDiv ty a b) s =
      respond .checkedDiv ty
        (wrap (width s.config ty) ((val ty.signed (operand s ty a)).tdiv (val ty.signed (operand s ty b)))) s :=
  if_neg (Bool.eq_false_iff.1 h)

/-- The condition of R194 as it stands there, with MINV written out for the signed types. -/
theorem divisionUndefined_iff_twoPow (sg : Bool) {w : Nat} (x y : BitVec w) :
    divisionUndefined sg x y = true ↔ val sg y = 0 ∨ (sg = true ∧ val sg x = -(2 ^ (w - 1)) ∧ val sg y = -1) := by
  rw [divisionUndefined_iff]
  refine or_congr_right (and_congr_right ?_)
  rintro rfl
  exact Iff.rfl

/-! ## The obligations -/

/-- Settles O36: the answers are the patterns' own operators, to which both readings wrap. -/
theorem wrappingArithmeticAnswer : Obligations.WrappingArithmeticAnswer := by
  intro ty a b s w x y
  exact ⟨x + y, x - y, -x, x * y,
    answersOk_plainFrame .add rfl (exec_add ty a b s), answersOk_plainFrame .sub rfl (exec_sub ty a b s),
    answersOk_plainFrame .neg rfl (exec_neg ty a s), answersOk_plainFrame .mul rfl (exec_mul ty a b s),
    fun sg _ => ⟨(wrap_val_add_val sg x y).symm, (wrap_val_sub_val sg x y).symm, (wrap_neg_val sg x).symm,
      (wrap_val_mul_val sg x y).symm⟩⟩

/-- Settles O37: the detector's condition is the premise; where it is false the quotient is in range, and so is read back
unchanged. -/
theorem checkedDivisionAnswer : Obligations.CheckedDivisionAnswer := by
  intro ty a b s w x y
  have hundef := divisionUndefined_iff_twoPow ty.signed (operand s ty a) (operand s ty b)
  refine ⟨fun h => ?_, fun h => ⟨wrap w (x.tdiv y), ?_, ?_⟩⟩
  · exact answersErr_plainFrame .checkedDiv .divisionUndefined rfl (exec_checkedDiv_of_undefined (hundef.2 h))
  · exact answersOk_plainFrame .checkedDiv rfl (exec_checkedDiv_of_defined (Bool.eq_false_iff.2 (mt hundef.1 h)))
  · have hrange := inRange_tdiv_val (Bool.eq_false_iff.2 (mt hundef.1 h))
    exact (val_wrap (width_pos s.config ty) hrange).trans (tdiv_eq_roundTowardZero x y)

end Sys2Proof.Machine
end

section
/-! PROOFS. What the digit mapper and the string parser answer (R210 to R215), from the digit table and from the split of a
string into its sign and its digits, and why leading zeros change no parse (R216). -/

namespace Sys2Proof.Machine

/-! ## DIGIT -/

/-- A character is no digit below the radix when it is no digit at all, or one whose value is the radix or more (R211). -/
theorem digitBelow_eq_none {radix : Nat} {c : Byte} :
    digitBelow radix c = none ↔ ∀ d, dig c = some d → radix ≤ d := by
  simp [Option.eq_none_iff_forall_ne_some, digitBelow_eq_some]

theorem exec_digit_of_some {c : Byte} {radix : BitVec 6} {d : Nat} (ty : Ty) (s : State)
    (h : digitBelow radix.toNat c = some d) :
    exec (.digit ty c radix) s = respond .digit ty (wrap (width s.config ty) d) s := by
  simp only [exec, execDigit, h]

theorem exec_digit_of_none {c : Byte} {radix : BitVec 6} (ty : Ty) (s : State) (h : digitBelow radix.toNat c = none) :
    exec (.digit ty c radix) s = raise .digit ty .parseFormatError s := by
  simp only [exec, execDigit, h]

theorem encode_digit (ty : Ty) (c : Byte) (radix : BitVec 6) :
    encode (.digit ty c radix) = [0#24 ++ c ++ 0#14 ++ radix ++ ty.code ++ 0x70#8, 0#64, 0#64] :=
  congrArg (· :: [0#64, 0#64]) (headerWord_digit c radix ty 0x70#8)

/-! ## The sign and the digits of a string -/

/-- The sign is a leading `-` of a signed type, and the digits are what stands behind it (R212). -/
theorem splitSign_eq (sg : Bool) (str : List Byte) :
    splitSign sg str =
      (sg && decide (str.head? = some 0x2D#8), if sg && decide (str.head? = some 0x2D#8) then str.tail else str) := by
  cases str with
  | nil => simp
  | cons c rest =>
    by_cases hc : c = 0x2D#8
    · subst hc
      cases sg with
      | false => simp [splitSign_unsigned]
      | true => simp [splitSign_minus]
    · simp [splitSign_cons_of_ne sg hc, hc]

/-- A text written with or without the sign of a signed type, and no `-` behind it, splits where it was put together (R212). -/
theorem splitSign_signedText {sg neg : Bool} {text : List Byte} (hneg : neg = true → sg = true)
    (htext : text.head? ≠ some 0x2D#8) :
    splitSign sg ((if neg then [0x2D#8] else []) ++ text) = (neg, text) := by
  cases neg with
  | false => simp [splitSign_eq, htext]
  | true => simp [splitSign_eq, hneg rfl]

/-! ## The parser by its cases -/

section
variable {sg neg : Bool} {radix : Nat} {str digits : List Byte} (w : Nat)

/-- A string without digits is no number (R213). -/
theorem parseAnswer_of_nil (hsplit : splitSign sg str = (neg, [])) :
    parseAnswer sg w radix str = .err .parseFormatError := by
  simp [parseAnswer, hsplit]

/-- A string with a character that is no digit below the radix is no number, whatever the digits before it (R213, R215). -/
theorem parseAnswer_of_digitValues_none (hsplit : splitSign sg str = (neg, digits))
    (hds : digitValues radix digits = none) : parseAnswer sg w radix str = .err .parseFormatError := by
  simp [parseAnswer, hsplit, hds]

/-- A string of digits below the radix parses to its signed magnitude where that is in range (R213). -/
theorem parseAnswer_of_digitValues_some {ds : List Nat} (hsplit : splitSign sg str = (neg, digits)) (hne : digits ≠ [])
    (hds : digitValues radix digits = some ds) :
    parseAnswer sg w radix str =
      if inRange sg w (if neg then -(magnitude radix ds : Int) else magnitude radix ds) then
        .ok (wrap w (if neg then -(magnitude radix ds : Int) else magnitude radix ds))
      else .err .parseRangeError := by
  simp [parseAnswer, hsplit, hds, hne]

end

/-! ## The magnitude as a sum -/

/-- Evaluated from the left or summed by places, the magnitude is the same number (R213). -/
theorem magnitude_eq_sum (radix : Nat) (ds : List Nat) :
    magnitude radix ds = ∑ k ∈ Finset.range ds.length, ds.getD k 0 * radix ^ (ds.length - 1 - k) := by
  induction ds with
  | nil => rfl
  | cons d ds ih =>
    rw [magnitude_cons, ih, List.length_cons, Finset.sum_range_succ', Nat.add_comm]
    refine congrArg₂ (· + ·) (Finset.sum_congr rfl fun k _ => ?_) rfl
    rw [List.getD_cons_succ, show ds.length + 1 - 1 - (k + 1) = ds.length - 1 - k by omega]

theorem length_of_digitValues {radix : Nat} {cs : List Byte} {ds : List Nat} (h : digitValues radix cs = some ds) :
    ds.length = cs.length :=
  (digitValues_eq_some.1 h).length_eq.symm

/-- The k-th digit value is the value of the k-th character (R213). -/
theorem dig_of_digitValues {radix k : Nat} {cs : List Byte} {ds : List Nat} (h : digitValues radix cs = some ds)
    (hk : k < cs.length) : cs[k]?.bind dig = some (ds.getD k 0) := by
  have hkd : k < ds.length := by rwa [length_of_digitValues h]
  have hdigit := (digitValues_eq_some.1 h).get hk hkd
  simpa [hk, hkd] using (digitBelow_eq_some.1 hdigit).1

/-! ## FROM_STR_RADIX -/

section
variable {ty : Ty} {str : List Byte} {radix : BitVec 6} {s : State}

theorem exec_fromStrRadix_of_ok {p : BitVec (width s.config ty)}
    (h : parseAnswer ty.signed (width s.config ty) radix.toNat str = .ok p) :
    exec (.fromStrRadix ty str radix) s = respond .fromStrRadix ty p s := by
  simp only [exec, execFromStrRadix, h, respond]

theorem exec_fromStrRadix_of_err {c : Cause}
    (h : parseAnswer ty.signed (width s.config ty) radix.toNat str = .err c) :
    exec (.fromStrRadix ty str radix) s = raise .fromStrRadix ty c s := by
  simp only [exec, execFromStrRadix, h, finish_eq]

/-- What FROM_STR_RADIX answers depends on the parse of its string alone (R213). -/
theorem exec_fromStrRadix_congr {str' : List Byte}
    (h : parseAnswer ty.signed (width s.config ty) radix.toNat str =
      parseAnswer ty.signed (width s.config ty) radix.toNat str') :
    exec (.fromStrRadix ty str radix) s = exec (.fromStrRadix ty str' radix) s :=
  congrArg (finish .fromStrRadix ty · s) h

end

/-! ## Leading zeros -/

/-- The character `0` is the digit 0 in every non-zero radix (R210). -/
theorem digitBelow_zero {radix : Nat} (h : 0 < radix) : digitBelow radix 0x30#8 = some 0 :=
  digitBelow_eq_some.2 ⟨by decide, h⟩

/-- Leading `0` characters put as many zeros in front of the digit values, and make no format error (R216). -/
theorem digitValues_zeros_append {radix : Nat} (h : 0 < radix) (zeros : Nat) (cs : List Byte) :
    digitValues radix (List.replicate zeros 0x30#8 ++ cs) =
      (digitValues radix cs).map (List.replicate zeros 0 ++ ·) := by
  induction zeros with
  | zero => simp
  | succ zeros ih =>
    rw [List.replicate_succ, List.cons_append, digitValues, digitBelow_zero h, ih]
    cases digitValues radix cs <;> rfl

/-- Leading zero digits do not change the magnitude (R216). -/
theorem magnitude_zeros_append (radix zeros : Nat) (ds : List Nat) :
    magnitude radix (List.replicate zeros 0 ++ ds) = magnitude radix ds := by
  induction zeros with
  | zero => rfl
  | succ zeros ih => rw [List.replicate_succ, List.cons_append, magnitude_cons, ih, Nat.zero_mul, Nat.zero_add]

/-- A text of `0` characters and then a text with no leading `-` has no leading `-` either. -/
theorem head?_zeros_append {text : List Byte} (zeros : Nat) (h : text.head? ≠ some 0x2D#8) :
    (List.replicate zeros 0x30#8 ++ text).head? ≠ some 0x2D#8 := by
  cases zeros with
  | zero => exact h
  | succ zeros => simp [List.replicate_succ]

theorem inRange_zero (sg : Bool) (w : Nat) : inRange sg w 0 = true := by
  have hval : val sg 0#w = 0 := by cases sg <;> simp
  rw [← hval]
  exact inRange_val sg 0#w

theorem wrap_zero (w : Nat) : wrap w 0 = 0#w := by simp [wrap]

section
variable {sg neg : Bool} {radix : Nat}

/-- A string of one or more zeros parses to 0 (R216). -/
theorem parseAnswer_zeros (hneg : neg = true → sg = true) (hradix : 0 < radix) (w zeros : Nat) :
    parseAnswer sg w radix ((if neg then [0x2D#8] else []) ++ List.replicate (zeros + 1) 0x30#8) = .ok 0#w := by
  have hsplit : splitSign sg ((if neg then [0x2D#8] else []) ++ List.replicate (zeros + 1) 0x30#8) =
      (neg, List.replicate (zeros + 1) 0x30#8) :=
    splitSign_signedText hneg (by simp [List.replicate_succ])
  have hds : digitValues radix (List.replicate (zeros + 1) 0x30#8) = some (List.replicate (zeros + 1) 0) := by
    simpa [digitValues] using digitValues_zeros_append hradix (zeros + 1) []
  have hmag : magnitude radix (List.replicate (zeros + 1) 0) = 0 := by
    simpa [magnitude_nil] using magnitude_zeros_append radix (zeros + 1) []
  rw [parseAnswer_of_digitValues_some w hsplit (by simp) hds, hmag]
  simp [inRange_zero, wrap_zero]

/-- Leading zeros change no parse of a text that holds a character: a format error stays one, and a signed magnitude stays the
same number (R216). -/
theorem parseAnswer_zeros_append {text : List Byte} (hneg : neg = true → sg = true) (hradix : 0 < radix)
    (hne : text ≠ []) (htext : text.head? ≠ some 0x2D#8) (w zeros : Nat) :
    parseAnswer sg w radix ((if neg then [0x2D#8] else []) ++ (List.replicate zeros 0x30#8 ++ text)) =
      parseAnswer sg w radix ((if neg then [0x2D#8] else []) ++ text) := by
  have hsplit := splitSign_signedText hneg htext
  have hsplitz := splitSign_signedText hneg (head?_zeros_append zeros htext)
  have hdsz := digitValues_zeros_append hradix zeros text
  cases hds : digitValues radix text with
  | none =>
    rw [hds, Option.map_none] at hdsz
    rw [parseAnswer_of_digitValues_none w hsplit hds, parseAnswer_of_digitValues_none w hsplitz hdsz]
  | some ds =>
    rw [hds, Option.map_some] at hdsz
    rw [parseAnswer_of_digitValues_some w hsplit hne hds,
      parseAnswer_of_digitValues_some w hsplitz (List.append_ne_nil_of_right_ne_nil _ hne) hdsz, magnitude_zeros_append]

end

/-! ## The obligations -/

/-- Settles O40: the meaning's digit test is the table of R210 with the bound of R211. -/
theorem digitAnswer : Obligations.DigitAnswer := by
  intro ty c radix s k d f
  refine ⟨fun v hv hlt => ?_, fun hnone => ?_⟩
  · exact answersOk_of_respond (op := .digit) (encode_digit ty c radix) rfl
      (exec_digit_of_some ty s (digitBelow_eq_some.2 ⟨hv, hlt⟩))
  · exact answersErr_of_raise (op := .digit) (c := .parseFormatError) (encode_digit ty c radix) rfl
      (exec_digit_of_none ty s (digitBelow_eq_none.2 hnone))

/-- Settles O41: the digit values of the string either fail, on its format, or give the signed sum whose range decides. -/
theorem fromStrRadixAnswer : Obligations.FromStrRadixAnswer := by
  intro ty str radix s w neg digits m bad f
  have hsplit : splitSign ty.signed str = (neg, digits) := splitSign_eq ty.signed str
  have hbad : digitValues radix.toNat digits = none ↔ bad := by
    simp only [digitValues_eq_none, digitBelow_eq_none, bad]
  refine ⟨fun hformat => ?_, fun hm hgood => ?_⟩
  · have hparse : parseAnswer ty.signed w radix.toNat str = .err .parseFormatError := by
      rcases hformat with hnil | hchar
      · rw [List.eq_nil_of_length_eq_zero hnil] at hsplit
        exact parseAnswer_of_nil w hsplit
      · exact parseAnswer_of_digitValues_none w hsplit (hbad.2 hchar)
    exact answersErr_of_raise (op := .fromStrRadix) (c := .parseFormatError) rfl rfl (exec_fromStrRadix_of_err hparse)
  · obtain ⟨ds, hds⟩ := Option.ne_none_iff_exists'.1 (mt hbad.1 hgood)
    have hparse := parseAnswer_of_digitValues_some w hsplit (List.ne_nil_of_length_pos (Nat.pos_of_ne_zero hm)) hds
    have hsum : (magnitude radix.toNat ds : Int) =
        ∑ k ∈ Finset.range m, (ds.getD k 0 : Int) * (radix.toNat : Int) ^ (m - 1 - k) := by
      rw [magnitude_eq_sum, length_of_digitValues hds]
      push_cast
      rfl
    rw [hsum] at hparse
    refine ⟨fun k => ds.getD k 0, fun k hk => dig_of_digitValues hds hk, fun hin => ?_, fun hout => ?_⟩
    · exact answersOk_of_respond (op := .fromStrRadix) rfl rfl (exec_fromStrRadix_of_ok (hparse.trans (if_pos hin)))
    · exact answersErr_of_raise (op := .fromStrRadix) (c := .parseRangeError) rfl rfl
        (exec_fromStrRadix_of_err (hparse.trans (if_neg (Bool.eq_false_iff.1 hout))))

/-- Settles O52: the zeros put zero digits in front of the digit values, which the magnitude does not see. -/
theorem leadingZerosDoNotMatter : Obligations.LeadingZerosDoNotMatter := by
  intro ty neg zeros c digits radix s hneg hc hradix
  refine ⟨?_, exec_fromStrRadix_congr
    (parseAnswer_zeros_append hneg hradix (List.cons_ne_nil c digits) (by simpa using hc) _ zeros)⟩
  rw [okValue_of_respond (exec_fromStrRadix_of_ok (parseAnswer_zeros hneg hradix _ zeros)), zext64_zero]

end Sys2Proof.Machine
end

section
/-! PROOFS. What the powers answer (R231, R232): square and multiply on patterns is the wrapped power of the value, and the
overflow detector decides the range of the mathematical power without multiplying it out. -/

namespace Sys2Proof.Machine

/-! ## POW and CHECKED_POW by their cases -/

theorem exec_pow (ty : Ty) (a : Word) (n : BitVec 32) (s : State) :
    exec (.pow ty a n) s =
      respond .pow ty (wrap (width s.config ty) (val ty.signed (operand s ty a) ^ n.toNat)) s := by
  rw [← powWrap_eq_wrap]
  rfl

/-- The bounds of the detector are those of the type, read on the mathematical power (R232). -/
theorem exec_checkedPow (ty : Ty) (a : Word) (n : BitVec 32) (s : State) :
    exec (.checkedPow ty a n) s =
      if inRange ty.signed (width s.config ty) (val ty.signed (operand s ty a) ^ n.toNat) then
        respond .checkedPow ty (wrap (width s.config ty) (val ty.signed (operand s ty a) ^ n.toNat)) s
      else raise .checkedPow ty .arithmeticOverflow s := by
  have hpower := powerInRange_eq ty.signed (width_pos s.config ty) (val ty.signed (operand s ty a)) n.toNat
  by_cases hin : inRange ty.signed (width s.config ty) (val ty.signed (operand s ty a) ^ n.toNat) = true
  · rw [if_pos hin] at hpower ⊢
    simp only [exec, execCheckedPow, hpower]
  · rw [if_neg hin] at hpower ⊢
    simp only [exec, execCheckedPow, hpower]

/-! ## The obligations -/

/-- Settles O38: the 32 rounds of square and multiply reach every 32-bit exponent, and wrapping commutes with powers. -/
theorem powAnswer : Obligations.PowAnswer :=
  fun ty a n s => answersOk_plainFrame .pow rfl (exec_pow ty a n s)

/-- Settles O39: the detector's answer is the mathematical power exactly where that is in range. -/
theorem checkedPowAnswer : Obligations.CheckedPowAnswer := by
  intro ty a n s w z
  have hrange := inRange_iff ty.signed w z
  refine ⟨fun hin => ?_, fun hout => ?_⟩
  · exact answersOk_plainFrame .checkedPow rfl ((exec_checkedPow ty a n s).trans (if_pos (hrange.2 hin)))
  · exact answersErr_plainFrame .checkedPow .arithmeticOverflow rfl
      ((exec_checkedPow ty a n s).trans (if_neg (mt hrange.1 hout)))

end Sys2Proof.Machine
end

section
/-! PROOFS. Which operation can give which cause (R258): the cause of every command's response is OK or one its row of the table
lists, each of these is the cause of some well-formed command, and a malformed frame of any opcode is answered with
IllegalRequest (R257). -/

namespace Sys2Proof.Machine

/-! ## The cause of a command's response -/

/-- What a command finishes with on an idle engine decides the cause of its response (R71). -/
theorem cause_commandResponse_of_finish {cfg : Config} {i : Instr} {op : Opcode} {ty : Ty} {w : Nat} {ans : Answer w}
    (h : exec i (State.idleAt cfg) = finish op ty ans (State.idleAt cfg)) :
    (commandResponse cfg i).cause = ans.causeCode := by
  have hresponse : commandResponse cfg i = encodeResponse op.code ty.code ans := by
    rw [commandResponse, h]
    rfl
  rw [hresponse, cause_encodeResponse]

theorem cause_commandResponse_of_respond {cfg : Config} {i : Instr} {op : Opcode} {ty : Ty} {w : Nat} {p : BitVec w}
    (h : exec i (State.idleAt cfg) = respond op ty p (State.idleAt cfg)) : (commandResponse cfg i).cause = 0#4 :=
  cause_commandResponse_of_finish h

theorem cause_commandResponse_of_raise {cfg : Config} {i : Instr} {op : Opcode} {ty : Ty} {c : Cause}
    (h : exec i (State.idleAt cfg) = raise op ty c (State.idleAt cfg)) : (commandResponse cfg i).cause = c.code :=
  cause_commandResponse_of_finish h

/-- The responses that the runs of a command append, in whatever state, are its one response under the configuration. -/
theorem exists_exec_cause_iff {cfg : Config} {op : Opcode} {c : BitVec 4} :
    (∃ (i : Instr) (s t : State) (r : Response), i.opcode = op ∧ i.wellFormed cfg = true ∧ s.config = cfg ∧
        exec i s = .next t ∧ t.emitted = s.emitted ++ [r] ∧ r.word0.extractLsb' 0 4 = c) ↔
      ∃ i : Instr, i.opcode = op ∧ i.wellFormed cfg = true ∧ (commandResponse cfg i).cause = c := by
  constructor
  · rintro ⟨i, s, t, r, hop, hwf, rfl, hexec, hemitted, rfl⟩
    rw [exec_eq_emit, Host.Outcome.next.injEq] at hexec
    obtain rfl : commandResponse s.config i = r := by simpa [← hexec] using hemitted
    exact ⟨i, hop, hwf, rfl⟩
  · rintro ⟨i, hop, hwf, hc⟩
    exact ⟨i, State.idleAt cfg, _, commandResponse cfg i, hop, hwf, rfl, exec_eq_emit i _, rfl, hc⟩

/-! ## No cause beyond the table -/

/-- A parse fails on the format of its string or on the range of its number, and in no other way (R213). -/
theorem mem_of_parseAnswer_err {sg : Bool} {w radix : Nat} {str : List Byte} {c : Cause}
    (h : parseAnswer sg w radix str = .err c) : c ∈ [Cause.parseFormatError, .parseRangeError] := by
  obtain ⟨neg, digits, hsplit⟩ : ∃ neg digits, splitSign sg str = (neg, digits) := ⟨_, _, rfl⟩
  by_cases hne : digits = []
  · rw [hne] at hsplit
    obtain rfl : Cause.parseFormatError = c := by simpa [parseAnswer_of_nil w hsplit] using h
    simp
  · cases hds : digitValues radix digits with
    | none =>
      obtain rfl : Cause.parseFormatError = c := by simpa [parseAnswer_of_digitValues_none w hsplit hds] using h
      simp
    | some ds =>
      rw [parseAnswer_of_digitValues_some w hsplit hne hds] at h
      generalize (if neg = true then -(magnitude radix ds : Int) else magnitude radix ds) = z at h
      split at h
      · cases h
      · cases h
        simp

/-- The cause codes of an operation's row in the table of R258: OK and the failures it lists. -/
def causeCodes (op : Opcode) : List (BitVec 4) := 0#4 :: (failureCauses op).map Cause.code

theorem zero_mem_causeCodes (op : Opcode) : 0#4 ∈ causeCodes op := List.mem_cons_self

theorem code_mem_causeCodes {op : Opcode} {c : Cause} (h : c ∈ failureCauses op) : c.code ∈ causeCodes op :=
  List.mem_cons_of_mem _ (List.mem_map_of_mem h)

theorem mem_causeCodes_of_respond {cfg : Config} {i : Instr} {ty : Ty} {w : Nat} {p : BitVec w} (op : Opcode)
    (h : exec i (State.idleAt cfg) = respond op ty p (State.idleAt cfg)) :
    (commandResponse cfg i).cause ∈ causeCodes op :=
  cause_commandResponse_of_respond h ▸ zero_mem_causeCodes op

theorem mem_causeCodes_of_raise {cfg : Config} {i : Instr} {op : Opcode} {ty : Ty} {c : Cause}
    (h : exec i (State.idleAt cfg) = raise op ty c (State.idleAt cfg)) (hc : c ∈ failureCauses op) :
    (commandResponse cfg i).cause ∈ causeCodes op :=
  cause_commandResponse_of_raise h ▸ code_mem_causeCodes hc

/-- Every command is answered with OK or with a failure that its operation's row lists, well formed or not (R258): the six
operations of the table raise where their detector says so, and all others only respond. -/
theorem cause_commandResponse_mem (cfg : Config) (i : Instr) : (commandResponse cfg i).cause ∈ causeCodes i.opcode := by
  cases i with
  | shl ty a n =>
    rcases Nat.lt_or_ge n.toNat (width cfg ty) with hlt | hge
    · exact mem_causeCodes_of_respond .shl (exec_shl_of_lt a hlt)
    · exact mem_causeCodes_of_raise (exec_shl_of_le a hge) List.mem_cons_self
  | shr ty a n =>
    rcases Nat.lt_or_ge n.toNat (width cfg ty) with hlt | hge
    · exact mem_causeCodes_of_respond .shr (exec_shr_of_lt a hlt)
    · exact mem_causeCodes_of_raise (exec_shr_of_le a hge) List.mem_cons_self
  | checkedDiv ty a b =>
    cases hd : divisionUndefined ty.signed (pattern (width cfg ty) a) (pattern (width cfg ty) b) with
    | false => exact mem_causeCodes_of_respond .checkedDiv (exec_checkedDiv_of_defined hd)
    | true => exact mem_causeCodes_of_raise (exec_checkedDiv_of_undefined hd) List.mem_cons_self
  | checkedPow ty a n =>
    have hexec := exec_checkedPow ty a n (State.idleAt cfg)
    split at hexec
    · exact mem_causeCodes_of_respond .checkedPow hexec
    · exact mem_causeCodes_of_raise hexec List.mem_cons_self
  | digit ty c radix =>
    cases hd : digitBelow radix.toNat c with
    | some d => exact mem_causeCodes_of_respond .digit (exec_digit_of_some ty _ hd)
    | none => exact mem_causeCodes_of_raise (exec_digit_of_none ty _ hd) List.mem_cons_self
  | fromStrRadix ty str radix =>
    cases hp : parseAnswer ty.signed (width cfg ty) radix.toNat str with
    | ok p => exact mem_causeCodes_of_respond .fromStrRadix (exec_fromStrRadix_of_ok hp)
    | err c => exact mem_causeCodes_of_raise (exec_fromStrRadix_of_err hp) (mem_of_parseAnswer_err hp)
  | _ => exact mem_causeCodes_of_respond _ rfl

/-! ## Every cause of the table -/

/-- The type u8, whose width no configuration changes. -/
def u8 : Ty := ⟨false, .w8⟩

/-- A command of each opcode that is answered OK: on the values 1 and 1, the count 0, the character `0`, the string `0`. -/
def okCommand : Opcode → Instr
  | .digit => .digit u8 0x30#8 10#6
  | .fromStrRadix => .fromStrRadix u8 [0x30#8] 10#6
  | op => commandOf op u8 [0#64, 1#64, 1#64]

theorem okCommand_opcode (op : Opcode) : (okCommand op).opcode = op := by cases op <;> rfl

/-- A string of up to 65 bytes is within STRMAX of every legal configuration (R7, R69). -/
theorem wellFormed_fromStrRadix {cfg : Config} (hl : cfg.legal = true) {str : List Byte} {radix : BitVec 6} (ty : Ty)
    (hstr : str.length ≤ 65) (hradix : radixLegal radix = true) :
    (Instr.fromStrRadix ty str radix).wellFormed cfg = true := by
  obtain ⟨hmax, -⟩ := (legal_iff cfg).1 hl
  simp [Instr.wellFormed, hradix, hstr.trans hmax]

theorem okCommand_wellFormed {cfg : Config} (hl : cfg.legal = true) (op : Opcode) :
    (okCommand op).wellFormed cfg = true := by
  cases op with
  | fromStrRadix => exact wellFormed_fromStrRadix hl u8 (by decide) (by decide)
  | _ => rfl

theorem cause_okCommand (cfg : Config) (op : Opcode) : (commandResponse cfg (okCommand op)).cause = 0#4 := by
  cases op with
  | shl => exact cause_commandResponse_of_respond (exec_shl_of_lt _ (width_pos cfg u8))
  | shr => exact cause_commandResponse_of_respond (exec_shr_of_lt _ (width_pos cfg u8))
  | checkedDiv => exact cause_commandResponse_of_respond (exec_checkedDiv_of_defined rfl)
  | checkedPow => exact cause_commandResponse_of_respond ((exec_checkedPow u8 _ _ _).trans (if_pos rfl))
  | digit => exact cause_commandResponse_of_respond (exec_digit_of_some u8 _ (digitBelow_zero (by decide)))
  | fromStrRadix =>
    have hparse : parseAnswer false 8 10 [0x30#8] = .ok 0#8 := rfl
    exact cause_commandResponse_of_respond (exec_fromStrRadix_of_ok hparse)
  | _ => exact cause_commandResponse_of_respond rfl

/-- Each failure of the table is the answer to a well-formed command on u8: a shift by 8, 1 / 0, 2 ^ 8, the character `/`, the
empty string, and the string `256` (R252 to R256). -/
theorem exists_command_of_mem_failureCauses {cfg : Config} (hl : cfg.legal = true) {op : Opcode} {c : Cause}
    (h : c ∈ failureCauses op) :
    ∃ i : Instr, i.opcode = op ∧ i.wellFormed cfg = true ∧ (commandResponse cfg i).cause = c.code := by
  cases op with
  | shl =>
    obtain rfl := List.mem_singleton.1 h
    exact ⟨.shl u8 1#64 8#32, rfl, rfl, cause_commandResponse_of_raise (exec_shl_of_le _ (Nat.le_refl 8))⟩
  | shr =>
    obtain rfl := List.mem_singleton.1 h
    exact ⟨.shr u8 1#64 8#32, rfl, rfl, cause_commandResponse_of_raise (exec_shr_of_le _ (Nat.le_refl 8))⟩
  | checkedDiv =>
    obtain rfl := List.mem_singleton.1 h
    exact ⟨.checkedDiv u8 1#64 0#64, rfl, rfl, cause_commandResponse_of_raise (exec_checkedDiv_of_undefined rfl)⟩
  | checkedPow =>
    obtain rfl := List.mem_singleton.1 h
    have hover : ¬ inRange false 8 (2 ^ 8) = true := by decide
    exact ⟨.checkedPow u8 2#64 8#32, rfl, rfl,
      cause_commandResponse_of_raise ((exec_checkedPow u8 2#64 8#32 _).trans (if_neg hover))⟩
  | digit =>
    obtain rfl := List.mem_singleton.1 h
    exact ⟨.digit u8 0x2F#8 10#6, rfl, rfl, cause_commandResponse_of_raise (exec_digit_of_none u8 _ rfl)⟩
  | fromStrRadix =>
    obtain rfl | rfl := List.mem_pair.1 h
    · exact ⟨.fromStrRadix u8 [] 10#6, rfl, wellFormed_fromStrRadix hl u8 (by decide) (by decide),
        cause_commandResponse_of_raise (exec_fromStrRadix_of_err rfl)⟩
    · exact ⟨.fromStrRadix u8 [0x32#8, 0x35#8, 0x36#8] 10#6, rfl, wellFormed_fromStrRadix hl u8 (by decide) (by decide),
        cause_commandResponse_of_raise (exec_fromStrRadix_of_err rfl)⟩
  | _ => cases h

/-- The causes of the well-formed commands of an opcode are those of its row in the table of R258. -/
theorem exists_command_cause_iff {cfg : Config} (hl : cfg.legal = true) (op : Opcode) (c : BitVec 4) :
    (∃ i : Instr, i.opcode = op ∧ i.wellFormed cfg = true ∧ (commandResponse cfg i).cause = c) ↔ c ∈ causeCodes op := by
  constructor
  · rintro ⟨i, rfl, -, rfl⟩
    exact cause_commandResponse_mem cfg i
  · intro hc
    obtain rfl | hfail := List.mem_cons.1 hc
    · exact ⟨okCommand op, okCommand_opcode op, okCommand_wellFormed hl op, cause_okCommand cfg op⟩
    · obtain ⟨cause, hcause, rfl⟩ := List.mem_map.1 hfail
      exact exists_command_of_mem_failureCauses hl hcause

/-! ## Malformed frames -/

/-- A header alone is a malformed frame of its opcode: it fails K1 (R60, R78). -/
theorem exists_decode_error (cfg : Config) (op : Opcode) :
    ∃ (f : Frame) (k : Check), opField (headerOf f) = op.code ∧ decode cfg f = .error k := by
  obtain ⟨k, hk⟩ := decode_of_fails (cfg := cfg) (f := [headerWord op.code u8 0#6 0#32]) (k := .k1) rfl
  exact ⟨[headerWord op.code u8 0#6 0#32], k, opField_headerWord _ _ _ _, hk⟩

/-! ## The obligation -/

/-- Settles O23: `causeCodes` is the table, and the response to a refused frame is `illegalResponse`. -/
theorem causesOfEachOperation : Obligations.CausesOfEachOperation := by
  intro cfg op hl
  refine ⟨fun c => ?_, exists_decode_error cfg op, ?_⟩
  · rw [exists_exec_cause_iff, exists_command_cause_iff hl]
    cases op <;> exact Iff.rfl
  · rintro f k - hd s rest rfl hp
    refine ⟨illegalResponse f, ?_, cause_responseHeader _ _ _⟩
    rw [step_eq_frameResponse hl hp, frameResponse_of_error hd]

end Sys2Proof.Machine
end

section
/-! PROOFS. What the reset event does at any point of a run (R280, R281): it empties the pending queue and keeps the rest, so that
the events behind it start from the same engine whatever was in flight. -/

namespace Sys2Proof.Machine

theorem idle_applyReset (s : State) : s.applyReset.idle = true :=
  (idle_iff s.applyReset).2 (applyReset_pending s)

@[simp] theorem applyEvent_reset (s : State) : applyEvent .reset s = .next s.applyReset := rfl

@[simp] theorem runEvents_reset (es : List Event) (s : State) :
    runEvents (.reset :: es) s = runEvents es s.applyReset := by
  simp only [runEvents, applyEvent_reset]

/-- Settles O16: a run that begins with a reset goes on from `applyReset`, which empties the pending queue alone. -/
theorem resetDiscardsRequestsInFlight : Obligations.ResetDiscardsRequestsInFlight := by
  intro s es
  refine ⟨⟨s.applyReset, applyEvent_reset s, idle_applyReset s, applyReset_emitted s, applyReset_config s⟩, ?_⟩
  rw [runEvents_reset, State.applyReset]

end Sys2Proof.Machine
end

section
/-! PROOFS. The round trip of R81. A frame the encoder writes passes every check of R78 and decodes to its command, and a frame
that passes every check is the one the encoder writes for its command: format by format for the frames of three words, byte by
byte for the payload of a string (R69). -/

namespace Sys2Proof

/-! ## The payload of a string -/

theorem stringFrame_length (op : Opcode) (ty : Ty) (str : List Byte) (radix : BitVec 6) :
    (stringFrame op ty str radix).length = 3 + (str.length + 7) / 8 := by
  simp only [stringFrame, List.length_cons, packString_length]
  omega

theorem stringFrame_getD (op : Opcode) (ty : Ty) {str : List Byte} (radix : BitVec 6) {j : Nat}
    (hj : j < (str.length + 7) / 8) : (stringFrame op ty str radix).getD (3 + j) 0#64 = packedWord str j := by
  rw [← packString_getD str j hj, stringFrame, Nat.add_comm]
  rfl

/-- Byte i of the payload is byte i of the string, or zero in the padding (R69). -/
theorem payloadByte_stringFrame (op : Opcode) (ty : Ty) {str : List Byte} (radix : BitVec 6) {i : Nat}
    (hi : i < 8 * ((str.length + 7) / 8)) : payloadByte (stringFrame op ty str radix) i = str.getD i 0#8 := by
  rw [payloadByte, stringFrame_getD op ty radix (by omega), packedWord_byte str _ _ (Nat.mod_lt i (by omega)),
    Nat.div_add_mod]

/-- Settles O8: the payload holds the packed words, whose bytes are the string's. -/
theorem stringBytesInPayload : Obligations.StringBytesInPayload := by
  intro ty str radix
  exact ⟨stringFrame_length .fromStrRadix ty str radix, fun i hi => payloadByte_stringFrame .fromStrRadix ty radix hi⟩

theorem nField_stringFrame (op : Opcode) (ty : Ty) (str : List Byte) (radix : BitVec 6) :
    nField (headerOf (stringFrame op ty str radix)) = BitVec.ofNat 32 str.length := by
  simp [stringFrame, headerOf]

theorem toNat_nField_stringFrame (op : Opcode) (ty : Ty) {str : List Byte} (radix : BitVec 6) (h : str.length < 2 ^ 32) :
    (nField (headerOf (stringFrame op ty str radix))).toNat = str.length := by
  rw [nField_stringFrame, BitVec.toNat_ofNat, Nat.mod_eq_of_lt h]

/-- The string of an encoded string frame is the string (R69). -/
theorem payloadString_stringFrame (op : Opcode) (ty : Ty) {str : List Byte} (radix : BitVec 6) (h : str.length < 2 ^ 32) :
    payloadString (stringFrame op ty str radix) = str := by
  rw [payloadString, toNat_nField_stringFrame op ty radix h]
  refine List.ext_getElem (by simp) fun i hi hlt => ?_
  rw [List.getElem_map, List.getElem_range, payloadByte_stringFrame op ty radix (by omega),
    List.getD_eq_getElem _ _ hlt]

/-- The word behind the last byte of a string holds nothing above the string's end (R69, K11). -/
theorem packedWord_lt (str : List Byte) (j : Nat) :
    (packedWord str j).toNat < 2 ^ (8 * (str.length - 8 * j)) := by
  refine Nat.lt_pow_two_of_testBit _ fun i hi => ?_
  rw [BitVec.testBit_toNat, packedWord, Machine.getLsbD_ofBits,
    List.getD_eq_default _ _ (show str.length ≤ 8 * j + i / 8 by omega), BitVec.getLsbD_zero, Bool.and_false]

/-! ## The checks on encoded frames -/

theorem frameFormat_headerWord (op : Opcode) (ty : Ty) (radix : BitVec 6) (n : BitVec 32) (ws : List Word) :
    frameFormat (headerWord op.code ty radix n :: ws) = some op.format := by
  simp [frameFormat, headerOf]

/-- A frame of three words under a legal header, with its unused fields zero, its operands canonical and its character below
2^8, can fail the radix check alone (R78). -/
theorem eq_k8_of_fails_threeWords {cfg : Config} {op : Opcode} {ty : Ty} {radix : BitVec 6} {n : BitVec 32} {a b : Word}
    {k : Check} (hS : op.format ≠ .S) (hunused : unusedFieldSet op.format [headerWord op.code ty radix n, a, b] = false)
    (hcanon : operandNotCanonical op.format (Machine.width cfg ty) [headerWord op.code ty radix n, a, b] = false)
    (hchar : op.format = .D → n.toNat < 2 ^ 8) (hk : k.fails cfg [headerWord op.code ty radix n, a, b] = true) :
    k = .k8 := by
  have hfmt := frameFormat_headerWord op ty radix n [a, b]
  have hop : op.code.toNat ≠ 0x71 := by
    intro h
    exact hS (congrArg Opcode.format (Opcode.code_injective (p := .fromStrRadix) (BitVec.eq_of_toNat_eq h)))
  cases k with
  | k8 => rfl
  | k1 => simp [fails_k1_iff] at hk
  | k2 => simp [fails_k2_iff, headerOf] at hk
  | k3 => simp [fails_k3_iff, hfmt] at hk
  | k4 => simp [Check.fails, headerOf] at hk
  | k5 => simp [Check.fails, headerOf, hunused] at hk
  | k6 => simp [Check.fails, headerOf, hcanon] at hk
  | k7 =>
    obtain ⟨hD, hn⟩ := (fails_k7_iff _ _).1 hk
    have hlt := hchar (Option.some.inj (hfmt ▸ hD))
    rw [headerOf, List.headD_cons, nField_headerWord] at hn
    omega
  | k9 => simp [fails_k9_iff, hfmt, hS] at hk
  | k10 => simp [fails_k10_iff, headerOf, hop] at hk
  | k11 => simp [fails_k11_iff, hfmt, hS] at hk

/-- The frame of a string whose length fits the immediate can fail the checks of its radix and of its length alone (R78). -/
theorem eq_k8_or_k9_of_fails_stringFrame {cfg : Config} {ty : Ty} {str : List Byte} {radix : BitVec 6} {k : Check}
    (hlen : str.length < 2 ^ 32) (hk : k.fails cfg (stringFrame .fromStrRadix ty str radix) = true) :
    k = .k8 ∨ k = .k9 := by
  have hfmt : frameFormat (stringFrame .fromStrRadix ty str radix) = some .S := frameFormat_headerWord _ _ _ _ _
  have hn := toNat_nField_stringFrame .fromStrRadix ty radix hlen
  have hhead : headerOf (stringFrame .fromStrRadix ty str radix) =
      headerWord Opcode.fromStrRadix.code ty radix (BitVec.ofNat 32 str.length) := rfl
  cases k with
  | k8 => exact .inl rfl
  | k9 => exact .inr rfl
  | k1 => simp [fails_k1_iff, stringFrame_length] at hk
  | k2 => simp [fails_k2_iff, hhead] at hk
  | k3 => simp [fails_k3_iff, hfmt] at hk
  | k4 => simp [Check.fails, hhead] at hk
  | k5 =>
    have ha : aWord (stringFrame .fromStrRadix ty str radix) = 0#64 := rfl
    have hb : bWord (stringFrame .fromStrRadix ty str radix) = 0#64 := rfl
    simp [fails_k5_iff, hfmt, ha, hb] at hk
  | k6 => simp [fails_k6_iff, hfmt] at hk
  | k7 => simp [fails_k7_iff, hfmt] at hk
  | k10 =>
    obtain ⟨-, hne⟩ := (fails_k10_iff _ _).1 hk
    rw [stringFrame_length, hn, hhead, opField_headerWord] at hne
    exact absurd rfl hne
  | k11 =>
    obtain ⟨-, hmod, hle⟩ := (fails_k11_iff _ _).1 hk
    rw [hn] at hmod hle
    rw [show 2 + (str.length + 7) / 8 = 3 + str.length / 8 by omega, stringFrame_getD _ _ _ (by omega)] at hle
    have hlt := packedWord_lt str (str.length / 8)
    rw [show str.length - 8 * (str.length / 8) = str.length % 8 by omega] at hlt
    omega

/-! ## Encoded frames pass -/

section
variable {cfg : Config} {i : Instr} {a b : Word}

/-- A command whose frame is a header without radix and two operand words passes every check when its format's unused fields are
zero and its operands canonical (R78, R81). -/
theorem passes_of_plain {n : BitVec 32} (hframe : encode i = [headerWord i.opcode.code i.ty 0#6 n, a, b])
    (hfmt : i.opcode.format ∈ [.N, .U, .VV, .VC])
    (hunused : unusedFieldSet i.opcode.format [headerWord i.opcode.code i.ty 0#6 n, a, b] = false)
    (hcanon : operandNotCanonical i.opcode.format (Machine.width cfg i.ty) [headerWord i.opcode.code i.ty 0#6 n, a, b] =
      false) (k : Check) : k.fails cfg (encode i) = false := by
  rw [hframe, Bool.eq_false_iff]
  intro hk
  obtain rfl := eq_k8_of_fails_threeWords (by intro h; simp [h] at hfmt) hunused hcanon
    (by intro h; simp [h] at hfmt) hk
  rw [fails_k8_iff, frameFormat_headerWord] at hk
  obtain ⟨hDS, -⟩ := hk
  generalize i.opcode.format = fmt at hfmt hDS
  cases fmt <;> simp at hfmt hDS

theorem passes_of_N (hframe : encode i = [headerWord i.opcode.code i.ty 0#6 0#32, 0#64, 0#64])
    (hfmt : i.opcode.format = .N) : ∀ k : Check, k.fails cfg (encode i) = false :=
  passes_of_plain hframe (by simp [hfmt]) (by simp [hfmt, unusedFieldSet, aWord, bWord, headerOf])
    (by simp [hfmt, operandNotCanonical])

theorem passes_of_U (hframe : encode i = [headerWord i.opcode.code i.ty 0#6 0#32, a, 0#64])
    (hfmt : i.opcode.format = .U) (ha : Machine.canonical (Machine.width cfg i.ty) a = true) :
    ∀ k : Check, k.fails cfg (encode i) = false :=
  passes_of_plain hframe (by simp [hfmt]) (by simp [hfmt, unusedFieldSet, bWord, headerOf])
    (by simp [hfmt, operandNotCanonical, aWord, ha])

theorem passes_of_VV (hframe : encode i = [headerWord i.opcode.code i.ty 0#6 0#32, a, b])
    (hfmt : i.opcode.format = .VV)
    (hab : (Machine.canonical (Machine.width cfg i.ty) a && Machine.canonical (Machine.width cfg i.ty) b) = true) :
    ∀ k : Check, k.fails cfg (encode i) = false :=
  have ⟨ha, hb⟩ := Bool.and_eq_true_iff.1 hab
  passes_of_plain hframe (by simp [hfmt]) (by simp [hfmt, unusedFieldSet, headerOf])
    (by simp [hfmt, operandNotCanonical, aWord, bWord, ha, hb])

theorem passes_of_VC {n : BitVec 32} (hframe : encode i = [headerWord i.opcode.code i.ty 0#6 n, a, 0#64])
    (hfmt : i.opcode.format = .VC) (ha : Machine.canonical (Machine.width cfg i.ty) a = true) :
    ∀ k : Check, k.fails cfg (encode i) = false :=
  passes_of_plain hframe (by simp [hfmt]) (by simp [hfmt, unusedFieldSet, bWord, headerOf])
    (by simp [hfmt, operandNotCanonical, aWord, ha])

end

/-- A radix in 2..36 passes K8 (R65). -/
theorem k8_passes_of_radixLegal {cfg : Config} {f : Frame} (h : Machine.radixLegal (radixField (headerOf f)) = true) :
    Check.k8.fails cfg f = false := by
  simp [Check.fails, h]

theorem passes_digit {cfg : Config} {ty : Ty} {c : Byte} {radix : BitVec 6} (h : Machine.radixLegal radix = true)
    (k : Check) : k.fails cfg (encode (.digit ty c radix)) = false := by
  rw [Bool.eq_false_iff]
  intro hk
  have hchar : (c.setWidth 32).toNat < 2 ^ 8 := by
    have := c.isLt
    rw [BitVec.toNat_setWidth]
    omega
  have hk8 : k = .k8 := eq_k8_of_fails_threeWords (op := .digit) (by decide)
    (by simp [Opcode.format, unusedFieldSet, aWord, bWord]) rfl (fun _ => hchar) hk
  rw [hk8, k8_passes_of_radixLegal (by simpa [encode, headerOf] using h)] at hk
  cases hk

theorem passes_fromStrRadix {cfg : Config} {ty : Ty} {str : List Byte} {radix : BitVec 6} (hl : cfg.legal = true)
    (hlen : str.length ≤ cfg.strmax) (h : Machine.radixLegal radix = true) (k : Check) :
    k.fails cfg (encode (.fromStrRadix ty str radix)) = false := by
  obtain ⟨-, hmax⟩ := (Machine.legal_iff cfg).1 hl
  have hlt : str.length < 2 ^ 32 := by omega
  rw [Bool.eq_false_iff]
  intro hk
  rcases eq_k8_or_k9_of_fails_stringFrame hlt hk with rfl | rfl
  · rw [k8_passes_of_radixLegal (by simpa [encode, stringFrame, headerOf] using h)] at hk
    cases hk
  · obtain ⟨-, hover⟩ := (fails_k9_iff _ _).1 hk
    rw [encode, toNat_nField_stringFrame _ _ _ hlt] at hover
    omega

/-- Every frame that encodes a well-formed command passes every check (R78, R79). -/
theorem encode_passes {cfg : Config} {i : Instr} (hl : cfg.legal = true) (hwf : i.wellFormed cfg = true) :
    ∀ k : Check, k.fails cfg (encode i) = false := by
  cases i with
  | min ty | max ty | bits ty => exact passes_of_N rfl rfl
  | or ty a b | and ty a b | xor ty a b | add ty a b | sub ty a b | mul ty a b | checkedDiv ty a b =>
    exact passes_of_VV rfl rfl hwf
  | shl ty a n | shr ty a n | rotateLeft ty a n | rotateRight ty a n | pow ty a n | checkedPow ty a n =>
    exact passes_of_VC rfl rfl hwf
  | digit ty c radix => exact passes_digit hwf
  | fromStrRadix ty str radix =>
    obtain ⟨hlen, hradix⟩ := Bool.and_eq_true_iff.1 hwf
    exact passes_fromStrRadix hl (of_decide_eq_true hlen) hradix
  | _ => exact passes_of_U rfl rfl hwf

/-- The low byte of the immediate of a character command is the character (R68). -/
theorem extractLsb'_setWidth_character (c : Byte) : (c.setWidth 32).extractLsb' 0 8 = c := by
  have := c.isLt
  refine BitVec.eq_of_toNat_eq ?_
  rw [BitVec.extractLsb'_toNat, BitVec.toNat_setWidth, Nat.shiftRight_zero]
  omega

/-- The operands of a command stand in its frame where the decoder reads them (R63). -/
theorem commandOf_encode {cfg : Config} {i : Instr} (hl : cfg.legal = true) (hwf : i.wellFormed cfg = true) :
    commandOf i.opcode i.ty (encode i) = i := by
  cases i with
  | shl ty a n | shr ty a n | rotateLeft ty a n | rotateRight ty a n | pow ty a n | checkedPow ty a n =>
    simp [commandOf, encode, Instr.opcode, Instr.ty, headerOf, aWord]
  | digit ty c radix =>
    simp [commandOf, encode, Instr.opcode, Instr.ty, headerOf, extractLsb'_setWidth_character]
  | fromStrRadix ty str radix =>
    obtain ⟨-, hmax⟩ := (Machine.legal_iff cfg).1 hl
    obtain ⟨hlen, -⟩ := Bool.and_eq_true_iff.1 hwf
    have hlt : str.length < 2 ^ 32 := by have := of_decide_eq_true hlen; omega
    have hradix : radixField (headerOf (stringFrame .fromStrRadix ty str radix)) = radix := by
      simp [stringFrame, headerOf]
    simp [commandOf, encode, Instr.opcode, Instr.ty, payloadString_stringFrame _ _ _ hlt, hradix]
  | _ => rfl

theorem headerOf_encode (i : Instr) :
    opField (headerOf (encode i)) = i.opcode.code ∧ tyOf (headerOf (encode i)) = some i.ty := by
  cases i <;> exact ⟨opField_headerWord _ _ _ _, tyOf_headerWord _ _ _ _⟩

/-- Settles O1: the frame passes every check, and the operands are read back. -/
theorem decodeOfEncode : Obligations.DecodeOfEncode := by
  intro cfg i hl hwf
  obtain ⟨hop, hty⟩ := headerOf_encode i
  have hcode : Opcode.ofCode (opField (headerOf (encode i))) = some i.opcode := by rw [hop, Opcode.ofCode_code]
  rw [decode_of_checks (encode_passes hl hwf) hcode hty, commandOf_encode hl hwf]

/-! ## Frames that pass are encoded frames -/

/-- The frame f passes every check of R78 with the opcode and the type its header gives (R79). -/
structure Passes (cfg : Config) (f : Frame) (op : Opcode) (ty : Ty) : Prop where
  check (k : Check) : k.fails cfg f = false
  opcode : Opcode.ofCode (opField (headerOf f)) = some op
  type : tyOf (headerOf f) = some ty

section
variable {cfg : Config} {f : Frame} {op : Opcode} {ty : Ty} (h : Passes cfg f op ty)
include h

theorem Passes.headerOf_eq :
    headerOf f = headerWord op.code ty (radixField (headerOf f)) (nField (headerOf f)) := by
  have hrsv : rsvField (headerOf f) = 0#14 := by simpa [Check.fails] using h.check .k2
  rw [Opcode.code_of_ofCode h.opcode, headerWord_of_fields h.type hrsv]

/-- K1 and K10 fix the number of words (R70). -/
theorem Passes.length_eq : f.length = 3 + payloadWords (headerOf f) := by
  have h1 : 3 ≤ f.length := by simpa [Check.fails] using h.check .k1
  simpa [Check.fails, h1] using h.check .k10

theorem Passes.eq_cons : f = headerOf f :: aWord f :: bWord f :: f.drop 3 := by
  have hlen := h.length_eq
  match f, hlen with
  | w0 :: w1 :: w2 :: ws, _ => rfl
  | [], hlen | [_], hlen | [_, _], hlen => simp at hlen; omega

/-- K5, for the frame's own format. -/
theorem Passes.unused : unusedFieldSet op.format f = false := by
  simpa [Check.fails, h.opcode] using h.check .k5

/-- K6, for the frame's own format and type. -/
theorem Passes.canonical : operandNotCanonical op.format (Machine.width cfg ty) f = false := by
  simpa [Check.fails, h.opcode, h.type] using h.check .k6

theorem Passes.radixLegal (hfmt : op.format = .D ∨ op.format = .S) :
    Machine.radixLegal (radixField (headerOf f)) = true := by
  rcases hfmt with hfmt | hfmt <;> simpa [Check.fails, h.opcode, hfmt] using h.check .k8

/-- Every frame but that of a string has three words (R70). -/
theorem Passes.threeWords (hfmt : op.format ≠ .S) :
    f = [headerWord op.code ty (radixField (headerOf f)) (nField (headerOf f)), aWord f, bWord f] := by
  have hop : opField (headerOf f) ≠ 0x71#8 := by
    rw [← Opcode.code_of_ofCode h.opcode]
    exact fun hc => hfmt (congrArg Opcode.format (Opcode.code_injective (p := .fromStrRadix) hc))
  have hdrop : f.drop 3 = [] := List.drop_eq_nil_of_le (by simp [h.length_eq, payloadWords, hop])
  rw [← h.headerOf_eq, ← hdrop]
  exact h.eq_cons

theorem Passes.of_N (hfmt : op.format = .N) : f = [headerWord op.code ty 0#6 0#32, 0#64, 0#64] := by
  obtain ⟨⟨⟨ha, hb⟩, hn⟩, hr⟩ := by simpa [unusedFieldSet, hfmt] using h.unused
  conv_lhs => rw [h.threeWords (by simp [hfmt]), ha, hb, hn, hr]

theorem Passes.of_U (hfmt : op.format = .U) :
    f = [headerWord op.code ty 0#6 0#32, aWord f, 0#64] ∧
      Machine.canonical (Machine.width cfg ty) (aWord f) = true := by
  obtain ⟨⟨hb, hn⟩, hr⟩ := by simpa [unusedFieldSet, hfmt] using h.unused
  refine ⟨?_, by simpa [operandNotCanonical, hfmt] using h.canonical⟩
  conv_lhs => rw [h.threeWords (by simp [hfmt]), hb, hn, hr]

theorem Passes.of_VV (hfmt : op.format = .VV) :
    f = [headerWord op.code ty 0#6 0#32, aWord f, bWord f] ∧
      (Machine.canonical (Machine.width cfg ty) (aWord f) && Machine.canonical (Machine.width cfg ty) (bWord f)) =
        true := by
  obtain ⟨hn, hr⟩ := by simpa [unusedFieldSet, hfmt] using h.unused
  refine ⟨?_, by simpa [operandNotCanonical, hfmt] using h.canonical⟩
  conv_lhs => rw [h.threeWords (by simp [hfmt]), hn, hr]

theorem Passes.of_VC (hfmt : op.format = .VC) :
    f = [headerWord op.code ty 0#6 (nField (headerOf f)), aWord f, 0#64] ∧
      Machine.canonical (Machine.width cfg ty) (aWord f) = true := by
  obtain ⟨hb, hr⟩ := by simpa [unusedFieldSet, hfmt] using h.unused
  refine ⟨?_, by simpa [operandNotCanonical, hfmt] using h.canonical⟩
  conv_lhs => rw [h.threeWords (by simp [hfmt]), hb, hr]

/-- K7 leaves the immediate of a character command its low byte (R68). -/
theorem Passes.of_D (hfmt : op.format = .D) :
    f = [headerWord op.code ty (radixField (headerOf f)) (((nField (headerOf f)).extractLsb' 0 8).setWidth 32), 0#64,
        0#64] := by
  obtain ⟨ha, hb⟩ := by simpa [unusedFieldSet, hfmt] using h.unused
  have hlt : (nField (headerOf f)).toNat < 2 ^ 8 := by
    have hk7 := mt (fails_k7_iff cfg f).2 (Bool.eq_false_iff.1 (h.check .k7))
    simpa [frameFormat, h.opcode, hfmt] using hk7
  have hn : ((nField (headerOf f)).extractLsb' 0 8).setWidth 32 = nField (headerOf f) := by
    refine BitVec.eq_of_toNat_eq ?_
    rw [BitVec.toNat_setWidth, BitVec.extractLsb'_toNat, Nat.shiftRight_zero]
    omega
  rw [hn]
  conv_lhs => rw [h.threeWords (by simp [hfmt]), ha, hb]

end

/-! ## The payload of a legal string frame -/

theorem payloadString_length (f : Frame) : (payloadString f).length = (nField (headerOf f)).toNat := by
  simp [payloadString]

theorem payloadString_getD (f : Frame) {i : Nat} (hi : i < (nField (headerOf f)).toNat) :
    (payloadString f).getD i 0#8 = payloadByte f i := by
  simp [payloadString, List.getD, hi]

/-- A word below 2^(8m) has zero bytes from byte m on (K11). -/
theorem byte_eq_zero_of_lt {x : Word} {m k : Nat} (hx : x.toNat < 2 ^ (8 * m)) (hk : m ≤ k) :
    x.extractLsb' (8 * k) 8 = 0#8 := by
  have hle : 2 ^ (8 * m) ≤ 2 ^ (8 * k) := Nat.pow_le_pow_right (by omega) (by omega)
  refine BitVec.eq_of_toNat_eq ?_
  rw [BitVec.extractLsb'_toNat, Nat.shiftRight_eq_div_pow, Nat.div_eq_of_lt (by omega)]
  rfl

section
variable {cfg : Config} {f : Frame} {ty : Ty} (h : Passes cfg f .fromStrRadix ty)
include h

theorem Passes.payloadWords_eq : payloadWords (headerOf f) = ((nField (headerOf f)).toNat + 7) / 8 := by
  rw [payloadWords, ← Opcode.code_of_ofCode h.opcode]
  rfl

/-- The padding bytes of the last payload word are zero (K11). -/
theorem Passes.payloadByte_padding {i : Nat} (hi : (nField (headerOf f)).toNat ≤ i)
    (hi' : i / 8 < ((nField (headerOf f)).toNat + 7) / 8) : payloadByte f i = 0#8 := by
  have hk11 := mt (fails_k11_iff cfg f).2 (Bool.eq_false_iff.1 (h.check .k11))
  have hfmt : frameFormat f = some .S := by simp [frameFormat, h.opcode, Opcode.format]
  rw [not_and, not_and, Nat.not_le] at hk11
  have hlt := hk11 hfmt (by omega)
  rw [show 2 + ((nField (headerOf f)).toNat + 7) / 8 = 3 + i / 8 by omega] at hlt
  exact byte_eq_zero_of_lt hlt (by omega)

/-- The payload words of a legal frame pack its string (R69). -/
theorem Passes.packedWord_payloadString {j : Nat} (hj : j < ((nField (headerOf f)).toNat + 7) / 8) :
    packedWord (payloadString f) j = f.getD (3 + j) 0#64 := by
  refine word_eq_of_bytes fun k hk => ?_
  have hbyte : payloadByte f (8 * j + k) = (f.getD (3 + j) 0#64).extractLsb' (8 * k) 8 := by
    rw [payloadByte, show (8 * j + k) / 8 = j by omega, show (8 * j + k) % 8 = k by omega]
  rw [packedWord_byte _ _ _ hk, ← hbyte]
  rcases Nat.lt_or_ge (8 * j + k) (nField (headerOf f)).toNat with hlt | hge
  · exact payloadString_getD f hlt
  · rw [h.payloadByte_padding hge (by omega), List.getD_eq_default _ _ (by rwa [payloadString_length])]

theorem Passes.packString_payloadString : packString (payloadString f) = f.drop 3 := by
  have hlen := h.length_eq
  rw [h.payloadWords_eq] at hlen
  refine List.ext_getElem (by simp [payloadString_length, hlen]) fun j hj hj' => ?_
  rw [packString_length, payloadString_length] at hj
  rw [List.getElem_drop, ← List.getD_eq_getElem _ 0#64, ← List.getD_eq_getElem _ 0#64,
    packString_getD _ _ (by rwa [payloadString_length]), h.packedWord_payloadString hj]

theorem Passes.of_S : f = stringFrame .fromStrRadix ty (payloadString f) (radixField (headerOf f)) := by
  obtain ⟨ha, hb⟩ := by simpa [unusedFieldSet, Opcode.format] using h.unused
  have hcons := h.eq_cons
  rw [ha, hb] at hcons
  rwa [stringFrame, h.packString_payloadString, payloadString_length, BitVec.ofNat_toNat, BitVec.setWidth_eq,
    ← h.headerOf_eq]

theorem Passes.payloadString_le_strmax : (payloadString f).length ≤ cfg.strmax := by
  have hk9 := mt (fails_k9_iff cfg f).2 (Bool.eq_false_iff.1 (h.check .k9))
  rw [payloadString_length]
  simpa [frameFormat, h.opcode, Opcode.format] using hk9

end

/-- A frame that passes is the encoding of its command, which is well formed (R79, R81). -/
theorem Passes.encode_commandOf {cfg : Config} {f : Frame} {op : Opcode} {ty : Ty} (h : Passes cfg f op ty) :
    encode (commandOf op ty f) = f ∧ (commandOf op ty f).wellFormed cfg = true := by
  cases op with
  | min | max | bits => exact ⟨(h.of_N rfl).symm, rfl⟩
  | or | and | xor | add | sub | mul | checkedDiv => exact ⟨(h.of_VV rfl).1.symm, (h.of_VV rfl).2⟩
  | shl | shr | rotateLeft | rotateRight | pow | checkedPow => exact ⟨(h.of_VC rfl).1.symm, (h.of_VC rfl).2⟩
  | digit => exact ⟨(h.of_D rfl).symm, h.radixLegal (.inl rfl)⟩
  | fromStrRadix =>
    exact ⟨h.of_S.symm,
      Bool.and_eq_true_iff.2 ⟨decide_eq_true h.payloadString_le_strmax, h.radixLegal (.inr rfl)⟩⟩
  | _ => exact ⟨(h.of_U rfl).1.symm, (h.of_U rfl).2⟩

/-- Settles O2: a frame that decodes passes every check with its header's opcode and type. -/
theorem encodeOfDecode : Obligations.EncodeOfDecode := by
  intro cfg f i hi
  obtain ⟨hcheck, op, ty, hop, hty, rfl⟩ := decode_eq_ok hi
  exact Passes.encode_commandOf ⟨hcheck, hop, hty⟩

end Sys2Proof
end

section
/-! PROOFS. The type field of a header word (R64), and the example headers of the section files decoded. -/

namespace Sys2Proof

/-- The sign of a header is its bit 11, as a number (R61). -/
theorem sgnField_eq_decide (h : Word) : sgnField h = decide (h.toNat / 2 ^ 11 % 2 = 1) := by
  rw [sgnField, BitVec.getLsbD, Nat.testBit_eq_decide_div_mod_eq]

/-- The width select a 3-bit number stands for (R64). -/
theorem WidthSel.ofCode_eq_ite (c : BitVec 3) :
    WidthSel.ofCode c =
      if c.toNat = 0 then some .w8 else if c.toNat = 1 then some .w16 else if c.toNat = 2 then some .w32
      else if c.toNat = 3 then some .w64 else if c.toNat = 4 then some .ptr else none := by
  revert c
  decide

theorem tyOf_eq_map (h : Word) : tyOf h = (WidthSel.ofCode (wselField h)).map (Ty.mk (sgnField h)) := by
  cases hk : WidthSel.ofCode (wselField h) <;> simp [tyOf, hk]

/-- Settles O7: the widths are those of the definition, and the type is read off the two fields as numbers. -/
theorem typeFieldTable : Obligations.TypeFieldTable := by
  intro cfg sgn
  refine ⟨⟨rfl, rfl, rfl, rfl, rfl⟩, fun h => ?_⟩
  rw [tyOf_eq_map, sgnField_eq_decide, WidthSel.ofCode_eq_ite, toNat_wselField]
  simp only [apply_ite (Option.map _), Option.map_some, Option.map_none]

/-- Settles O9: ten closed frames, each decoded by evaluating the model. -/
theorem sampleFramesDecode : Obligations.SampleFramesDecode :=
  ⟨by decide, by decide, by decide, by decide, by decide, by decide, by decide, by decide, by decide, by decide⟩

end Sys2Proof
end

section
/-! PROOFS. What a step can do, said once, and what follows over runs: each request is answered once and in order (R74, R288,
R290), and every response emitted is well formed (R71, R72, R258). -/

namespace Sys2Proof.Machine

/-! ## The step by its cases -/

theorem step_of_idle {s : State} (hl : s.config.legal = true) (h : s.pending = []) : step s = .next s := by
  simp [step, hl, State.nextRequest, h]

theorem step_of_not_legal {s : State} (hl : s.config.legal = false) : step s = .refused .configOutOfRange := by
  simp [step, hl]

/-- Everything a step that answers a next state can do: nothing on an idle engine, or the oldest request answered (R16, R26). -/
theorem step_cases {s t : State} (h : step s = .next t) :
    s.config.legal = true ∧
      ((s.pending = [] ∧ t = s) ∨
        ∃ f rest, s.pending = f :: rest ∧
          t = { s with pending := rest, emitted := s.emitted ++ [frameResponse s.config f] }) := by
  cases hl : s.config.legal with
  | false => rw [step_of_not_legal hl] at h; cases h
  | true =>
    refine ⟨rfl, ?_⟩
    cases hp : s.pending with
    | nil =>
      rw [step_of_idle hl hp] at h
      cases h
      exact .inl ⟨rfl, rfl⟩
    | cons f rest =>
      rw [step_eq_frameResponse hl hp] at h
      cases h
      exact .inr ⟨f, rest, rfl, rfl⟩

/-- Settles O10: the step is `answerFrame`, which is `exec` on a frame that decodes. -/
theorem stepRunsDecodedCommand : Obligations.StepRunsDecodedCommand := by
  intro s f rest i hl hp hd
  exact (step_of_request hl hp).trans (answerFrame_ok hd)

/-- Settles O11. -/
theorem idleStepChangesNothing : Obligations.IdleStepChangesNothing := fun _ hl hp => step_of_idle hl hp

/-- Settles O12: a STRMAX outside R7's range makes the configuration illegal. -/
theorem configOutOfRangeRefused : Obligations.ConfigOutOfRangeRefused := by
  intro s hout
  refine step_of_not_legal (Bool.eq_false_iff.2 fun hl => ?_)
  have := (legal_iff s.config).1 hl
  omega

/-- Settles O20: each of the two cases of a step has the frame. -/
theorem stepFrame : Obligations.StepFrame := by
  intro s t h
  obtain ⟨-, ⟨hp, rfl⟩ | ⟨f, rest, hp, rfl⟩⟩ := step_cases h
  · exact ⟨rfl, by rw [hp, List.tail_nil], [], by simp, by simp [hp]⟩
  · exact ⟨rfl, by rw [hp, List.tail_cons], [frameResponse s.config f], rfl, by simp [hp]⟩

/-- Settles O21: the function is `commandResponse`. -/
theorem execAppendsOneResponse : Obligations.ExecAppendsOneResponse :=
  ⟨commandResponse, exec_eq_emit⟩

/-! ## Runs -/

/-- The responses a state has emitted, and behind them those it owes, one for each request pending (R74). -/
def State.responses (s : State) : List Response := s.emitted ++ s.pending.map (frameResponse s.config)

/-- Accepting a frame makes the engine owe its response, behind all others (R60). -/
theorem responses_accept (f : Frame) (s : State) :
    (s.accept f).responses = s.responses ++ [frameResponse s.config f] := by
  simp [State.responses]

/-- A step of a legal engine turns at most an owed response into an emitted one (R16, R74). -/
theorem step_responses {s : State} (hl : s.config.legal = true) :
    ∃ t, step s = .next t ∧ t.config = s.config ∧ t.responses = s.responses := by
  cases hp : s.pending with
  | nil => exact ⟨s, step_of_idle hl hp, rfl, rfl⟩
  | cons f rest => exact ⟨_, step_eq_frameResponse hl hp, rfl, by simp [State.responses, hp]⟩

/-- Over events without reset the responses emitted and owed grow by those of the frames presented (R290). -/
theorem runEvents_responses {es : List Event} {s : State} (hl : s.config.legal = true) (hr : noReset es = true) :
    ∃ t, runEvents es s = .next t ∧ t.config = s.config ∧
      t.responses = s.responses ++ (presented es).map (frameResponse s.config) := by
  induction es generalizing s with
  | nil => exact ⟨s, rfl, rfl, by simp [presented]⟩
  | cons e es ih =>
    cases e with
    | present f =>
      obtain ⟨t, hrun, hcfg, hresp⟩ := ih (s := s.accept f) hl hr
      exact ⟨t, hrun, hcfg, by rw [hresp, responses_accept]; simp [presented]⟩
    | reset => cases hr
    | work =>
      obtain ⟨u, hstep, hucfg, hu⟩ := step_responses hl
      obtain ⟨t, hrun, hcfg, hresp⟩ := ih (s := u) (by rw [hucfg, hl]) hr
      refine ⟨t, by rw [runEvents_work hstep, hrun], hcfg.trans hucfg, ?_⟩
      rw [hresp, hu, hucfg]
      rfl

/-- Settles O15: `State.responses` is conserved but for the frames presented. -/
theorem eventRunsAnswerEachFrameOnce : Obligations.EventRunsAnswerEachFrameOnce := by
  refine ⟨frameResponse, fun es s hl hr => ?_⟩
  obtain ⟨t, hrun, hcfg, hresp⟩ := runEvents_responses hl hr
  rw [State.responses, State.responses, hcfg] at hresp
  exact ⟨t, hrun, hcfg, hresp⟩

/-- A step that answers a next state makes a run of one step more go on from there. -/
theorem run_succ_of_step {s t : State} (n : Nat) (h : step s = .next t) :
    Host.Core.run core (n + 1) s = Host.Core.run core n t := by
  have hcore : core.step s = .next t := h
  simp only [Host.Core.run, hcore]

/-- Settles O14: by induction on the queue, each step answers its first frame. -/
theorem runAnswersQueueInOrder : Obligations.RunAnswersQueueInOrder := by
  refine ⟨frameResponse, fun s hl => ?_⟩
  obtain ⟨queue, hp⟩ : ∃ queue, s.pending = queue := ⟨_, rfl⟩
  induction queue generalizing s with
  | nil =>
    obtain ⟨cfg, pending, emitted⟩ := s
    obtain rfl : pending = [] := hp
    simp [Host.Core.run]
  | cons f rest ih =>
    have hrun := ih { s with pending := rest, emitted := s.emitted ++ [frameResponse s.config f] } hl rfl
    rw [hp, List.length_cons, run_succ_of_step _ (step_eq_frameResponse hl hp)]
    simpa using hrun

/-! ## Well-formed responses -/

/-- On an idle engine a command responds with a pattern of its type's width, or raises a cause (R12, R72). -/
theorem exec_idleAt_cases (cfg : Config) (i : Instr) :
    (∃ p : BitVec (width cfg i.ty), exec i (State.idleAt cfg) = respond i.opcode i.ty p (State.idleAt cfg)) ∨
      ∃ c, exec i (State.idleAt cfg) = raise i.opcode i.ty c (State.idleAt cfg) := by
  cases i with
  | shl ty a n =>
    rcases Nat.lt_or_ge n.toNat (width cfg ty) with hlt | hge
    · exact .inl ⟨_, exec_shl_of_lt a hlt⟩
    · exact .inr ⟨_, exec_shl_of_le a hge⟩
  | shr ty a n =>
    rcases Nat.lt_or_ge n.toNat (width cfg ty) with hlt | hge
    · exact .inl ⟨_, exec_shr_of_lt a hlt⟩
    · exact .inr ⟨_, exec_shr_of_le a hge⟩
  | checkedDiv ty a b =>
    cases hd : divisionUndefined ty.signed (pattern (width cfg ty) a) (pattern (width cfg ty) b) with
    | false => exact .inl ⟨_, exec_checkedDiv_of_defined hd⟩
    | true => exact .inr ⟨_, exec_checkedDiv_of_undefined hd⟩
  | checkedPow ty a n =>
    have hexec := exec_checkedPow ty a n (State.idleAt cfg)
    split at hexec
    · exact .inl ⟨_, hexec⟩
    · exact .inr ⟨_, hexec⟩
  | digit ty c radix =>
    cases hd : digitBelow radix.toNat c with
    | some d => exact .inl ⟨_, exec_digit_of_some ty _ hd⟩
    | none => exact .inr ⟨_, exec_digit_of_none ty _ hd⟩
  | fromStrRadix ty str radix =>
    cases hp : parseAnswer ty.signed (width cfg ty) radix.toNat str with
    | ok p => exact .inl ⟨_, exec_fromStrRadix_of_ok hp⟩
    | err c => exact .inr ⟨_, exec_fromStrRadix_of_err hp⟩
  | _ => exact .inl ⟨_, rfl⟩

/-- The response to a command encodes an answer of its type's width (R72). -/
theorem exists_commandResponse_eq (cfg : Config) (i : Instr) :
    ∃ ans : Answer (width cfg i.ty), commandResponse cfg i = encodeResponse i.opcode.code i.ty.code ans := by
  obtain ⟨p, h⟩ | ⟨c, h⟩ := exec_idleAt_cases cfg i
  · exact ⟨.ok p, by rw [commandResponse, h]; rfl⟩
  · exact ⟨.err c, by rw [commandResponse, h]; rfl⟩

theorem Cause.code_injective {c d : Cause} (h : c.code = d.code) : c = d := by
  have := congrArg Cause.ofCode h
  simpa using this

theorem mem_failureCauses_of_code {op : Opcode} {c : Cause} (h : c.code ∈ causeCodes op) : c ∈ failureCauses op := by
  obtain hzero | hmem := List.mem_cons.1 h
  · exact absurd hzero c.code_ne_zero
  · obtain ⟨d, hd, hcode⟩ := List.mem_map.1 hmem
    rwa [← Cause.code_injective hcode]

theorem wellFormed_ok (cfg : Config) (op : Opcode) (ty : Ty) (p : BitVec (width cfg ty)) :
    (encodeResponse op.code ty.code (.ok p)).wellFormed cfg = true := by
  simp [Response.wellFormed, Answer.causeCode, Answer.valueWord, canonical_zext64 p (width_le_64 cfg ty),
    encodeResponse, Response.cause, Response.opEcho, Response.tyEcho]

theorem wellFormed_err {w : Nat} (cfg : Config) {op : Opcode} (ty : Ty) {c : Cause} (hc : c ∈ failureCauses op) :
    (encodeResponse (w := w) op.code ty.code (.err c)).wellFormed cfg = true := by
  cases c <;>
    simp [Response.wellFormed, Answer.causeCode, Answer.valueWord, hc, encodeResponse, Response.cause,
      Response.opEcho, Response.tyEcho]

theorem wellFormed_illegalResponse (cfg : Config) (f : Frame) : (illegalResponse f).wellFormed cfg = true := by
  simp [Response.wellFormed, illegalResponse, Answer.causeCode, Answer.valueWord, encodeResponse, Response.cause]

/-- Every response to a command is well formed (R71, R72, R258). -/
theorem wellFormed_commandResponse (cfg : Config) (i : Instr) : (commandResponse cfg i).wellFormed cfg = true := by
  have hmem := cause_commandResponse_mem cfg i
  obtain ⟨ans, hans⟩ := exists_commandResponse_eq cfg i
  rw [hans] at hmem ⊢
  cases ans with
  | ok p => exact wellFormed_ok cfg i.opcode i.ty p
  | err c =>
    rw [cause_encodeResponse] at hmem
    exact wellFormed_err cfg i.ty (mem_failureCauses_of_code hmem)

/-- Every response the engine emits is well formed, whatever the frame (R71, R72, R258). -/
theorem wellFormed_frameResponse (cfg : Config) (f : Frame) : (frameResponse cfg f).wellFormed cfg = true := by
  cases h : decode cfg f with
  | ok i => rw [frameResponse_of_ok h]; exact wellFormed_commandResponse cfg i
  | error k => rw [frameResponse_of_error h]; exact wellFormed_illegalResponse cfg f

theorem safe_iff (s : State) :
    s.safe = true ↔ s.config.legal = true ∧ ∀ r ∈ s.emitted, r.wellFormed s.config = true := by
  simp [State.safe]

/-- Settles O17. -/
theorem resetStateIsIdle : Obligations.ResetStateIsIdle :=
  ⟨reset_pending, (idle_iff _).2 reset_pending⟩

/-- Settles O18: the reference configuration is in range, and nothing has been emitted. -/
theorem resetStateIsSafe : Obligations.ResetStateIsSafe :=
  (safe_iff _).2 ⟨by decide, by simp⟩

/-- Settles O19: a step emits at most the response of a frame, which is well formed. -/
theorem stepKeepsResponsesWellFormed : Obligations.StepKeepsResponsesWellFormed := by
  intro s t hs h
  obtain ⟨hl, ⟨-, rfl⟩ | ⟨f, rest, -, rfl⟩⟩ := step_cases h
  · exact hs
  · obtain ⟨-, hall⟩ := (safe_iff s).1 hs
    refine (safe_iff _).2 ⟨hl, fun r hr => ?_⟩
    obtain hr | hr := List.mem_append.1 hr
    · exact hall r hr
    · rw [List.mem_singleton.1 hr]
      exact wellFormed_frameResponse s.config f

end Sys2Proof.Machine
end

section
/-! PROOFS. The readings of patterns as sums of their bits (R10). -/

namespace Sys2Proof.Machine

/-- The number a bit function builds is the sum of the places it sets. -/
theorem natOfBits_eq_sum (f : Nat → Bool) (k : Nat) :
    (natOfBits f k : Int) = ∑ i ∈ Finset.range k, (if f i then (2 : Int) ^ i else 0) := by
  induction k with
  | zero => rfl
  | succ k ih =>
    rw [Finset.sum_range_succ, ← ih, natOfBits]
    split <;> push_cast <;> rfl

/-- The unsigned reading is the sum of the places of the set bits (R10). -/
theorem val_unsigned_eq_sum {w : Nat} (x : BitVec w) :
    val false x = ∑ i ∈ Finset.range w, (if x.getLsbD i then (2 : Int) ^ i else 0) := by
  have hbits : ofBits w x.getLsbD = x :=
    BitVec.eq_of_getLsbD_eq fun i hi => by rw [getLsbD_ofBits, decide_eq_true hi, Bool.true_and]
  rw [← natOfBits_eq_sum, val_unsigned]
  conv_lhs => rw [← hbits, ofBits, BitVec.toNat_ofNat, Nat.mod_eq_of_lt (natOfBits_lt _ w)]

/-- The signed reading takes 2^W off the unsigned one where the top bit is set (R10). -/
theorem val_signed_eq_sub {w : Nat} (x : BitVec w) :
    val true x = val false x - (if x.getLsbD (w - 1) then 2 ^ w else 0) := by
  rw [val_signed, val_unsigned, BitVec.toInt_eq_msb_cond, BitVec.msb_eq_getLsbD_last]
  split <;> simp

/-- Settles O24: the sums are the readings bit by bit, and the bounds are MINV and MAXV written out. -/
theorem readingsOfPatterns : Obligations.ReadingsOfPatterns := by
  intro w hw
  refine ⟨fun x => ⟨val_unsigned_eq_sum x, ?_, minv_le_val false x, ?_, minv_le_val true x, ?_⟩,
    fun z p => wrap_eq_iff w z p, inRange_iff true w, inRange_iff false w⟩
  · rw [val_signed_eq_sub, val_unsigned_eq_sum]
  · exact Int.lt_of_le_sub_one (val_le_maxv false x)
  · exact Int.lt_of_le_sub_one (val_le_maxv true x)

end Sys2Proof.Machine
end

section
/-! PROOFS. What the byte-order conversions answer under either NATIVE_ORDER (R167 to R171), and their round trips (R172). -/

namespace Sys2Proof.Machine

/-! ## The two conversions of R167 -/

/-- Byte j of `le(a)` is byte j under LE and the mirrored byte under BE (R167). -/
theorem extractLsb'_leOrder (order : ByteOrder) {w : Nat} (x : BitVec w) {j : Nat} (hj : j < w / 8) :
    (leOrder order x).extractLsb' (8 * j) 8 =
      x.extractLsb' (8 * (if order = .le then j else w / 8 - 1 - j)) 8 := by
  cases order with
  | le => rfl
  | be => exact extractLsb'_swapBytes x hj

/-- Byte j of `be(a)` is the mirrored byte under LE and byte j under BE (R167). -/
theorem extractLsb'_beOrder (order : ByteOrder) {w : Nat} (x : BitVec w) {j : Nat} (hj : j < w / 8) :
    (beOrder order x).extractLsb' (8 * j) 8 =
      x.extractLsb' (8 * (if order = .le then w / 8 - 1 - j else j)) 8 := by
  cases order with
  | le => exact extractLsb'_swapBytes x hj
  | be => rfl

section
variable {w : Nat} (h8 : 8 ∣ w) (order : ByteOrder) (x : BitVec w)
include h8

theorem leOrder_leOrder : leOrder order (leOrder order x) = x := by
  cases order with
  | le => rfl
  | be => exact swapBytes_swapBytes h8 x

theorem beOrder_beOrder : beOrder order (beOrder order x) = x := by
  cases order with
  | le => exact swapBytes_swapBytes h8 x
  | be => rfl

/-- The two conversions differ by a byte swap (R172). -/
theorem swapBytes_leOrder : swapBytes (leOrder order x) = beOrder order x := by
  cases order with
  | le => rfl
  | be => exact swapBytes_swapBytes h8 x

end

/-- A single byte has no order: at W = 8 the byte swap is the identity (R172). -/
theorem swapBytes_of_width_8 {w : Nat} (hw : w = 8) (x : BitVec w) : swapBytes x = x := by
  subst hw
  refine BitVec.eq_of_getLsbD_eq fun i hi => ?_
  rw [getLsbD_swapBytes_of_lt x hi, byteMirror, show 8 * (8 / 8 - 1 - i / 8) + i % 8 = i by omega]

theorem leOrder_of_width_8 {w : Nat} (hw : w = 8) (order : ByteOrder) (x : BitVec w) : leOrder order x = x := by
  cases order with
  | le => rfl
  | be => exact swapBytes_of_width_8 hw x

theorem beOrder_of_width_8 {w : Nat} (hw : w = 8) (order : ByteOrder) (x : BitVec w) : beOrder order x = x := by
  cases order with
  | le => exact swapBytes_of_width_8 hw x
  | be => rfl

/-- From two bytes on the swap moves bit 0 of the pattern 1 out of the lowest byte (R172). -/
theorem swapBytes_one_ne {w : Nat} (hw : 16 ≤ w) : swapBytes 1#w ≠ 1#w := by
  intro h
  have hbit := congrArg (fun x => x.getLsbD 0) h
  have hmirror : byteMirror w 0 ≠ 0 := by unfold byteMirror; omega
  simp only [getLsbD_swapBytes_of_lt _ (show 0 < w by omega), BitVec.getLsbD_one, hmirror, decide_false, Bool.and_false,
    decide_true, Bool.and_true] at hbit
  simp at hbit
  omega

/-- From two bytes on `le` is the identity under LE alone (R172). -/
theorem leOrder_eq_self_iff {w : Nat} (hw : 16 ≤ w) (order : ByteOrder) :
    (∀ x : BitVec w, leOrder order x = x) ↔ order = .le := by
  cases order with
  | le => exact iff_of_true (fun _ => rfl) rfl
  | be => exact iff_of_false (fun h => swapBytes_one_ne hw (h 1#w)) (by decide)

/-- From two bytes on `be` is the identity under BE alone (R172). -/
theorem beOrder_eq_self_iff {w : Nat} (hw : 16 ≤ w) (order : ByteOrder) :
    (∀ x : BitVec w, beOrder order x = x) ↔ order = .be := by
  cases order with
  | le => exact iff_of_false (fun h => swapBytes_one_ne hw (h 1#w)) (by decide)
  | be => exact iff_of_true (fun _ => rfl) rfl

/-! ## The values of the answers -/

theorem okValue_toLe (s : State) (ty : Ty) (a : Word) :
    okValue s (.toLe ty a) = some (zext64 (leOrder s.config.nativeOrder (operand s ty a))) :=
  okValue_of_respond (i := .toLe ty a) rfl

theorem okValue_fromLe (s : State) (ty : Ty) (a : Word) :
    okValue s (.fromLe ty a) = some (zext64 (leOrder s.config.nativeOrder (operand s ty a))) :=
  okValue_of_respond (i := .fromLe ty a) rfl

theorem okValue_toBe (s : State) (ty : Ty) (a : Word) :
    okValue s (.toBe ty a) = some (zext64 (beOrder s.config.nativeOrder (operand s ty a))) :=
  okValue_of_respond (i := .toBe ty a) rfl

theorem okValue_fromBe (s : State) (ty : Ty) (a : Word) :
    okValue s (.fromBe ty a) = some (zext64 (beOrder s.config.nativeOrder (operand s ty a))) :=
  okValue_of_respond (i := .fromBe ty a) rfl

/-- The zero extensions of two patterns of a type are equal when the patterns are (R66). -/
theorem zext64_inj (s : State) (ty : Ty) {p q : BitVec (width s.config ty)} : zext64 p = zext64 q ↔ p = q := by
  constructor
  · intro h
    rw [← operand_zext64 s ty p, h, operand_zext64]
  · rintro rfl
    rfl

/-- A law of answers for every operand word is that law for every pattern: each pattern is the operand of some word (R66). -/
theorem forall_operand_iff (s : State) (ty : Ty) (g : BitVec (width s.config ty) → BitVec (width s.config ty)) :
    (∀ x : Word, some (zext64 (g (operand s ty x))) = some (zext64 (operand s ty x))) ↔ ∀ p, g p = p := by
  constructor
  · intro h p
    have hp := h (zext64 p)
    rwa [operand_zext64, Option.some_inj, zext64_inj] at hp
  · intro h x
    rw [h]

/-! ## The obligations -/

/-- Settles O35: the meanings respond with `le` and `be` of the operand, whose bytes are the operand's in order or mirrored. -/
theorem byteOrderAnswer : Obligations.ByteOrderAnswer := by
  intro ty a s w
  refine ⟨leOrder s.config.nativeOrder (operand s ty a), beOrder s.config.nativeOrder (operand s ty a),
    answersOk_plainFrame .toLe rfl rfl, answersOk_plainFrame .fromLe rfl rfl, answersOk_plainFrame .toBe rfl rfl,
    answersOk_plainFrame .fromBe rfl rfl, fun j hj => ⟨?_, ?_⟩⟩
  · rw [extractLsb'_leOrder _ _ hj]
    split
    · exact extractLsb'_operand s ty a hj
    · exact extractLsb'_operand s ty a (by omega)
  · rw [extractLsb'_beOrder _ _ hj]
    split
    · exact extractLsb'_operand s ty a (by omega)
    · exact extractLsb'_operand s ty a hj

/-- Settles O49: an answer sent back is read as the pattern it carries, so each law of answers is that law of `le` and `be`. -/
theorem byteOrderRoundTrip : Obligations.ByteOrderRoundTrip := by
  intro ty a s w self
  have h8 : 8 ∣ w := eight_dvd_width s.config ty
  have hself (x : Word) : self x = some (zext64 (operand s ty x)) := rfl
  simp only [hself, okValue_toLe, okValue_fromLe, okValue_toBe, okValue_fromBe, okValue_swapBytes, Option.bind_some,
    operand_zext64, leOrder_leOrder h8, beOrder_beOrder h8, swapBytes_leOrder h8, forall_operand_iff s ty]
  refine ⟨trivial, trivial, trivial, fun hw => ?_, fun hw => ?_⟩
  · rw [leOrder_of_width_8 hw, beOrder_of_width_8 hw]
    exact ⟨rfl, rfl⟩
  · rw [leOrder_eq_self_iff hw, beOrder_eq_self_iff hw]
    cases s.config.nativeOrder <;> decide

end Sys2Proof.Machine
end

section
/-! PROOFS. The laws of the constants and of the sign on the engine's answers (R32, R107). -/

namespace Sys2Proof.Machine

theorem wrap_one (w : Nat) : wrap w 1 = 1#w := BitVec.ofInt_natCast w 1

@[simp] theorem operand_one (s : State) (ty : Ty) : operand s ty 1#64 = 1#(width s.config ty) := by
  have hw := width_pos s.config ty
  refine BitVec.eq_of_getLsbD_eq fun i hi => ?_
  rw [getLsbD_operand s ty _ hi, BitVec.getLsbD_one, BitVec.getLsbD_one, decide_eq_true hw]
  rfl

/-- The word 1 is the zero extension of `wrap(1)`, the boolean result for true (R13). -/
theorem zext64_one (s : State) (ty : Ty) : zext64 (1#(width s.config ty)) = 1#64 := by
  have hcanon : canonical (width s.config ty) 1#64 = true :=
    (canonical_iff _ _).2 (Nat.one_lt_two_pow (width_pos s.config ty).ne')
  rw [← operand_one, operand, zext64_pattern hcanon]

/-! ## The range identity -/

/-- MINV + MAXV is −1 up to a multiple of 2^W, for either signedness (R32). -/
theorem minv_add_maxv_modEq (sg : Bool) (w : Nat) : minv sg w + maxv sg w + 1 ≡ 0 [ZMOD 2 ^ w] := by
  cases sg with
  | false => simp [minv, maxv]
  | true =>
    have hsum : minv true w + maxv true w + 1 = 0 := by
      simp only [minv, maxv, if_true]
      omega
    rw [hsum]

theorem okValue_min (s : State) (ty : Ty) :
    okValue s (.min ty) = some (zext64 (wrap (width s.config ty) (minv ty.signed (width s.config ty)))) :=
  okValue_of_respond (i := .min ty) rfl

theorem okValue_max (s : State) (ty : Ty) :
    okValue s (.max ty) = some (zext64 (wrap (width s.config ty) (maxv ty.signed (width s.config ty)))) :=
  okValue_of_respond (i := .max ty) rfl

theorem okValue_add (s : State) (ty : Ty) (a b : Word) :
    okValue s (.add ty a b) = some (zext64 (operand s ty a + operand s ty b)) :=
  okValue_of_respond (exec_add ty a b s)

theorem wrap_add (w : Nat) (y z : Int) : wrap w (y + z) = wrap w y + wrap w z := BitVec.ofInt_add y z

theorem minv_nonpos (sg : Bool) (w : Nat) : minv sg w ≤ 0 := by
  cases sg
  · exact le_rfl
  · have : (0 : Int) < 2 ^ (w - 1) := by positivity
    simp only [minv, if_true]
    omega

theorem maxv_pos (sg : Bool) {w : Nat} (hw : 1 < w) : 0 < maxv sg w := by
  have hdouble := two_pow_eq_double w (by omega)
  have hhalf := two_pow_eq_double (w - 1) (by omega)
  have : (0 : Int) < 2 ^ (w - 1 - 1) := by positivity
  cases sg <;> simp only [maxv, Bool.false_eq_true, if_true, if_false] <;> omega

/-- Settles O42: the three patterns are those of MINV, MAXV and 1, whose sum is 0 modulo 2^W. -/
theorem rangeIdentity : Obligations.RangeIdentity := by
  intro ty s
  have hw := eight_le_width s.config ty
  refine ⟨maxv_pos _ (by omega), minv_nonpos _ _, _, _, _, okValue_min s ty, okValue_max s ty, okValue_add s ty _ _, ?_⟩
  rw [okValue_add, operand_zext64, operand_zext64, operand_zext64, operand_one, ← wrap_one, ← wrap_add, ← wrap_add,
    wrap_congr (minv_add_maxv_modEq ty.signed _), wrap_zero, zext64_zero]

/-! ## The trichotomy of signs -/

theorem val_eq_zero_iff (sg : Bool) {w : Nat} (x : BitVec w) : val sg x = 0 ↔ x = 0#w := by
  have hzero : val sg 0#w = 0 := by cases sg <;> simp
  constructor
  · intro h
    rw [← wrap_val sg x, h, wrap_zero]
  · rintro rfl
    exact hzero

/-- A boolean result is the word 1 when it is true (R13). -/
theorem zext64_ofBool_eq_one_iff (s : State) (ty : Ty) (c : Bool) :
    zext64 (ofBool (width s.config ty) c) = 1#64 ↔ c = true := by
  cases c with
  | false => simp [ofBool_eq, wrap_zero]
  | true => simp [ofBool_eq, wrap_one, zext64_one s ty]

section
variable (ty : Ty) (a : Word) (s : State)

theorem okValue_isPositive_eq_one_iff :
    okValue s (.isPositive ty a) = some 1#64 ↔ 0 < val ty.signed (operand s ty a) := by
  rw [okValue_of_respond (i := .isPositive ty a) rfl, Option.some_inj, zext64_ofBool_eq_one_iff, decide_eq_true_iff]

theorem okValue_isNegative_eq_one_iff :
    okValue s (.isNegative ty a) = some 1#64 ↔ val ty.signed (operand s ty a) < 0 := by
  rw [okValue_of_respond (i := .isNegative ty a) rfl, Option.some_inj, zext64_ofBool_eq_one_iff, decide_eq_true_iff]

theorem okValue_signum :
    okValue s (.signum ty a) = some (zext64 (wrap (width s.config ty) (val ty.signed (operand s ty a)).sign)) := by
  have hsign (v : Int) : v.sign = if 0 < v then 1 else if v = 0 then 0 else -1 := by
    rcases lt_trichotomy v 0 with h | rfl | h
    · rw [Int.sign_eq_neg_one_of_neg h, if_neg (by omega), if_neg (by omega)]
    · rfl
    · rw [Int.sign_eq_one_of_pos h, if_pos h]
  rw [hsign]
  exact okValue_of_respond (i := .signum ty a) rfl

theorem okValue_abs :
    okValue s (.abs ty a) = some (zext64 (wrap (width s.config ty) |val ty.signed (operand s ty a)|)) := by
  rw [← Int.natCast_natAbs]
  exact okValue_of_respond (i := .abs ty a) rfl

end

/-- A sign is in range of every signed type of two bits or more (R104). -/
theorem inRange_sign {w : Nat} (hw : 1 < w) (v : Int) : inRange true w v.sign = true := by
  have hmax := maxv_pos true hw
  have hsum : minv true w = -maxv true w - 1 := by simp only [minv, maxv, if_true]; omega
  have : v.sign = 1 ∨ v.sign = 0 ∨ v.sign = -1 := by
    rcases lt_trichotomy v 0 with h | rfl | h
    · exact .inr (.inr (Int.sign_eq_neg_one_of_neg h))
    · exact .inr (.inl rfl)
    · exact .inl (Int.sign_eq_one_of_pos h)
  rw [inRange_iff]
  omega

/-- Settles O43: the three tests read the sign of the value, SIGNUM answers it, and |v| is v times its sign. -/
theorem signTrichotomy : Obligations.SignTrichotomy := by
  intro ty a s w x pos neg
  have hw : 1 < w := by have := eight_le_width s.config ty; omega
  have hpos : pos ↔ 0 < val ty.signed x := okValue_isPositive_eq_one_iff ty a s
  have hneg : neg ↔ val ty.signed x < 0 := okValue_isNegative_eq_one_iff ty a s
  have hsignum : okValue s (.signum ty a) = some (zext64 (wrap w (val ty.signed x).sign)) := okValue_signum ty a s
  have hzero := val_eq_zero_iff ty.signed x
  rw [hpos, hneg, Ne, ← hzero, hsignum]
  refine ⟨by omega, fun h => by rw [Int.sign_eq_one_of_pos h], fun h => by rw [Int.sign_eq_neg_one_of_neg h],
    fun h => by rw [h, Int.sign_zero, wrap_zero, zext64_zero], fun hs hmin => ?_⟩
  refine ⟨_, _, okValue_abs ty a s, rfl, ?_⟩
  rw [hs]
  have habs : val true (operand s ty (zext64 (wrap w |val true x|))) = |val true x| := by
    rw [operand_zext64]
    exact val_wrap_abs_val_signed (by omega) hmin
  have hsgn : val true (operand s ty (zext64 (wrap w (val true x).sign))) = (val true x).sign := by
    rw [operand_zext64]
    exact val_wrap (by omega) (inRange_sign hw _)
  calc val true (operand s ty (zext64 (wrap w |val true x|)))
      = |val true x| := habs
    _ = val true x * (val true x).sign := by rw [Int.mul_sign_self, Int.natCast_natAbs]
    _ = val true x * val true (operand s ty (zext64 (wrap w (val true x).sign))) := by rw [hsgn]

end Sys2Proof.Machine
end

section
/-! PROOFS. The laws of the shifts on the engine's answers (R127). -/

namespace Sys2Proof.Machine

/-- Shifting left is multiplying by the pattern of 2^n (R127). -/
theorem shiftLeft_eq_mul_wrap {w : Nat} (x : BitVec w) (n : Nat) : x <<< n = x * wrap w (2 ^ n) := by
  have hx : wrap w (x.toNat : Int) = x := wrap_val false x
  rw [← wrap_toNat_mul_two_pow, wrap_mul, hx]

/-- The pattern of 2^k − 1 has its low k bits set (R127). -/
theorem getLsbD_wrap_two_pow_sub_one (w k : Nat) {i : Nat} (hi : i < w) :
    (wrap w (2 ^ k - 1)).getLsbD i = decide (i < k) := by
  have hcast : ((2 : Int) ^ k - 1) = ((2 ^ k - 1 : Nat) : Int) := by
    rw [Nat.cast_sub Nat.one_le_two_pow]
    push_cast
    rfl
  rw [hcast, wrap, BitVec.ofInt_natCast, BitVec.getLsbD_ofNat, Nat.testBit_two_pow_sub_one, decide_eq_true hi,
    Bool.true_and]

/-- Shifting left and back drops the bits that left the width (R127). -/
theorem ushiftRight_shiftLeft_eq_and {w : Nat} (x : BitVec w) (n : Nat) :
    (x <<< n) >>> n = x &&& wrap w (2 ^ (w - n) - 1) := by
  refine BitVec.eq_of_getLsbD_eq fun i hi => ?_
  rw [BitVec.getLsbD_ushiftRight, BitVec.getLsbD_shiftLeft, BitVec.getLsbD_and, getLsbD_wrap_two_pow_sub_one w _ hi,
    Nat.add_sub_cancel_left, Bool.and_comm (x.getLsbD i)]
  have hlt : n + i < w ↔ i < w - n := by omega
  simp [hlt]

theorem shiftRightBySign_shiftRightBySign (sg : Bool) {w : Nat} (x : BitVec w) (n m : Nat) :
    shiftRightBySign sg (shiftRightBySign sg x n) m = shiftRightBySign sg x (n + m) := by
  cases sg with
  | false => exact (BitVec.shiftRight_add x n m).symm
  | true => exact BitVec.sshiftRight_add.symm

section
variable {ty : Ty} {n : BitVec 32} {s : State} (a : Word)

theorem okValue_shl_of_lt (h : n.toNat < width s.config ty) :
    okValue s (.shl ty a n) = some (zext64 (operand s ty a <<< n.toNat)) :=
  okValue_of_respond (exec_shl_of_lt a h)

theorem okValue_shr_of_lt (h : n.toNat < width s.config ty) :
    okValue s (.shr ty a n) = some (zext64 (shiftRightBySign ty.signed (operand s ty a) n.toNat)) :=
  okValue_of_respond (exec_shr_of_lt a h)

end

theorem okValue_mul (s : State) (ty : Ty) (a b : Word) :
    okValue s (.mul ty a b) = some (zext64 (operand s ty a * operand s ty b)) :=
  okValue_of_respond (exec_mul ty a b s)

/-- Settles O45: below W the answers are shifted patterns, and the laws are those of shifts of bits. -/
theorem shiftLaws : Obligations.ShiftLaws := by
  intro ty a n m s w
  have hw : w ≤ 64 := width_le_64 s.config ty
  refine ⟨fun hn => ⟨?_, fun hu => ?_⟩, fun hnm => ?_⟩
  · rw [okValue_shl_of_lt a hn, okValue_mul, operand_zext64, shiftLeft_eq_mul_wrap]
  · rw [okValue_shl_of_lt a hn, Option.bind_some, okValue_shr_of_lt _ hn, operand_zext64, hu, okValue_and,
      operand_zext64]
    exact congrArg (fun p => some (zext64 p)) (ushiftRight_shiftLeft_eq_and _ _)
  · have hsum : (n + m).toNat = n.toNat + m.toNat := BitVec.toNat_add_of_lt (by omega)
    have hn : n.toNat < w := by omega
    have hm : m.toNat < w := by omega
    have hlt : (n + m).toNat < w := by omega
    constructor
    · rw [okValue_shl_of_lt a hn, Option.bind_some, okValue_shl_of_lt _ hm, operand_zext64, okValue_shl_of_lt a hlt,
        hsum, BitVec.shiftLeft_add]
    · rw [okValue_shr_of_lt a hn, Option.bind_some, okValue_shr_of_lt _ hm, operand_zext64, okValue_shr_of_lt a hlt,
        hsum, shiftRightBySign_shiftRightBySign]

end Sys2Proof.Machine
end

section
/-! PROOFS. The laws of the rotations on the engine's answers (R162): both rotations read each bit a fixed number of places on,
modulo W, and these numbers add. -/

namespace Sys2Proof.Machine

/-- The pattern whose bit i is the bit of x that stands k places on, modulo W. -/
def rotated {w : Nat} (x : BitVec w) (k : Nat) : BitVec w := ofBits w (fun i => x.getLsbD ((i + k) % w))

theorem getLsbD_rotated {w : Nat} (x : BitVec w) (k : Nat) {i : Nat} (hi : i < w) :
    (rotated x k).getLsbD i = x.getLsbD ((i + k) % w) := by
  rw [rotated, getLsbD_ofBits, decide_eq_true hi, Bool.true_and]

/-- The amount by which ROTATE_LEFT reads on: W − n mod W (R160). -/
def leftAmount (w n : Nat) : Nat := w - n % w

/-- The amount counts modulo W only (R162). -/
theorem leftAmount_mod (w n : Nat) : leftAmount w (n % w) = leftAmount w n := by
  rw [leftAmount, leftAmount, Nat.mod_mod]

theorem leftAmount_add_mod {w : Nat} (hw : 0 < w) (n : Nat) : leftAmount w n + n % w = w :=
  Nat.sub_add_cancel (Nat.mod_lt n hw).le

/-- Reading on by the amount of a left rotation and by n comes round to the same place (R162). -/
theorem dvd_leftAmount_add {w : Nat} (hw : 0 < w) (n : Nat) : w ∣ leftAmount w n + n := by
  have hr := Nat.mod_lt n hw
  have hn := Nat.div_add_mod n w
  refine ⟨n / w + 1, ?_⟩
  rw [leftAmount, Nat.mul_add_one]
  omega

section
variable {w : Nat} (hw : 0 < w) (x : BitVec w)
include hw

theorem rotated_rotated (k l : Nat) : rotated (rotated x k) l = rotated x (k + l) :=
  BitVec.eq_of_getLsbD_eq fun i hi => by
    rw [getLsbD_rotated _ _ hi, getLsbD_rotated _ _ (Nat.mod_lt _ hw), getLsbD_rotated _ _ hi, Nat.mod_add_mod,
      Nat.add_assoc, Nat.add_comm l]

omit hw in
theorem rotated_congr {k l : Nat} (h : k ≡ l [MOD w]) : rotated x k = rotated x l :=
  BitVec.eq_of_getLsbD_eq fun i hi => by
    rw [getLsbD_rotated _ _ hi, getLsbD_rotated _ _ hi, show (i + k) % w = (i + l) % w from Nat.ModEq.add_left i h]

omit hw in
theorem rotated_of_dvd {k : Nat} (h : w ∣ k) : rotated x k = x := by
  rw [rotated_congr x ((Nat.modEq_zero_iff_dvd).2 h)]
  exact BitVec.eq_of_getLsbD_eq fun i hi => by rw [getLsbD_rotated _ _ hi, Nat.add_zero, Nat.mod_eq_of_lt hi]

omit hw in
/-- Two amounts that the same amount brings round are the same rotation (R162). -/
theorem rotated_eq_of_dvd_add {k l c : Nat} (hk : w ∣ k + c) (hl : w ∣ l + c) : rotated x k = rotated x l :=
  rotated_congr x (Nat.ModEq.add_right_cancel' c
    (((Nat.modEq_zero_iff_dvd).2 hk).trans ((Nat.modEq_zero_iff_dvd).2 hl).symm))

end

section
variable (ty : Ty) (a : Word) (n : BitVec 32) (s : State)

theorem okValue_rotateLeft :
    okValue s (.rotateLeft ty a n) =
      some (zext64 (rotated (operand s ty a) (leftAmount (width s.config ty) n.toNat))) :=
  okValue_of_respond (i := .rotateLeft ty a n) rfl

theorem okValue_rotateRight :
    okValue s (.rotateRight ty a n) = some (zext64 (rotated (operand s ty a) (n.toNat % width s.config ty))) :=
  okValue_of_respond (i := .rotateRight ty a n) rfl

end

/-- A rotation amount reduced modulo W fits the 32 bits of the immediate. -/
theorem toNat_ofNat_mod_width (cfg : Config) (ty : Ty) (k : Nat) :
    (BitVec.ofNat 32 (k % width cfg ty)).toNat = k % width cfg ty := by
  have hk := Nat.mod_lt k (width_pos cfg ty)
  have hw := width_le_64 cfg ty
  rw [BitVec.toNat_ofNat, Nat.mod_eq_of_lt (by omega)]

/-- Settles O47: the amounts of chained rotations add, and equal rotations are those whose amounts agree modulo W. -/
theorem rotationLaws : Obligations.RotationLaws := by
  intro ty a n m s w left right self
  have hw : 0 < w := width_pos s.config ty
  have hself : self = some (zext64 (operand s ty a)) := rfl
  simp only [left, right, hself, w, okValue_rotateLeft, okValue_rotateRight, Option.bind_some, operand_zext64,
    rotated_rotated hw, toNat_ofNat_mod_width, leftAmount_mod]
  refine ⟨?_, ?_, ?_, ?_, trivial⟩
  · rw [leftAmount_add_mod hw, rotated_of_dvd _ (Nat.dvd_refl _)]
  · rw [Nat.add_comm, leftAmount_add_mod hw, rotated_of_dvd _ (Nat.dvd_refl _)]
  · rw [rotated_congr (operand s ty a) (((Nat.mod_modEq _ w).trans (Nat.mod_modEq _ w)).symm)]
    rfl
  · have hsum : w ∣ leftAmount w n.toNat + leftAmount w m.toNat + (n.toNat + m.toNat) := by
      rw [add_add_add_comm]
      exact Nat.dvd_add (dvd_leftAmount_add hw _) (dvd_leftAmount_add hw _)
    rw [rotated_eq_of_dvd_add _ hsum (dvd_leftAmount_add hw _)]

end Sys2Proof.Machine
end

section
/-! PROOFS. The laws of the counts on the engine's answers (R144, R145). -/

namespace Sys2Proof.Machine

/-- Below the width an answer sent back has the bits of the pattern it carries (R72). -/
theorem getLsbD_zext64 (s : State) (ty : Ty) (p : BitVec (width s.config ty)) {i : Nat} (hi : i < width s.config ty) :
    (zext64 p).getLsbD i = p.getLsbD i := by
  rw [← getLsbD_operand s ty _ hi, operand_zext64]

/-- Moving the bits of a pattern about changes no count: σ says where each bit of p comes from, and τ where it goes (R145). -/
theorem countBits_of_permutation (s : State) (ty : Ty) (a : Word) {p : BitVec (width s.config ty)} (b : Bool)
    (σ τ : Nat → Nat) (hσ : ∀ i, i < width s.config ty → σ i < width s.config ty ∧ τ (σ i) = i)
    (hτ : ∀ i, i < width s.config ty → τ i < width s.config ty ∧ σ (τ i) = i)
    (hp : ∀ i, i < width s.config ty → p.getLsbD i = (operand s ty a).getLsbD (σ i)) :
    countBits b (width s.config ty) (zext64 p) = countBits b (width s.config ty) a := by
  have hbit (i : Nat) (hi : i < width s.config ty) : (zext64 p).getLsbD i = a.getLsbD (σ i) := by
    rw [getLsbD_zext64 s ty p hi, hp i hi, getLsbD_operand s ty a (hσ i hi).1]
  refine Finset.card_nbij' σ τ (fun i hi => ?_) (fun i hi => ?_) (fun i hi => ?_) (fun i hi => ?_) <;>
    simp only [Finset.coe_filter, Finset.mem_range, Set.mem_ofPred_eq] at hi ⊢
  · exact ⟨(hσ i hi.1).1, hbit i hi.1 ▸ hi.2⟩
  · exact ⟨(hτ i hi.1).1, by rw [hbit _ (hτ i hi.1).1, (hτ i hi.1).2, hi.2]⟩
  · exact (hσ i hi.1).2
  · exact (hτ i hi.1).2

section
variable (s : State) (ty : Ty) (a : Word) (b : Bool)

theorem countBits_rotated (k : Nat) :
    countBits b (width s.config ty) (zext64 (rotated (operand s ty a) k)) = countBits b (width s.config ty) a := by
  have hw := width_pos s.config ty
  have hdvd := dvd_leftAmount_add hw k
  generalize hl : leftAmount (width s.config ty) k = l at hdvd
  have hback (c d i : Nat) (hcd : width s.config ty ∣ c + d) (hi : i < width s.config ty) :
      ((i + c) % width s.config ty + d) % width s.config ty = i := by
    obtain ⟨q, hq⟩ := hcd
    rw [Nat.mod_add_mod, Nat.add_assoc, hq, Nat.add_mul_mod_self_left, Nat.mod_eq_of_lt hi]
  exact countBits_of_permutation s ty a b (fun i => (i + k) % width s.config ty) (fun i => (i + l) % width s.config ty)
    (fun i hi => ⟨Nat.mod_lt _ hw, hback k l i (by rwa [Nat.add_comm]) hi⟩)
    (fun i hi => ⟨Nat.mod_lt _ hw, hback l k i hdvd hi⟩) (fun i hi => getLsbD_rotated _ _ hi)

theorem countBits_swapBytes :
    countBits b (width s.config ty) (zext64 (swapBytes (operand s ty a))) = countBits b (width s.config ty) a := by
  have h8 := eight_dvd_width s.config ty
  exact countBits_of_permutation s ty a b (byteMirror _) (byteMirror _)
    (fun i hi => ⟨byteMirror_lt h8 hi, byteMirror_byteMirror h8 hi⟩)
    (fun i hi => ⟨byteMirror_lt h8 hi, byteMirror_byteMirror h8 hi⟩) (fun i hi => getLsbD_swapBytes_of_lt _ hi)

end

/-- The bit reversal of R166 on patterns. -/
def reversed {w : Nat} (x : BitVec w) : BitVec w := ofBits w (fun i => x.getLsbD (w - 1 - i))

theorem getLsbD_reversed {w : Nat} (x : BitVec w) {i : Nat} (hi : i < w) :
    (reversed x).getLsbD i = x.getLsbD (w - 1 - i) := by
  rw [reversed, getLsbD_ofBits, decide_eq_true hi, Bool.true_and]

theorem countBits_reversed (s : State) (ty : Ty) (a : Word) (b : Bool) :
    countBits b (width s.config ty) (zext64 (reversed (operand s ty a))) = countBits b (width s.config ty) a :=
  countBits_of_permutation s ty a b (fun i => width s.config ty - 1 - i) (fun i => width s.config ty - 1 - i)
    (fun i hi => ⟨by omega, by omega⟩) (fun i hi => ⟨by omega, by omega⟩) (fun i hi => getLsbD_reversed _ hi)

/-- The ones of NOT(a) are the zeros of a (R144). -/
theorem countBits_not (s : State) (ty : Ty) (a : Word) :
    countBits true (width s.config ty) (zext64 (~~~operand s ty a)) = countBits false (width s.config ty) a := by
  rw [← countP_not_operand]
  refine (countP_range_eq_countBits fun i hi => ?_).symm
  rw [getLsbD_zext64 s ty _ hi, BitVec.getLsbD_not, decide_eq_true hi, Bool.true_and]

/-- The highest set bit of a pattern is the lowest of its reversal, counted from the other end (R145). -/
theorem lowestSet_reversed {w : Nat} (x : BitVec w) :
    lowestSet (reversed x) = (highestSet x w).map (fun i => w - 1 - i) := by
  cases hhigh : highestSet x w with
  | none =>
    have hclear := highestSet_none x w hhigh
    refine (lowestSet_eq_none_iff _).2 (eq_zero_of_getLsbD_eq_false fun j hj => ?_)
    rw [getLsbD_reversed x hj, hclear _ (by omega)]
  | some i =>
    obtain ⟨hi, hset, hclear⟩ := highestSet_some x w i hhigh
    cases hlow : lowestSet (reversed x) with
    | none =>
      have hzero := lowestSet_none _ hlow (w - 1 - i) (by omega)
      rw [getLsbD_reversed x (by omega), show w - 1 - (w - 1 - i) = i by omega, hset] at hzero
      cases hzero
    | some j =>
      obtain ⟨hj, hsetj, hclearj⟩ := lowestSet_some _ j hlow
      rw [getLsbD_reversed x hj] at hsetj
      rcases Nat.lt_trichotomy j (w - 1 - i) with hlt | heq | hgt
      · rw [hclear (w - 1 - j) (by omega) (by omega)] at hsetj
        cases hsetj
      · rw [heq, Option.map_some]
      · have hzero := hclearj (w - 1 - i) hgt
        rw [getLsbD_reversed x (by omega), show w - 1 - (w - 1 - i) = i by omega, hset] at hzero
        cases hzero

section
variable (ty : Ty) (a : Word) (s : State)

theorem okValue_bits : okValue s (.bits ty) = some (zext64 (wrap (width s.config ty) (width s.config ty))) :=
  okValue_of_respond (i := .bits ty) rfl

theorem okValue_countOnes :
    okValue s (.countOnes ty a) =
      some (zext64 (wrap (width s.config ty) (countBits true (width s.config ty) a))) :=
  okValue_of_respond (exec_countOnes ty a s)

theorem okValue_countZeros :
    okValue s (.countZeros ty a) =
      some (zext64 (wrap (width s.config ty) (countBits false (width s.config ty) a))) :=
  okValue_of_respond (exec_countZeros ty a s)

theorem okValue_reverseBits : okValue s (.reverseBits ty a) = some (zext64 (reversed (operand s ty a))) :=
  okValue_of_respond (i := .reverseBits ty a) rfl

/-- LEADING_ZEROS is TRAILING_ZEROS of the reversal (R145). -/
theorem okValue_leadingZeros_eq_trailingZeros :
    okValue s (.leadingZeros ty a) = okValue s (.trailingZeros ty (zext64 (reversed (operand s ty a)))) := by
  have hlow := lowestSet_reversed (operand s ty a)
  rw [← operand_zext64 s ty (reversed (operand s ty a))] at hlow
  cases hhigh : highestSet (operand s ty a) (width s.config ty) with
  | none =>
    rw [hhigh, Option.map_none] at hlow
    rw [okValue_of_respond (exec_leadingZeros_of_none hhigh), okValue_of_respond (exec_trailingZeros_of_none hlow)]
  | some i =>
    rw [hhigh, Option.map_some] at hlow
    obtain ⟨hi, -, -⟩ := highestSet_some _ _ i hhigh
    rw [okValue_of_respond (exec_leadingZeros_of_some hhigh), okValue_of_respond (exec_trailingZeros_of_some hlow),
      show ((width s.config ty - 1 - i : Nat) : Int) = (width s.config ty : Int) - 1 - i by omega]

end

/-- Settles O46: the two counts sum to W, NOT swaps them, and a permutation of the bits keeps them. -/
theorem countLaws : Obligations.CountLaws := by
  intro ty a n s ones
  have hsum : (countBits true (width s.config ty) a : Int) + countBits false (width s.config ty) a =
      width s.config ty := by
    exact_mod_cast countBits_true_add_countBits_false (width s.config ty) a
  simp only [ones, okValue_countOnes, okValue_countZeros, okValue_add, okValue_bits, okValue_not, okValue_rotateLeft,
    okValue_rotateRight, okValue_swapBytes, okValue_reverseBits, Option.bind_some, operand_zext64, countBits_rotated,
    countBits_swapBytes, countBits_reversed, countBits_not, ← wrap_add, hsum, Option.isSome_some, true_and, and_true]
  exact okValue_leadingZeros_eq_trailingZeros ty a s

end Sys2Proof.Machine
end

section
/-! PROOFS. The division laws on the engine's answers, and the quotients that leave the range (R196, R197). -/

namespace Sys2Proof.Machine

/-- The quotient times the divisor does not exceed the dividend in magnitude (R196). -/
theorem abs_tdiv_mul_le (x y : Int) : |x.tdiv y * y| ≤ |x| := by
  rw [Int.abs_eq_natAbs, Int.abs_eq_natAbs, Int.natAbs_mul, Int.natAbs_tdiv]
  exact_mod_cast Nat.div_mul_le_self x.natAbs y.natAbs

/-- The remainder is smaller than the divisor in magnitude (R196). -/
theorem abs_sub_tdiv_mul_lt {y : Int} (hy : y ≠ 0) (x : Int) : |x - x.tdiv y * y| < |y| := by
  have hrem : x - x.tdiv y * y = x.tmod y := by
    have := Int.tmod_add_mul_tdiv x y
    rw [mul_comm] at this
    omega
  rw [hrem, Int.abs_eq_natAbs, Int.abs_eq_natAbs, Int.natAbs_tmod]
  exact_mod_cast Nat.mod_lt _ (Int.natAbs_pos.2 hy)

/-- A non-zero quotient has the sign of the product (R196). -/
theorem sign_tdiv_of_ne_zero {x y : Int} (h : x.tdiv y ≠ 0) : (x.tdiv y).sign = x.sign * y.sign := by
  rw [Int.sign_tdiv, if_neg]
  intro hlt
  refine h (Int.natAbs_eq_zero.1 ?_)
  rw [Int.natAbs_tdiv]
  exact Nat.div_eq_of_lt hlt

theorem val_one (sg : Bool) {w : Nat} (hw : 1 < w) : val sg 1#w = 1 := by
  have hmin := minv_nonpos sg w
  have hmax := maxv_pos sg hw
  rw [← wrap_one]
  exact val_wrap (by omega) ((inRange_iff sg w 1).2 (by omega))

/-- Of the signed patterns only `ones` has the value −1 (R197). -/
theorem val_signed_eq_neg_one_iff {w : Nat} (hw : 0 < w) (y : BitVec w) :
    val true y = -1 ↔ y = BitVec.allOnes w := by
  rw [← BitVec.toInt_inj, BitVec.toInt_allOnes, if_pos hw]
  rfl

/-- MINV / −1 is one more than MAXV (R197). -/
theorem inRange_minv_tdiv_neg_one {w : Nat} : inRange true w ((minv true w).tdiv (-1)) = false := by
  rw [Int.tdiv_neg, Int.tdiv_one, Bool.eq_false_iff, Ne, inRange_iff]
  simp only [minv, maxv, if_true]
  omega

/-- With a divisor other than 0 the quotient leaves the range exactly where MINV of a signed type is divided by −1 (R197). -/
theorem inRange_tdiv_eq_false_iff {sg : Bool} {w : Nat} (hw : 0 < w) {x y : BitVec w} (hy : val sg y ≠ 0) :
    inRange sg w ((val sg x).tdiv (val sg y)) = false ↔
      sg = true ∧ x = BitVec.intMin w ∧ y = BitVec.allOnes w := by
  constructor
  · intro hout
    have hundef : divisionUndefined sg x y = true := by
      by_contra hdef
      rw [inRange_tdiv_val (Bool.eq_false_iff.2 hdef)] at hout
      cases hout
    obtain hzero | ⟨rfl, hmin, hneg⟩ := (divisionUndefined_iff sg x y).1 hundef
    · exact absurd hzero hy
    · exact ⟨rfl, (val_signed_eq_minv_iff hw x).1 hmin, (val_signed_eq_neg_one_iff hw y).1 hneg⟩
  · rintro ⟨rfl, hmin, hones⟩
    rw [(val_signed_eq_minv_iff hw x).2 hmin, (val_signed_eq_neg_one_iff hw y).2 hones]
    exact inRange_minv_tdiv_neg_one

theorem okValue_checkedDiv_of_defined {ty : Ty} {a b : Word} {s : State}
    (h : divisionUndefined ty.signed (operand s ty a) (operand s ty b) = false) :
    okValue s (.checkedDiv ty a b) =
      some (zext64 (wrap (width s.config ty)
        ((val ty.signed (operand s ty a)).tdiv (val ty.signed (operand s ty b))))) :=
  okValue_of_respond (exec_checkedDiv_of_defined h)

/-- A checked division that answers OK is defined, and its answer has the value of the quotient (R194). -/
theorem val_of_okValue_checkedDiv {ty : Ty} {a b p : Word} {s : State} (h : okValue s (.checkedDiv ty a b) = some p) :
    val ty.signed (operand s ty b) ≠ 0 ∧
      val ty.signed (operand s ty p) = (val ty.signed (operand s ty a)).tdiv (val ty.signed (operand s ty b)) := by
  cases hd : divisionUndefined ty.signed (operand s ty a) (operand s ty b) with
  | true =>
    rw [okValue_of_raise (exec_checkedDiv_of_undefined hd)] at h
    cases h
  | false =>
    rw [okValue_checkedDiv_of_defined hd, Option.some_inj] at h
    rw [← h, operand_zext64]
    refine ⟨fun hzero => ?_, val_wrap (width_pos s.config ty) (inRange_tdiv_val hd)⟩
    rw [(divisionUndefined_iff _ _ _).2 (.inl hzero)] at hd
    cases hd

/-- Settles O50: the answer's value is the quotient rounded toward zero, to which the laws of integer division apply. -/
theorem divisionLaws : Obligations.DivisionLaws := by
  intro ty a b s w x y
  have hw : 1 < w := by have := eight_le_width s.config ty; omega
  refine ⟨fun p hp => ?_, ?_, fun hy => inRange_tdiv_eq_false_iff (by omega) hy⟩
  · obtain ⟨hy, hq⟩ := val_of_okValue_checkedDiv hp
    rw [show val ty.signed (p.setWidth w) = x.tdiv y from hq]
    exact ⟨abs_tdiv_mul_le x y, abs_sub_tdiv_mul_lt hy x, sign_tdiv_of_ne_zero⟩
  · have hone : val ty.signed (operand s ty 1#64) = 1 := by rw [operand_one, val_one _ hw]
    have hdef : divisionUndefined ty.signed (operand s ty a) (operand s ty 1#64) = false := by
      rw [Bool.eq_false_iff, Ne, divisionUndefined_iff, hone]
      simp
    rw [okValue_checkedDiv_of_defined hdef, hone, Int.tdiv_one, wrap_val]
    rfl

end Sys2Proof.Machine
end

section
/-! PROOFS. The left-to-right circuit of the parser agrees with the parser (R217): its accumulator holds the signed value of the
digits read so far while that is in range, and once it is not no further digit brings it back. -/

namespace Sys2Proof.Machine

/-- The number a sign and a magnitude stand for (R213). -/
def signedNumber (neg : Bool) (m : Nat) : Int := if neg then -(m : Int) else m

/-- The next digit moves a signed number on by the circuit's step (R217). -/
theorem signedNumber_mul_add (neg : Bool) (m radix d : Nat) :
    signedNumber neg (m * radix + d) =
      if neg then signedNumber neg m * radix - d else signedNumber neg m * radix + d := by
  cases neg
  · simp [signedNumber]
  · simp only [signedNumber, if_true]
    push_cast
    ring

/-- A range holds with a signed number all of smaller magnitude under the same sign, since it holds 0 (R217). -/
theorem inRange_signedNumber_of_le {sg neg : Bool} {w m k : Nat} (h : inRange sg w (signedNumber neg k) = true)
    (hmk : m ≤ k) : inRange sg w (signedNumber neg m) = true := by
  have hzero := (inRange_iff sg w 0).1 (inRange_zero sg w)
  have hk := (inRange_iff sg w _).1 h
  rw [inRange_iff]
  cases neg <;> simp only [signedNumber, Bool.false_eq_true, if_true, if_false] at hk ⊢ <;> omega

/-- The magnitude of digits read behind others is no smaller (R217). -/
theorem le_foldl_digits {radix : Nat} (hradix : 0 < radix) (ds : List Nat) (m : Nat) :
    m ≤ ds.foldl (fun m d => m * radix + d) m := by
  rw [foldl_digits]
  exact (Nat.le_mul_of_pos_right m (Nat.pow_pos hradix)).trans (Nat.le_add_right _ _)

/-! ## One character -/

section
variable {sg neg : Bool} {w radix : Nat} {c : Byte} {d : Nat}

/-- A bad character is remembered, and none is forgotten (R217). -/
theorem bad_scanStep (sc : Scan) :
    (scanStep sg neg w radix sc c).bad = (sc.bad || (digitBelow radix c).isNone) := by
  cases hc : digitBelow radix c with
  | none => simp [scanStep, hc]
  | some d =>
    simp only [scanStep, hc, apply_ite Scan.bad, ite_self, Option.isNone_some, Bool.or_false]

theorem scanStep_of_ovf (hc : digitBelow radix c = some d) {sc : Scan} (h : sc.ovf = true) :
    scanStep sg neg w radix sc c = sc := by
  simp [scanStep, hc, h]

theorem scanStep_of_inRange (hc : digitBelow radix c = some d) {m : Nat}
    (h : inRange sg w (signedNumber neg (m * radix + d)) = true) :
    scanStep sg neg w radix { acc := signedNumber neg m, bad := false, ovf := false } c =
      { acc := signedNumber neg (m * radix + d), bad := false, ovf := false } := by
  rw [signedNumber_mul_add] at h ⊢
  simp [scanStep, hc, h]

theorem ovf_scanStep_of_not_inRange (hc : digitBelow radix c = some d) {m : Nat}
    (h : inRange sg w (signedNumber neg (m * radix + d)) = false) :
    (scanStep sg neg w radix { acc := signedNumber neg m, bad := false, ovf := false } c).ovf = true := by
  rw [signedNumber_mul_add] at h
  simp [scanStep, hc, h]

end

/-! ## The whole string -/

section
variable {sg neg : Bool} {w radix : Nat} {cs : List Byte} {ds : List Nat}

/-- The circuit sees a bad character exactly where the parser does (R215, R217). -/
theorem bad_foldl_scanStep (cs : List Byte) (sc : Scan) :
    (cs.foldl (scanStep sg neg w radix) sc).bad = (sc.bad || (digitValues radix cs).isNone) := by
  induction cs generalizing sc with
  | nil => simp [digitValues]
  | cons c cs ih =>
    rw [List.foldl_cons, ih, bad_scanStep, digitValues]
    cases digitBelow radix c <;> cases digitValues radix cs <;> simp

/-- Behind an overflow the circuit stays as it is (R217). -/
theorem foldl_scanStep_of_ovf (h : List.Forall₂ (fun c d => digitBelow radix c = some d) cs ds) {sc : Scan}
    (hsc : sc.ovf = true) : cs.foldl (scanStep sg neg w radix) sc = sc := by
  induction h with
  | nil => rfl
  | cons hc _ ih => rw [List.foldl_cons, scanStep_of_ovf hc hsc, ih]

/-- Where the value of the whole string is in range, so is that of each of its beginnings, and the circuit ends in it (R217). -/
theorem foldl_scanStep_of_inRange (h : List.Forall₂ (fun c d => digitBelow radix c = some d) cs ds) (m : Nat)
    (hin : inRange sg w (signedNumber neg (ds.foldl (fun m d => m * radix + d) m)) = true) :
    cs.foldl (scanStep sg neg w radix) { acc := signedNumber neg m, bad := false, ovf := false } =
      { acc := signedNumber neg (ds.foldl (fun m d => m * radix + d) m), bad := false, ovf := false } := by
  induction h generalizing m with
  | nil => rfl
  | cons hc _ ih =>
    have hradix := Nat.zero_lt_of_lt (digitBelow_eq_some.1 hc).2
    rw [List.foldl_cons] at hin
    rw [List.foldl_cons, scanStep_of_inRange hc (inRange_signedNumber_of_le hin (le_foldl_digits hradix _ _)), ih _ hin]
    rfl

/-- Where it is not, the circuit overflows at some character and keeps the overflow (R217). -/
theorem ovf_foldl_scanStep (h : List.Forall₂ (fun c d => digitBelow radix c = some d) cs ds) (m : Nat)
    (hm : inRange sg w (signedNumber neg m) = true)
    (hout : inRange sg w (signedNumber neg (ds.foldl (fun m d => m * radix + d) m)) = false) :
    (cs.foldl (scanStep sg neg w radix) { acc := signedNumber neg m, bad := false, ovf := false }).ovf = true := by
  induction h generalizing m with
  | nil => rw [List.foldl_nil, hm] at hout; cases hout
  | @cons c d _ _ hc hcs ih =>
    rw [List.foldl_cons] at hout ⊢
    cases hnext : inRange sg w (signedNumber neg (m * radix + d)) with
    | true => rw [scanStep_of_inRange hc hnext]; exact ih _ hnext hout
    | false =>
      have hovf := ovf_scanStep_of_not_inRange hc hnext
      rw [foldl_scanStep_of_ovf hcs hovf, hovf]

end

/-- The circuit and the parser give one answer (R217). -/
theorem parseCircuit_eq_parseAnswer (sg : Bool) (w radix : Nat) (str : List Byte) :
    parseCircuit sg w radix str = parseAnswer sg w radix str := by
  obtain ⟨neg, digits, hsplit⟩ : ∃ neg digits, splitSign sg str = (neg, digits) := ⟨_, _, rfl⟩
  by_cases hne : digits = []
  · rw [hne] at hsplit
    rw [parseAnswer_of_nil w hsplit]
    simp [parseCircuit, hsplit]
  have hstart : ({ acc := 0, bad := false, ovf := false } : Scan) =
      { acc := signedNumber neg 0, bad := false, ovf := false } := by
    cases neg <;> rfl
  have hbad := bad_foldl_scanStep (sg := sg) (neg := neg) (w := w) (radix := radix) digits
    { acc := signedNumber neg 0, bad := false, ovf := false }
  cases hds : digitValues radix digits with
  | none =>
    rw [hds] at hbad
    rw [parseAnswer_of_digitValues_none w hsplit hds]
    simp [parseCircuit, hsplit, hstart, hbad]
  | some ds =>
    have hdigits := digitValues_eq_some.1 hds
    rw [hds] at hbad
    rw [parseAnswer_of_digitValues_some w hsplit hne hds]
    change _ = if inRange sg w (signedNumber neg (magnitude radix ds)) then
      Answer.ok (wrap w (signedNumber neg (magnitude radix ds))) else Answer.err .parseRangeError
    cases hin : inRange sg w (signedNumber neg (magnitude radix ds)) with
    | true =>
      have hscan := foldl_scanStep_of_inRange hdigits 0 hin
      simp [parseCircuit, hsplit, hstart, hne, hscan, magnitude]
    | false =>
      have hzero : inRange sg w (signedNumber neg 0) = true := by cases neg <;> exact inRange_zero sg w
      have hovf := ovf_foldl_scanStep hdigits 0 hzero hin
      simp [parseCircuit, hsplit, hstart, hne, hbad, hovf]

/-- Settles O51. -/
theorem parserCircuitIsEquivalent : Obligations.ParserCircuitIsEquivalent := by
  intro ty str radix s
  rw [parseCircuit_eq_parseAnswer]
  rfl

end Sys2Proof.Machine
end

section
/-! PROOFS. A parse from the requester's side: as a fold of requests (R222), and of the decimal text of a value (R214). -/

namespace Sys2Proof.Machine

/-- FROM_STR_RADIX answers OK exactly with the patterns its parse gives (R213). -/
theorem parseAnswer_of_okValue {ty : Ty} {str : List Byte} {radix : BitVec 6} {s : State} {v : Word}
    (h : okValue s (.fromStrRadix ty str radix) = some v) :
    ∃ p, parseAnswer ty.signed (width s.config ty) radix.toNat str = .ok p ∧ zext64 p = v := by
  cases hp : parseAnswer ty.signed (width s.config ty) radix.toNat str with
  | ok p =>
    rw [okValue_of_respond (exec_fromStrRadix_of_ok hp), Option.some_inj] at h
    exact ⟨p, rfl, h⟩
  | err c =>
    rw [okValue_of_raise (exec_fromStrRadix_of_err hp)] at h
    cases h

/-- An unsigned string that parses is all digits, and parses to its wrapped magnitude (R213). -/
theorem digitValues_of_parseAnswer_ok {w radix : Nat} {str : List Byte} {p : BitVec w}
    (h : parseAnswer false w radix str = .ok p) :
    ∃ ds, digitValues radix str = some ds ∧ p = wrap w (magnitude radix ds) := by
  have hsplit := splitSign_unsigned str
  by_cases hne : str = []
  · rw [hne] at hsplit h
    rw [parseAnswer_of_nil w hsplit] at h
    cases h
  cases hds : digitValues radix str with
  | none =>
    rw [parseAnswer_of_digitValues_none w hsplit hds] at h
    cases h
  | some ds =>
    rw [parseAnswer_of_digitValues_some w hsplit hne hds, if_neg Bool.false_ne_true] at h
    split at h
    · cases h
      exact ⟨ds, rfl, rfl⟩
    · cases h

/-! ## The fold of requests -/

/-- One character of the requester's fold: `acc <- ADD(MUL(acc, wrap(radix)), DIGIT(c))` (R222). -/
def foldRequest (s : State) (ty : Ty) (radix : BitVec 6) (acc : Option Word) (c : Byte) : Option Word :=
  acc.bind (fun x => (okValue s (.digit ty c radix)).bind (fun d =>
    (okValue s (.mul ty x (radix.setWidth 64))).bind (fun p => okValue s (.add ty p d))))

/-- The radix sent as an operand word is read as `wrap(radix)` (R66). -/
theorem operand_radix (s : State) (ty : Ty) (radix : BitVec 6) :
    operand s ty (radix.setWidth 64) = wrap (width s.config ty) radix.toNat := by
  have := radix.isLt
  rw [wrap, BitVec.ofInt_natCast]
  refine BitVec.eq_of_toNat_eq ?_
  rw [operand, pattern, BitVec.toNat_setWidth, BitVec.toNat_setWidth, BitVec.toNat_ofNat,
    Nat.mod_eq_of_lt (show radix.toNat < 2 ^ 64 by omega)]

/-- On a wrapped number the three requests append a digit, wrapped again (R222). -/
theorem foldRequest_wrap {ty : Ty} {radix : BitVec 6} {c : Byte} {d : Nat} (s : State)
    (hc : digitBelow radix.toNat c = some d) (m : Nat) :
    foldRequest s ty radix (some (zext64 (wrap (width s.config ty) m))) c =
      some (zext64 (wrap (width s.config ty) (m * radix.toNat + d : Nat))) := by
  push_cast
  rw [foldRequest, Option.bind_some, okValue_of_respond (exec_digit_of_some ty s hc), Option.bind_some, okValue_mul,
    Option.bind_some, okValue_add, operand_zext64, operand_zext64, operand_zext64, operand_radix, wrap_add, wrap_mul]

theorem foldl_foldRequest {ty : Ty} {radix : BitVec 6} {cs : List Byte} {ds : List Nat} (s : State)
    (h : List.Forall₂ (fun c d => digitBelow radix.toNat c = some d) cs ds) (m : Nat) :
    cs.foldl (foldRequest s ty radix) (some (zext64 (wrap (width s.config ty) m))) =
      some (zext64 (wrap (width s.config ty) (ds.foldl (fun m d => m * radix.toNat + d) m : Nat))) := by
  induction h generalizing m with
  | nil => rfl
  | cons hc _ ih => rw [List.foldl_cons, foldRequest_wrap s hc, ih, List.foldl_cons]

/-- Settles O53: wrapping commutes with the steps of the magnitude, so the fold ends in the wrapped magnitude. -/
theorem parseIsFoldOfDigits : Obligations.ParseIsFoldOfDigits := by
  intro ty str radix s v hu hv
  obtain ⟨p, hp, rfl⟩ := parseAnswer_of_okValue hv
  rw [hu] at hp
  obtain ⟨ds, hds, rfl⟩ := digitValues_of_parseAnswer_ok hp
  have hfold := foldl_foldRequest (ty := ty) s (digitValues_eq_some.1 hds) 0
  rw [Nat.cast_zero, wrap_zero, zext64_zero] at hfold
  exact hfold

/-! ## The decimal text of a value -/

/-- The character of a decimal digit is that digit (R210). -/
theorem digitBelow_decimal {d : Nat} (h : d < 10) : digitBelow 10 (BitVec.ofNat 8 (0x30 + d)) = some d := by
  revert h
  revert d
  decide

/-- The decimal digits of a number, the most significant first, with one digit for 0. -/
def decimalDigits (n : Nat) : List Nat := if n = 0 then [0] else (Nat.digits 10 n).reverse

theorem decimalDigits_ne_nil (n : Nat) : decimalDigits n ≠ [] := by
  rw [decimalDigits]
  split
  · simp
  · rename_i h
    rw [Ne, List.reverse_eq_nil_iff]
    exact Nat.digits_ne_nil_iff_ne_zero.2 h

theorem lt_ten_of_mem_decimalDigits {n d : Nat} (h : d ∈ decimalDigits n) : d < 10 := by
  rw [decimalDigits] at h
  split at h
  · rw [List.mem_singleton.1 h]
    decide
  · exact Nat.digits_lt_base (by decide) (List.mem_reverse.1 h)

theorem magnitude_decimalDigits (n : Nat) : magnitude 10 (decimalDigits n) = n := by
  rw [decimalDigits]
  split
  · rename_i h
    rw [h]
    rfl
  · conv_rhs => rw [← Nat.ofDigits_digits 10 n, Nat.ofDigits_eq_foldr]
    rw [magnitude, List.foldl_reverse]
    refine congrArg (fun g => List.foldr g 0 (Nat.digits 10 n)) (funext fun d => funext fun m => ?_)
    rw [Nat.mul_comm, Nat.add_comm]
    rfl

/-- The text of decimal digits. -/
def decimalCharacters (ds : List Nat) : List Byte := ds.map (fun d => BitVec.ofNat 8 (0x30 + d))

theorem digitValues_decimalCharacters {ds : List Nat} (h : ∀ d ∈ ds, d < 10) :
    digitValues 10 (decimalCharacters ds) = some ds := by
  rw [digitValues_eq_some, decimalCharacters, List.forall₂_map_left_iff, List.forall₂_same]
  exact fun d hd => digitBelow_decimal (h d hd)

/-- No decimal digit is written `-` (R212). -/
theorem head?_decimalCharacters {ds : List Nat} (h : ∀ d ∈ ds, d < 10) :
    (decimalCharacters ds).head? ≠ some 0x2D#8 := by
  intro hhead
  rw [decimalCharacters, List.head?_map, Option.map_eq_some_iff] at hhead
  obtain ⟨d, hd, hc⟩ := hhead
  have hdigit := digitBelow_decimal (h d (List.mem_of_head? hd))
  rw [hc] at hdigit
  cases hdigit

/-- Settles O54: the digits of |v| parse to |v|, and the sign stands before them for a signed type alone. -/
theorem decimalTextParses : Obligations.DecimalTextParses := by
  intro ty s v hv digits text
  have hdigits : digits = decimalDigits v.natAbs := by
    simp only [digits, decimalDigits, Int.natAbs_eq_zero]
  have hlt : ∀ d ∈ decimalDigits v.natAbs, d < 10 := fun d hd => lt_ten_of_mem_decimalDigits hd
  have htext : text = (if decide (v < 0) then [0x2D#8] else []) ++ decimalCharacters (decimalDigits v.natAbs) := by
    simp only [text, hdigits, decide_eq_true_eq]
    rfl
  have hneg : decide (v < 0) = true → ty.signed = true := by
    intro hlt
    have hmin := ((inRange_iff _ _ _).1 hv).1
    cases hs : ty.signed with
    | true => rfl
    | false =>
      rw [hs] at hmin
      have := of_decide_eq_true hlt
      simp only [minv, Bool.false_eq_true, if_false] at hmin
      omega
  have hparse := parseAnswer_of_digitValues_some (width s.config ty)
    (splitSign_signedText hneg (head?_decimalCharacters hlt)) (by simp [decimalCharacters, decimalDigits_ne_nil])
    (digitValues_decimalCharacters hlt)
  have hvalue : (if decide (v < 0) = true then -(v.natAbs : Int) else v.natAbs) = v := by
    simp only [decide_eq_true_eq]
    split <;> omega
  rw [magnitude_decimalDigits, hvalue, if_pos hv] at hparse
  rw [htext, okValue_of_respond (exec_fromStrRadix_of_ok hparse)]

end Sys2Proof.Machine
end

section
/-! PROOFS. The intermediate powers of a checked power (R233, R234), and POW on either signedness (R231). -/

namespace Sys2Proof.Machine

/-- Where a power of magnitude 2 or more grows in its exponent, it at least doubles. -/
theorem two_mul_natAbs_pow_le {v : Int} {k n : Nat} (hv : 2 ≤ v.natAbs) (hkn : k < n) :
    2 * (v ^ k).natAbs ≤ (v ^ n).natAbs := by
  calc 2 * (v ^ k).natAbs
      ≤ v.natAbs * v.natAbs ^ k := by rw [Int.natAbs_pow]; exact Nat.mul_le_mul_right _ hv
    _ = v.natAbs ^ (k + 1) := by rw [pow_succ, Nat.mul_comm]
    _ ≤ v.natAbs ^ n := Nat.pow_le_pow_right (by omega) hkn
    _ = (v ^ n).natAbs := by rw [Int.natAbs_pow]

/-- A range holds every power between a base and a power that it holds (R233). -/
theorem inRange_pow_of_le {sg : Bool} {w k n : Nat} {v : Int} (hw : 1 < w) (hv : inRange sg w v = true) (hk : 1 ≤ k)
    (hkn : k ≤ n) (hn : inRange sg w (v ^ n) = true) : inRange sg w (v ^ k) = true := by
  have hmin := minv_nonpos sg w
  have hmax := maxv_pos sg hw
  by_cases hone : v.natAbs ≤ 1
  · have hv' := (inRange_iff sg w v).1 hv
    have hcases : v = 0 ∨ v = 1 ∨ v = -1 := by omega
    rw [pow_of_natAbs_le_one hone, if_neg (by omega), inRange_iff]
    obtain rfl | rfl | rfl := hcases <;> split <;> omega
  · obtain hlt | rfl := Nat.lt_or_eq_of_le hkn
    · have hdouble := two_mul_natAbs_pow_le (v := v) (by omega) hlt
      have hn' := (inRange_iff sg w _).1 hn
      rw [inRange_iff]
      cases sg with
      | false =>
        have hbase := ((inRange_iff false w v).1 hv).1
        have hnonneg : 0 ≤ v ^ k := pow_nonneg hbase k
        simp only [minv, Bool.false_eq_true, if_false] at hn' ⊢
        omega
      | true =>
        simp only [minv, maxv, if_true] at hn' ⊢
        omega
    · exact hn

section
variable (ty : Ty) (a : Word) (n : BitVec 32) (s : State)

theorem okValue_pow :
    okValue s (.pow ty a n) =
      some (zext64 (wrap (width s.config ty) (val ty.signed (operand s ty a) ^ n.toNat))) :=
  okValue_of_respond (exec_pow ty a n s)

theorem okValue_checkedPow :
    okValue s (.checkedPow ty a n) =
      if inRange ty.signed (width s.config ty) (val ty.signed (operand s ty a) ^ n.toNat) then okValue s (.pow ty a n)
      else none := by
  have hexec := exec_checkedPow ty a n s
  split
  · rename_i hin
    rw [if_pos hin] at hexec
    rw [okValue_of_respond hexec, okValue_pow]
  · rename_i hout
    rw [if_neg hout] at hexec
    exact okValue_of_raise hexec

end

/-- POW answers with a pattern that the signedness of the type does not enter (R231). -/
theorem okValue_pow_signed_eq_unsigned (wsel : WidthSel) (a : Word) (n : BitVec 32) (s : State) :
    okValue s (.pow ⟨true, wsel⟩ a n) = okValue s (.pow ⟨false, wsel⟩ a n) := by
  have hsigned : okValue s (.pow ⟨true, wsel⟩ a n) = some (zext64 (powWrap (operand s ⟨true, wsel⟩ a) n)) :=
    okValue_of_respond (i := .pow ⟨true, wsel⟩ a n) rfl
  have hunsigned : okValue s (.pow ⟨false, wsel⟩ a n) = some (zext64 (powWrap (operand s ⟨false, wsel⟩ a) n)) :=
    okValue_of_respond (i := .pow ⟨false, wsel⟩ a n) rfl
  rw [hsigned, hunsigned]
  rfl

/-- Settles O55: the last power is in range exactly when all before it are, and CHECKED_POW then answers what POW does. -/
theorem checkedPowIntermediates : Obligations.CheckedPowIntermediates := by
  intro ty a n s w x
  have hw : 1 < w := by have := eight_le_width s.config ty; omega
  have hchecked : okValue s (.checkedPow ty a n) =
      if inRange ty.signed w (x ^ n.toNat) then okValue s (.pow ty a n) else none := okValue_checkedPow ty a n s
  have hpow : (okValue s (.pow ty a n)).isSome = true := by rw [okValue_pow]; rfl
  rw [hchecked]
  refine ⟨⟨fun hsome k hk hkn => ?_, fun hall => ?_⟩, fun v hv => ?_, hpow, okValue_pow_signed_eq_unsigned ty.wsel a n s⟩
  · cases hn : inRange ty.signed w (x ^ n.toNat) with
    | true => exact inRange_pow_of_le hw (inRange_val _ _) hk hkn hn
    | false => simp [hn] at hsome
  · rw [if_pos, hpow]
    obtain hzero | hpos := Nat.eq_zero_or_pos n.toNat
    · have hmin := minv_nonpos ty.signed w
      have hmax := maxv_pos ty.signed hw
      rw [hzero, pow_zero, inRange_iff]
      omega
    · exact hall n.toNat hpos le_rfl
  · split at hv
    · exact hv
    · cases hv

end Sys2Proof.Machine
end

section
/-! PROOFS. The frames the requester's assembler writes (R86): its value operands are canonical, so that of the checks of R78 only
those of the radix and of the string length can fail. -/

namespace Sys2Proof.Machine

/-- The responses the requester may bind carry canonical values of their types (R72). -/
def CanonicalResponses (cfg : Config) (sent : List Sent) : Prop :=
  ∀ p ∈ sent, p.response.cause = 0#4 → canonical (width cfg p.ty) p.response.word1 = true

/-- A value operand that resolves is canonical: a literal is checked against the type, and a bound value was an answer of it
(R86, R88). -/
theorem canonical_of_resolveValue {cfg : Config} {ty : Ty} {sent : List Sent} {v : ValueLit} {x : Word}
    (hsent : CanonicalResponses cfg sent) (h : resolveValue cfg ty sent v = .ok x) :
    canonical (width cfg ty) x = true := by
  have hw := width_le_64 cfg ty
  cases v with
  | dec z =>
    simp only [resolveValue] at h
    split at h
    · cases h
      exact canonical_zext64 _ hw
    · cases h
  | hex k =>
    simp only [resolveValue] at h
    split at h
    · cases h
      refine (canonical_iff _ _).2 ?_
      rw [BitVec.toNat_ofNat]
      exact (Nat.mod_le _ _).trans_lt ‹_›
    · cases h
  | minLit | maxLit =>
    cases h
    exact canonical_zext64 _ hw
  | bind k =>
    simp only [resolveValue] at h
    cases hb : boundValue sent k with
    | error e => rw [hb] at h; cases h
    | ok p =>
      obtain ⟨hget, hok⟩ := boundValue_ok hb
      simp only [hb] at h
      split at h
      · rename_i hty
        cases h
        rw [← hty]
        exact hsent p (List.mem_of_getElem? hget) hok
      · cases h

/-- Settles O57: each format's frame is one of those whose failing checks are known. -/
theorem assembledFrameChecks : Obligations.AssembledFrameChecks := by
  intro cfg sent l f hsent h k hk
  obtain ⟨op, ty, operands⟩ := l
  unfold assemble at h
  split at h
  case h_1 hfmt _ =>
    cases h
    exact .inl (eq_k8_of_fails_threeWords (by simp [hfmt]) (by simp [hfmt, unusedFieldSet, aWord, bWord, headerOf])
      (by simp [hfmt, operandNotCanonical]) (by simp [hfmt]) hk)
  case h_2 hfmt _ =>
    split at h
    · rename_i x hx
      cases h
      have hcanon := canonical_of_resolveValue hsent hx
      exact .inl (eq_k8_of_fails_threeWords (by simp [hfmt]) (by simp [hfmt, unusedFieldSet, bWord, headerOf])
        (by simp [hfmt, operandNotCanonical, aWord, hcanon]) (by simp [hfmt]) hk)
    · cases h
  case h_3 hfmt _ =>
    split at h
    · rename_i x y hx hy
      cases h
      have hcanonx := canonical_of_resolveValue hsent hx
      have hcanony := canonical_of_resolveValue hsent hy
      exact .inl (eq_k8_of_fails_threeWords (by simp [hfmt]) (by simp [hfmt, unusedFieldSet, headerOf])
        (by simp [hfmt, operandNotCanonical, aWord, bWord, hcanonx, hcanony]) (by simp [hfmt]) hk)
    · cases h
    · cases h
  case h_4 hfmt _ =>
    split at h
    · rename_i x n hx _
      cases h
      have hcanon := canonical_of_resolveValue hsent hx
      exact .inl (eq_k8_of_fails_threeWords (by simp [hfmt]) (by simp [hfmt, unusedFieldSet, bWord, headerOf])
        (by simp [hfmt, operandNotCanonical, aWord, hcanon]) (by simp [hfmt]) hk)
    · cases h
    · cases h
  case h_5 c radix hfmt _ =>
    split at h
    · rename_i hfits
      cases h
      have hchar : (BitVec.ofNat 32 c).toNat < 2 ^ 8 := by
        rw [BitVec.toNat_ofNat]
        omega
      exact .inl (eq_k8_of_fails_threeWords (by simp [hfmt]) (by simp [hfmt, unusedFieldSet, aWord, bWord])
        (by simp [hfmt, operandNotCanonical]) (fun _ => hchar) hk)
    · cases h
  case h_6 str radix hfmt _ =>
    split at h
    · rename_i hfits
      cases h
      rw [Opcode.eq_fromStrRadix_of_format hfmt] at hk
      exact eq_k8_or_k9_of_fails_stringFrame hfits.1 hk
    · cases h
  case h_7 => cases h

end Sys2Proof.Machine
end

section
/-! PROOFS. Scripts (R88): what one line of a script can do on an idle engine, said once, and what follows for the whole script. -/

namespace Sys2Proof.Machine

/-- An idle engine sent a frame emits its response at once and is idle again (R284). -/
theorem sendRequest_of_idle {s : State} (hl : s.config.legal = true) (hp : s.pending = []) (f : Frame) :
    sendRequest f s = some (s.emit (frameResponse s.config f), frameResponse s.config f) := by
  have hpending : (s.accept f).pending = [f] := by rw [accept_pending, hp, List.nil_append]
  refine sendRequest_eq ?_ rfl
  rw [step_eq_frameResponse (s := s.accept f) hl hpending, State.emit, hp]
  rfl

/-- Everything the first line of a script can do on an idle engine: stop the script before it, be its last line as a needed
failure, or be sent and let the script go on (R88; log 14, log 19). -/
theorem runScript_cons_cases {s : State} (hl : s.config.legal = true) (hp : s.pending = []) (l : Line) (ls : List Line)
    (sent : List Sent) :
    (∃ e, assemble s.config sent l = .error e ∧
        runScript (l :: ls) sent s = { sent := sent, final := s, stopped := some e }) ∨
    (∃ r : Response, r.cause ≠ 0#4 ∧ neededBy ls sent.length = true ∧
        runScript (l :: ls) sent s =
          { sent := sent ++ [{ ty := l.ty, response := r }], final := s.emit r, stopped := some .bindingFailed }) ∨
    (∃ r : Response, (r.cause = 0#4 ∨ neededBy ls sent.length = false) ∧
        runScript (l :: ls) sent s = runScript ls (sent ++ [{ ty := l.ty, response := r }]) (s.emit r)) := by
  cases ha : assemble s.config sent l with
  | error e => exact .inl ⟨e, rfl, runScript_error ha⟩
  | ok f =>
    have hsend := sendRequest_of_idle hl hp f
    by_cases hc : (frameResponse s.config f).cause = 0#4
    · exact .inr (.inr ⟨_, .inl hc, runScript_continue ha hsend (.inl hc)⟩)
    · cases hn : neededBy ls sent.length with
      | true => exact .inr (.inl ⟨_, hc, rfl, runScript_neededFailure ha hsend hc hn⟩)
      | false => exact .inr (.inr ⟨_, .inr rfl, runScript_continue ha hsend (.inr hn)⟩)

/-- Settles O58: each line adds at most one request and its response, and only a script that sends every line is not stopped. -/
theorem scriptLeavesEngineIdle : Obligations.ScriptLeavesEngineIdle := by
  intro ls
  induction ls with
  | nil =>
    intro sent s _ _
    exact ⟨[], by simp, le_rfl, by simp, by simp⟩
  | cons l ls ih =>
    intro sent s hl hp
    obtain ⟨e, -, hrun⟩ | ⟨r, -, hneeded, hrun⟩ | ⟨r, -, hrun⟩ := runScript_cons_cases hl hp l ls sent <;> rw [hrun]
    · exact ⟨[], by simp, Nat.zero_le _, by simp, by simp⟩
    · have hne : ls ≠ [] := by
        rintro rfl
        cases hneeded
      exact ⟨[{ ty := l.ty, response := r }], rfl, by simp, rfl, by simp [hne]⟩
    · obtain ⟨more, hsent, hlen, hfinal, hstop⟩ := ih (sent ++ [{ ty := l.ty, response := r }]) (s.emit r) hl hp
      refine ⟨{ ty := l.ty, response := r } :: more, by rw [hsent, List.append_assoc]; rfl, by simpa using hlen, ?_,
        by rw [hstop]; simp⟩
      rw [hfinal]
      simp [State.emit]

/-- A script keeps the requests sent before it and puts its own behind them (R88). -/
theorem exists_runScript_sent {s : State} (hl : s.config.legal = true) (hp : s.pending = []) (ls : List Line)
    (sent : List Sent) : ∃ more, (runScript ls sent s).sent = sent ++ more := by
  obtain ⟨more, hsent, -⟩ := scriptLeavesEngineIdle ls sent s hl hp
  exact ⟨more, hsent⟩

/-! ## Bindings that fail -/

theorem resolveValue_bindingFailed {cfg : Config} {ty : Ty} {sent : List Sent} {v : ValueLit}
    (h : resolveValue cfg ty sent v = .error .bindingFailed) :
    ∃ k ∈ v.bindings, ∃ p, sent[k]? = some p ∧ p.response.cause ≠ 0#4 := by
  cases v with
  | dec z | hex k =>
    simp only [resolveValue] at h
    split at h <;> cases h
  | minLit | maxLit => cases h
  | bind k =>
    refine ⟨k, List.mem_singleton_self k, boundValue_bindingFailed ?_⟩
    simp only [resolveValue] at h
    cases hb : boundValue sent k with
    | ok p =>
      simp only [hb] at h
      split at h <;> cases h
    | error e =>
      simp only [hb] at h
      cases h
      rfl

theorem resolveCount_bindingFailed {sent : List Sent} {n : CountLit}
    (h : resolveCount sent n = .error .bindingFailed) :
    ∃ k ∈ n.bindings, ∃ p, sent[k]? = some p ∧ p.response.cause ≠ 0#4 := by
  cases n with
  | num k =>
    simp only [resolveCount] at h
    split at h <;> cases h
  | bind k =>
    refine ⟨k, List.mem_singleton_self k, boundValue_bindingFailed ?_⟩
    simp only [resolveCount] at h
    cases hb : boundValue sent k with
    | ok p =>
      simp only [hb] at h
      split at h <;> cases h
    | error e =>
      simp only [hb] at h
      cases h
      rfl

/-- A line that does not assemble for a failed binding names a request that was answered with a failure (R88). -/
theorem assemble_bindingFailed {cfg : Config} {sent : List Sent} {l : Line}
    (h : assemble cfg sent l = .error .bindingFailed) :
    ∃ k ∈ l.bindings, ∃ p, sent[k]? = some p ∧ p.response.cause ≠ 0#4 := by
  obtain ⟨op, ty, operands⟩ := l
  unfold assemble at h
  split at h <;> dsimp only at * <;> subst_vars
  case h_1 => cases h
  case h_2 a _ _ =>
    split at h
    · cases h
    · rename_i e he
      cases h
      exact resolveValue_bindingFailed he
  case h_3 a b _ _ =>
    split at h
    · cases h
    · rename_i e he
      cases h
      obtain ⟨k, hk, hp⟩ := resolveValue_bindingFailed he
      exact ⟨k, List.mem_append_left _ hk, hp⟩
    · rename_i e _ he
      cases h
      obtain ⟨k, hk, hp⟩ := resolveValue_bindingFailed he
      exact ⟨k, List.mem_append_right _ hk, hp⟩
  case h_4 a n _ _ =>
    split at h
    · cases h
    · rename_i e he
      cases h
      obtain ⟨k, hk, hp⟩ := resolveValue_bindingFailed he
      exact ⟨k, List.mem_append_left _ hk, hp⟩
    · rename_i e _ he
      cases h
      obtain ⟨k, hk, hp⟩ := resolveCount_bindingFailed he
      exact ⟨k, List.mem_append_right _ hk, hp⟩
  case h_5 => split at h <;> cases h
  case h_6 => split at h <;> cases h
  case h_7 => cases h

/-! ## Needed failures -/

/-- No line of a script names an earlier request that was answered with a failure (R88). -/
def NoFailureNeeded (sent : List Sent) (ls : List Line) : Prop :=
  ∀ (k : Nat) (p : Sent), sent[k]? = some p → p.response.cause ≠ 0#4 → ∀ l ∈ ls, k ∉ l.bindings

/-- A response that lets the script go on keeps it so: it is no failure, or no later line names it (R88). -/
theorem NoFailureNeeded.append {sent : List Sent} {l : Line} {ls : List Line} {q : Sent}
    (h : NoFailureNeeded sent (l :: ls)) (hq : q.response.cause = 0#4 ∨ neededBy ls sent.length = false) :
    NoFailureNeeded (sent ++ [q]) ls := by
  intro k p hget hfail l' hl' hk
  rcases Nat.lt_or_ge k sent.length with hlt | hge
  · rw [List.getElem?_append_left hlt] at hget
    exact h k p hget hfail l' (List.mem_cons_of_mem l hl') hk
  · rw [List.getElem?_append_right hge, List.getElem?_singleton] at hget
    split at hget
    · obtain rfl : k = sent.length := by omega
      cases hget
      have hneeded : neededBy ls sent.length = true := neededBy_iff.2 ⟨l', hl', hk⟩
      rcases hq with hok | hn
      · exact hfail hok
      · rw [hneeded] at hn
        cases hn
    · cases hget

/-- A request the script sent, whose failed response a later line names, is its last (R88; log 19). -/
theorem runScript_stops_of_needed {ls : List Line} {sent : List Sent} {s : State} (hl : s.config.legal = true)
    (hp : s.pending = []) {k : Nat} {p : Sent} (hk : sent.length ≤ k) (hget : (runScript ls sent s).sent[k]? = some p)
    (hfail : p.response.cause ≠ 0#4) (hneed : ∃ l ∈ ls.drop (k + 1 - sent.length), k ∈ l.bindings) :
    (runScript ls sent s).sent.length = k + 1 ∧ (runScript ls sent s).stopped = some .bindingFailed ∧
      (runScript ls sent s).final.emitted.getLast? = some p.response := by
  induction ls generalizing sent s with
  | nil => simp at hneed
  | cons l ls ih =>
    obtain ⟨e, -, hrun⟩ | ⟨r, -, -, hrun⟩ | ⟨r, hgoon, hrun⟩ := runScript_cons_cases hl hp l ls sent <;>
      rw [hrun] at hget ⊢
    · rw [List.getElem?_eq_none hk] at hget
      cases hget
    · rw [List.getElem?_append_right hk, List.getElem?_singleton] at hget
      split at hget
      · cases hget
        exact ⟨by simp; omega, rfl, by simp⟩
      · cases hget
    · rcases Nat.lt_or_eq_of_le hk with hlt | rfl
      · rw [show k + 1 - sent.length = k + 1 - (sent.length + 1) + 1 by omega, List.drop_succ_cons] at hneed
        exact ih (s := s.emit r) hl hp (by simpa using hlt) hget (by simpa using hneed)
      · obtain ⟨more, hmore⟩ := exists_runScript_sent (s := s.emit r) hl hp ls (sent ++ [{ ty := l.ty, response := r }])
        rw [hmore] at hget
        obtain rfl : _ = p := by simpa using hget
        have hneeded : neededBy ls sent.length = true := neededBy_iff.2 (by simpa using hneed)
        rcases hgoon with hok | hn
        · exact absurd hok hfail
        · rw [hneeded] at hn
          cases hn

/-- A script that stops for a failed binding does so at a needed failure of its own (R88; log 19). -/
theorem runScript_needed_of_stops {ls : List Line} {sent : List Sent} {s : State} (hl : s.config.legal = true)
    (hp : s.pending = []) (hnone : NoFailureNeeded sent ls) (hstop : (runScript ls sent s).stopped = some .bindingFailed) :
    ∃ (k : Nat) (p : Sent), (runScript ls sent s).sent.length = k + 1 ∧ (runScript ls sent s).sent[k]? = some p ∧
      p.response.cause ≠ 0#4 ∧ ∃ l ∈ ls.drop (k + 1 - sent.length), k ∈ l.bindings := by
  induction ls generalizing sent s with
  | nil => cases hstop
  | cons l ls ih =>
    obtain ⟨e, ha, hrun⟩ | ⟨r, hfail, hneeded, hrun⟩ | ⟨r, hgoon, hrun⟩ := runScript_cons_cases hl hp l ls sent <;>
      rw [hrun] at hstop ⊢
    · cases hstop
      obtain ⟨k, hk, p, hget, hfail⟩ := assemble_bindingFailed ha
      exact absurd hk (hnone k p hget hfail l List.mem_cons_self)
    · refine ⟨sent.length, { ty := l.ty, response := r }, by simp, by simp, hfail, ?_⟩
      simpa using neededBy_iff.1 hneeded
    · obtain ⟨k, p, hlen, hget, hfail, hneed⟩ := ih (s := s.emit r) hl hp (hnone.append hgoon) hstop
      obtain ⟨more, hmore⟩ := exists_runScript_sent (s := s.emit r) hl hp ls (sent ++ [{ ty := l.ty, response := r }])
      have hk : sent.length ≤ k := by
        rw [hmore] at hlen
        simp at hlen
        omega
      refine ⟨k, p, hlen, hget, hfail, ?_⟩
      rw [show k + 1 - sent.length = k + 1 - (sent.length + 1) + 1 by omega, List.drop_succ_cons]
      simpa using hneed

/-- Settles O59: with no request sent before the script, the requests are numbered as its lines are. -/
theorem scriptStopsAtNeededFailure : Obligations.ScriptStopsAtNeededFailure := by
  intro ls s hl hp run
  refine ⟨fun k p hget hfail hneed => runScript_stops_of_needed hl hp (Nat.zero_le k) hget hfail hneed, fun hstop => ?_⟩
  exact runScript_needed_of_stops hl hp (fun k p hget => by simp at hget) hstop

end Sys2Proof.Machine
end

section
/-! PROOFS. The two texts of a parse request assemble to one frame (R87): every spelling of a string literal is read back as its
bytes (R86), and the two lines differ only in their mnemonic and in the radix 10 written out. -/

namespace Sys2Proof.Machine

/-! ## The spellings of a byte -/

/-- The two characters of a hexadecimal digit, in either case (R86; log 13). -/
def hexSpellings (k : Nat) : List Char :=
  ["0123456789abcdef".toList.getD k '0', "0123456789ABCDEF".toList.getD k '0']

/-- The spellings of a byte as `\xHH` (R86). -/
def escapedSpellings (c : Byte) : List (List Char) :=
  (hexSpellings (c.toNat / 16)).flatMap (fun h => (hexSpellings (c.toNat % 16)).map (fun l => ['\\', 'x', h, l]))

/-- The spellings of a byte in a string literal (R86). -/
def byteSpellings (c : Byte) : List (List Char) :=
  escapedSpellings c ++
    (if c = 0x22#8 then [['\\', '"']] else if c = 0x5C#8 then [['\\', '\\']]
     else if c.toNat < 128 then [[Char.ofNat c.toNat]] else [])

theorem hexDigitOf_of_mem_hexSpellings {k : Nat} (hk : k < 16) {c : Char} (hc : c ∈ hexSpellings k) :
    hexDigitOf c = some k := by
  have hall : (List.range 16).all (fun k => (hexSpellings k).all (fun c => hexDigitOf c == some k)) = true := by
    decide
  simpa using List.all_eq_true.1 (List.all_eq_true.1 hall k (List.mem_range.2 hk)) c hc

theorem hexOf_pair {h l : Char} {i j : Nat} (hi : hexDigitOf h = some i) (hj : hexDigitOf l = some j) :
    hexOf [h, l] = some (i * 16 + j) := by
  simp [hexOf, hi, hj]

theorem toNat_ofNat_ascii {k : Nat} (h : k < 128) : (Char.ofNat k).toNat = k := by
  rw [Char.toNat_ofNat, if_pos (.inl (by omega))]

/-- An ASCII character is one of its code alone. -/
theorem ofNat_ne_of_toNat_ne {k : Nat} (h : k < 128) {c : Char} (hc : k ≠ c.toNat) : Char.ofNat k ≠ c := by
  rintro rfl
  exact hc (toNat_ofNat_ascii h).symm

/-- Every spelling of a byte is read as that byte (R86). -/
theorem scanString_spelling {c : Byte} {part : List Char} (h : part ∈ byteSpellings c) (rest : List Char) :
    scanString (part ++ rest) = (scanString rest).map (fun p => (c :: p.1, p.2)) := by
  obtain hesc | hplain := List.mem_append.1 h
  · have hlt := c.isLt
    obtain ⟨hi, hhi, hmap⟩ := List.mem_flatMap.1 hesc
    obtain ⟨lo, hlo, rfl⟩ := List.mem_map.1 hmap
    have hk := hexOf_pair (hexDigitOf_of_mem_hexSpellings (by omega) hhi)
      (hexDigitOf_of_mem_hexSpellings (by omega) hlo)
    rw [Nat.div_add_mod'] at hk
    have hscan := scanString_escapedByte hk rest
    rwa [BitVec.ofNat_toNat, BitVec.setWidth_eq] at hscan
  · split at hplain
    · rename_i hc
      rw [List.mem_singleton.1 hplain, hc]
      rfl
    · split at hplain
      · rename_i hc
        rw [List.mem_singleton.1 hplain, hc]
        rfl
      · rename_i hquote hbackslash
        split at hplain
        · rename_i hascii
          have hq : c.toNat ≠ '"'.toNat := fun heq => hquote (BitVec.eq_of_toNat_eq heq)
          have hb : c.toNat ≠ '\\'.toNat := fun heq => hbackslash (BitVec.eq_of_toNat_eq heq)
          have hscan := scanString_plain (ofNat_ne_of_toNat_ne hascii hq) (ofNat_ne_of_toNat_ne hascii hb)
            (by rwa [toNat_ofNat_ascii hascii]) rest
          rw [toNat_ofNat_ascii hascii, BitVec.ofNat_toNat, BitVec.setWidth_eq] at hscan
          rw [List.mem_singleton.1 hplain]
          exact hscan
        · cases hplain

/-- A string literal is read as the bytes it spells, up to its closing quote (R86). -/
theorem scanString_literal {str : List Byte} {parts : List (List Char)}
    (h : List.Forall₂ (fun c part => part ∈ byteSpellings c) str parts) (rest : List Char) :
    scanString (parts.flatten ++ '"' :: rest) = some (str, rest) := by
  induction h with
  | nil => rfl
  | cons hpart _ ih => rw [List.flatten_cons, List.append_assoc, scanString_spelling hpart, ih, Option.map_some]

theorem readString_literal {str : List Byte} {parts : List (List Char)}
    (h : List.Forall₂ (fun c part => part ∈ byteSpellings c) str parts) (rest : List Char) :
    readString (' ' :: '"' :: (parts.flatten ++ '"' :: rest)) = some (str, rest) :=
  scanString_literal h rest

/-! ## The parts of a line -/

theorem takeWhile_append_cons {p : Char → Bool} {xs : List Char} {c : Char} (hxs : ∀ x ∈ xs, p x = true)
    (hc : p c = false) (rest : List Char) : (xs ++ c :: rest).takeWhile p = xs := by
  rw [List.takeWhile_append_of_pos hxs, List.takeWhile_cons_of_neg (by simp [hc]), List.append_nil]

theorem dropWhile_append_cons {p : Char → Bool} {xs : List Char} {c : Char} (hxs : ∀ x ∈ xs, p x = true)
    (hc : p c = false) (rest : List Char) : (xs ++ c :: rest).dropWhile p = c :: rest := by
  rw [List.dropWhile_append_of_pos hxs, List.dropWhile_cons_of_neg (by simp [hc])]

theorem tyName_noDelimiter (ty : Ty) : ∀ c ∈ (tyName ty).toList, (!isDelimiter c) = true := by
  obtain ⟨sg, wsel⟩ := ty
  cases sg <;> cases wsel <;> simp [tyName, isDelimiter, isBlank]

/-- The ten type names are told apart (R85). -/
theorem find?_tyName (ty : Ty) : allTypes.find? (fun t => (tyName t).toList == (tyName ty).toList) = some ty := by
  obtain ⟨sg, wsel⟩ := ty
  cases sg <;> cases wsel <;> decide

/-- What is left of a line behind its operands is nothing, or a comment (R85). -/
theorem atEnd_of_comment {tail : List Char} (h : tail = [] ∨ tail.head? = some ';') : atEnd tail = true := by
  cases tail with
  | nil => rfl
  | cons c rest =>
    obtain rfl : c = ';' := by simpa using h
    rfl

/-- The radix 10 behind a comma is read up to the end of the line or a comment (R85). -/
theorem readWord_ten {tail : List Char} (h : tail = [] ∨ tail.head? = some ';') :
    readWord decimalOf (" 10".toList ++ tail) = some (10, tail) := by
  cases tail with
  | nil => rfl
  | cons c rest =>
    obtain rfl : c = ';' := by simpa using h
    rfl

/-- A mnemonic's text: not empty, and with no dot and no delimiter in it (R85). -/
def IsMnemonic (m : List Char) : Prop := m ≠ [] ∧ ∀ c ∈ m, (c != '.' && !isDelimiter c) = true

section
variable {m : List Char} (hm : IsMnemonic m) (text : List Char)
include hm

/-- A line that begins with a mnemonic begins with neither a blank nor a comment (R85). -/
theorem skipBlanks_mnemonic : skipBlanks (m ++ text) = m ++ text := by
  obtain ⟨hne, hall⟩ := hm
  cases m with
  | nil => exact absurd rfl hne
  | cons c cs =>
    have hc : isBlank c = false := by
      have := hall c List.mem_cons_self
      simp_all [isDelimiter]
    rw [List.cons_append, skipBlanks, List.dropWhile_cons_of_neg (by simp [hc])]

theorem atEnd_mnemonic : atEnd (m ++ text) = false := by
  rw [atEnd, skipBlanks_mnemonic hm]
  obtain ⟨hne, hall⟩ := hm
  cases m with
  | nil => exact absurd rfl hne
  | cons c cs =>
    have := hall c List.mem_cons_self
    simp_all [isDelimiter]

theorem takeWhile_mnemonic :
    (m ++ '.' :: text).takeWhile (fun c => c != '.' && !isDelimiter c) = m :=
  takeWhile_append_cons hm.2 rfl text

theorem dropWhile_mnemonic :
    (m ++ '.' :: text).dropWhile (fun c => c != '.' && !isDelimiter c) = '.' :: text :=
  dropWhile_append_cons hm.2 rfl text

end

theorem takeWhile_tyName (ty : Ty) (rest : List Char) :
    ((tyName ty).toList ++ ' ' :: rest).takeWhile (fun c => !isDelimiter c) = (tyName ty).toList :=
  takeWhile_append_cons (tyName_noDelimiter ty) rfl rest

theorem dropWhile_tyName (ty : Ty) (rest : List Char) :
    ((tyName ty).toList ++ ' ' :: rest).dropWhile (fun c => !isDelimiter c) = ' ' :: rest :=
  dropWhile_append_cons (tyName_noDelimiter ty) rfl rest

/-! ## The two lines -/

section
variable {m rest : List Char} (hm : IsMnemonic m) (ty : Ty)
include hm

/-- A line of the mnemonic `from_str` whose string reads is the request of R87. -/
theorem parseLine_of_fromStr {tail : List Char} {str : List Byte} (hmn : (m == "from_str".toList) = true)
    (hread : readString (' ' :: rest) = some (str, tail)) (hend : atEnd tail = true) :
    parseLine (m ++ '.' :: ((tyName ty).toList ++ ' ' :: rest)) = .ok (some (fromStrLine ty str)) := by
  simp only [parseLine, atEnd_mnemonic hm, skipBlanks_mnemonic hm, takeWhile_mnemonic hm, dropWhile_mnemonic hm,
    takeWhile_tyName, dropWhile_tyName, find?_tyName, hmn, hread, hend, Bool.false_eq_true, if_true, if_false]

/-- A line of any other mnemonic is what its operands make of it (R85). -/
theorem parseLine_of_opcode {op : Opcode} (hmn : (m == "from_str".toList) = false)
    (hop : Opcode.all.find? (fun o => (opcodeName o).toList == m) = some op) :
    parseLine (m ++ '.' :: ((tyName ty).toList ++ ' ' :: rest)) =
      (finishLine op ty (readOperands op.format (' ' :: rest))).map some := by
  simp only [parseLine, atEnd_mnemonic hm, skipBlanks_mnemonic hm, takeWhile_mnemonic hm, dropWhile_mnemonic hm,
    takeWhile_tyName, dropWhile_tyName, find?_tyName, hmn, hop, Bool.false_eq_true, if_false]

end

theorem isMnemonic_fromStr : IsMnemonic "from_str".toList := by simp [IsMnemonic, isDelimiter, isBlank]

theorem isMnemonic_fromStrRadix : IsMnemonic "from_str_radix".toList := by simp [IsMnemonic, isDelimiter, isBlank]

/-- The operands of format S, from what its two readers make of them (R85). -/
theorem readOperands_S {cs rest rest' tail : List Char} {str : List Byte} {radix : Nat}
    (hread : readString cs = some (str, rest)) (hcomma : readComma rest = some rest')
    (hradix : readWord decimalOf rest' = some (radix, tail)) :
    readOperands .S cs = some (.string str radix, tail) := by
  simp [readOperands, hread, hcomma, hradix]

/-- A line of `from_str_radix` with the radix 10 is the request that `from_str` stands for (R87). -/
theorem parseLine_fromStrRadix (ty : Ty) {rest tail : List Char} {str : List Byte}
    (hread : readString (' ' :: rest) = some (str, ", 10".toList ++ tail)) (htail : tail = [] ∨ tail.head? = some ';') :
    parseLine ("from_str_radix".toList ++ '.' :: ((tyName ty).toList ++ ' ' :: rest)) =
      .ok (some (fromStrLine ty str)) := by
  have hoperands := readOperands_S hread rfl (readWord_ten htail)
  rw [parseLine_of_opcode isMnemonic_fromStrRadix ty (op := .fromStrRadix) (by decide) (by decide), Opcode.format, hoperands,
    finishLine, atEnd_of_comment htail]
  rfl

/-- Settles O56: the literal reads as its bytes in both lines, which then are one line. -/
theorem fromStrAssemblesToRadixTen : Obligations.FromStrAssemblesToRadixTen := by
  intro cfg sent str parts tail hex escaped spellings literal hlen hparts htail p hp
  have hparts : List.Forall₂ (fun c part => part ∈ byteSpellings c) str parts := hparts
  obtain ⟨ty, -, rfl⟩ : ∃ ty ∈ allTypes, (tyName ty, ty) = p := List.mem_map.1 hp
  refine ⟨fromStrLine ty str, ?_, ?_, assemble_fromStrLine cfg sent ty hlen⟩
  · have hline := parseLine_of_fromStr isMnemonic_fromStr ty (by decide) (readString_literal hparts tail)
      (atEnd_of_comment htail)
    rw [← hline]
    simp [literal]
  · have hline := parseLine_fromStrRadix ty (readString_literal hparts (", 10".toList ++ tail)) htail
    rw [← hline]
    simp [literal]

end Sys2Proof.Machine
end
